-- ==== Sys2Proof/Word.lean ====
section
/-! DEFINITION. The word types of the engine: command words, data words, FMT words, and pairs of them. -/

namespace Sys2Proof

/-- A byte, for environments that carry words over a byte stream (R64). -/
abbrev Byte := BitVec 8

/-- A data word of DIN and DOUT, DW = 32 bits (R7, R61). -/
abbrev Word := BitVec 32

/-- A command word, CMDW = 64 bits (R7, R80). -/
abbrev Cmd := BitVec 64

/-- A value of FMT = IEEE 754 binary32 (R7), held as its encoding, so that `f32` and `bits` of R12 are both
the identity and a copy is bit for bit. -/
abbrev Fmt := BitVec 32

/-- A complex FMT value: one bin of a 512-point transform (R17, R111). -/
structure Cplx where
  re : Fmt
  im : Fmt
deriving DecidableEq, Repr, Inhabited

/-- A vector of `n` entries, entry `i` being `f i`. -/
def vecOf {α : Type} (n : Nat) (f : Nat → α) : Vector α n := ⟨((List.range n).map f).toArray, by simp⟩

end Sys2Proof
end

