-- ==== Sys2Proof/Config.lean ====
section
/-! DEFINITION. The constants of the machine (R6, R7, R20) and everything the spec leaves open as a named
parameter (R8): the `Numerics` record, the fault draws, CH_RESET, the two unused time constants, the arbiter's
choices, and the NaN of class R arithmetic. An open value is an `opaque` constant: nothing is known of it. -/

namespace Sys2Proof.Config

/-! Constants DSPAPP fixes (R6) and constants the spec fixes (R7). -/

/-- NBANDS (R6). -/
abbrev nbands : Nat := 31
/-- NFFT, the transform length and the shortest block that is shaped or analysed (R6). -/
abbrev nfft : Nat := 512
/-- NSPEC, the retained one-sided bins (R6). -/
abbrev nspec : Nat := 256
/-- HISTCAP, the capacity of each level history (R6). -/
abbrev histcap : Nat := 100
/-- NCH, the channel identifiers (R6). -/
abbrev nch : Nat := 6
/-- NPARAM, the parameters of one channel (R7). -/
abbrev nparam : Nat := 8
/-- NMAX, the longest block (R7). -/
abbrev nmax : Nat := 65535
/-- The words of the configuration record (R227). -/
abbrev nrecord : Nat := 79
/-- GAIN_MAX, +12 dB (R6, R18). -/
abbrev gainMax : Fmt := 0x41400000#32
/-- GAIN_MIN, -12 dB (R6, R18). -/
abbrev gainMin : Fmt := 0xC1400000#32
/-- THR_DEFAULT, rnd(0.7) (R6, R18). -/
abbrev thrDefault : Fmt := 0x3F333333#32
/-- RATIO_DEFAULT, 4.0 (R6, R18). -/
abbrev ratioDefault : Fmt := 0x40800000#32
/-- CEIL_DEFAULT, rnd(0.95) (R6, R18). -/
abbrev ceilDefault : Fmt := 0x3F733333#32
/-- CEIL_MAX, 1.0 (R6, R18). -/
abbrev ceilMax : Fmt := 0x3F800000#32
/-- BASS_COEF, rnd(0.1) (R6, R18). -/
abbrev bassCoef : Fmt := 0x3DCCCCCD#32
/-- DB_EPS, rnd(1e-10) (R6, R18). -/
abbrev dbEps : Fmt := 0x2EDBE6FF#32
/-- DB_FLOOR, -60.0 (R6, R18). -/
abbrev dbFloor : Fmt := 0xC2700000#32

/-- BAND[0..30], the Band Table in Hz (R20). -/
def bandTable : List Nat :=
  [20, 25, 31, 40, 50, 63, 80, 100, 125, 160, 200, 250, 315, 400, 500, 630] ++
  [800, 1000, 1250, 1600, 2000, 2500, 3150, 4000, 5000, 6300, 8000, 10000, 12500, 16000, 20000]

/-- BAND[i] (R20). -/
def band (i : Nat) : Nat := bandTable.getD i 0

/-! The `Numerics` record (R17): functions of their operands alone. -/

/-- The rounded arithmetic of the class T operations (R16, R17), a parameter of the model (R8). The comments give
each function's real-valued reference; the formulas themselves are in Laws/Reference.lean. What the rules say of
the results at particular operands (a silent block, the ends of the window) is applied by the wrappers of
Machine/Numeric.lean, so this record itself is under no law. -/
structure Numerics where
  /-- Reference `10^x`. -/
  pow10 : Fmt → Fmt
  /-- Reference `log10 x` for `x > 0`. -/
  log10p : Fmt → Fmt
  /-- Reference `sqrt (mean x^2)`. -/
  rms : List Fmt → Fmt
  /-- Reference: the arithmetic mean. -/
  mean : List Fmt → Fmt
  /-- Reference R157; asked for `n` in `1..255` only, the other half being its mirror image. -/
  hann : Nat → Fmt
  /-- `dft512 u k` is bin `k` of the forward transform of the 512 samples `u`; reference R111. -/
  dft512 : List Fmt → Nat → Cplx
  /-- `idft512 U n` is sample `n` of the inverse transform of the 512 bins `U`; reference R111. -/
  idft512 : List Cplx → Nat → Cplx
  /-- Reference `sqrt (re^2 + im^2)`. -/
  cabs : Cplx → Fmt
deriving Inhabited

/-- The engine's own `Numerics` (R8, R17; log 3): uninterpreted, the reading R17 (b) allows. -/
opaque numerics : Numerics

/-- The free values of XF, one for each PROCESS that runs (R242; log 7). -/
opaque xfDraw : Nat → BitVec 6

/-- CH_RESET[c][p], the channel words after reset, before the structural limit on the boolean words (R29; log 8). -/
opaque chReset : Nat → Nat → Word

/-- ATTACK_TC, a constant of unspecified value that no rule reads (R36; log 9). -/
opaque attackTc : Fmt

/-- RELEASE_TC, a constant of unspecified value that no rule reads (R36; log 9). -/
opaque releaseTc : Fmt

/-- The arbiter's free choice after a port has been served: how many turns it may be passed over (R71; log 10).
The argument is the turn. -/
opaque arbiterDelay : Nat → Nat

/-- The arbiter's free choice for the first command of each port after reset (R71; log 10). The argument is the
port's number (P 0, C 1, D 2). -/
opaque firstDue : Nat → Nat

/-- The sign and payload bits of the NaN a class R operation makes from its two operands (R16; log 6). -/
opaque nanBits : Fmt → Fmt → BitVec 32

end Sys2Proof.Config
end

