-- ==== Sys2Proof/Machine/Fmt.lean ====
section
/-! DEFINITION. Arithmetic of FMT = IEEE 754 binary32 (R15, R16, R18, R19): the tests, the class X operations, the
rounding `rnd`, and the class R operations. A finite value is an integral multiple of 2^-149, so every exact result
is computed on natural numbers in that unit and rounded once. -/

namespace Sys2Proof.Machine.Fp

/-! Constants (R18). -/

/-- 1.0. -/
abbrev one : Fmt := 0x3F800000#32
/-- 20.0. -/
abbrev twenty : Fmt := 0x41A00000#32
/-- The infinity of sign +. -/
abbrev posInf : Fmt := 0x7F800000#32

/-! Tests and class X operations (R15, R16, R19). -/

/-- The sign bit. -/
def sign (x : Fmt) : Bool := x.msb

/-- Exponent and fraction together: the encoding without its sign bit. It orders magnitudes. -/
def mag (x : Fmt) : Nat := x.toNat % 2 ^ 31

/-- `IsNaN(v)` (R15). -/
def isNaN (x : Fmt) : Bool := decide (0x7F800000 < mag x)

/-- `IsInf(v)` (R15). -/
def isInf (x : Fmt) : Bool := decide (mag x = 0x7F800000)

/-- `Finite(v) = not IsNaN(v) and not IsInf(v)` (R15). -/
def finite (x : Fmt) : Bool := !isNaN x && !isInf x

/-- `v == 0`, either zero sign (R19). -/
def isZero (x : Fmt) : Bool := decide (mag x = 0)

/-- The place of a value that is no NaN in the order of the extended reals, both zeros at 0 (R19). -/
def key (x : Fmt) : Int := if sign x then -(mag x : Int) else (mag x : Int)

/-- `x < y`, false when an operand is a NaN (R19). -/
def lt (x y : Fmt) : Bool := !isNaN x && !isNaN y && decide (key x < key y)

/-- `x <= y`, false when an operand is a NaN (R19). -/
def le (x y : Fmt) : Bool := !isNaN x && !isNaN y && decide (key x ≤ key y)

/-- Absolute value (class X). -/
def abs (x : Fmt) : Fmt := x &&& 0x7FFFFFFF#32

/-- Negation (class X). -/
def neg (x : Fmt) : Fmt := x ^^^ 0x80000000#32

/-- `copysign(m, x)`: the magnitude of `m`, the sign bit of `x` (R19). -/
def copysign (m x : Fmt) : Fmt := (m &&& 0x7FFFFFFF#32) ||| (x &&& 0x80000000#32)

/-- `max(p, a)` (class X): `a` when it is above `p`, else `p`. -/
def max (p a : Fmt) : Fmt := if lt p a then a else p

/-- `min(p, a)` (class X): `a` when it is below `p`, else `p`. -/
def min (p a : Fmt) : Fmt := if lt a p then a else p

/-! Rounding (R15). -/

/-- The magnitude of a finite value in units of 2^-149. -/
def units (x : Fmt) : Nat :=
  let e := mag x / 2 ^ 23
  let f := mag x % 2 ^ 23
  if e = 0 then f else (2 ^ 23 + f) * 2 ^ (e - 1)

/-- A finite value in units of 2^-149. -/
def sunits (x : Fmt) : Int := if sign x then -(units x : Int) else (units x : Int)

/-- The number `n / d` rounded to an integer, ties to even. -/
def nearestEven (n d : Nat) : Nat :=
  let q := n / d
  let r := n % d
  if 2 * r < d then q else if d < 2 * r then q + 1 else q + q % 2

/-- The sign bit of a result. -/
def signBit (negative : Bool) : Fmt := if negative then 0x80000000#32 else 0#32

/-- The magnitude `num / den` (in units of 2^-149) rounded to FMT, to nearest, ties to even, an overflow to
infinity (R15), with the sign given. `sh` is the exponent of the spacing of FMT values at that magnitude. -/
def roundUnits (negative : Bool) (num den : Nat) : Fmt :=
  let sh := (num / den).log2 - 23
  let m := nearestEven num (den * 2 ^ sh)
  let enc := sh * 2 ^ 23 + m
  signBit negative ||| (if enc < 0x7F800000 then BitVec.ofNat 32 enc else posInf)

/-- `rnd(r)` for the real `r` of magnitude `num / den` (R15). -/
def rnd (negative : Bool) (num den : Nat) : Fmt := roundUnits negative (num * 2 ^ 149) den

/-! Class R operations (R16): `rnd` of the exact result, with the IEEE 754 results for NaNs, infinities and
zeros (log 6, 20). -/

/-- The NaN a class R operation makes: a quiet NaN whose sign and payload are open (log 6). -/
def madeNaN (x y : Fmt) : Fmt := Config.nanBits x y ||| 0x7FC00000#32

/-- `x (+) y`. -/
def add (x y : Fmt) : Fmt :=
  if isNaN x || isNaN y then madeNaN x y
  else if isInf x then (if isInf y && (sign x != sign y) then madeNaN x y else x)
  else if isInf y then y
  else
    let k := sunits x + sunits y
    if k = 0 then signBit (sign x && sign y) else roundUnits (decide (k < 0)) k.natAbs 1

/-- `x (-) y`. -/
def sub (x y : Fmt) : Fmt :=
  if isNaN x || isNaN y then madeNaN x y else add x (neg y)

/-- `x (*) y`. -/
def mul (x y : Fmt) : Fmt :=
  let s := sign x != sign y
  if isNaN x || isNaN y then madeNaN x y
  else if isInf x || isInf y then (if isZero x || isZero y then madeNaN x y else signBit s ||| posInf)
  else roundUnits s (units x * units y) (2 ^ 149)

/-- `x (/) y`. -/
def div (x y : Fmt) : Fmt :=
  let s := sign x != sign y
  if isNaN x || isNaN y then madeNaN x y
  else if isInf x then (if isInf y then madeNaN x y else signBit s ||| posInf)
  else if isInf y then signBit s
  else if isZero y then (if isZero x then madeNaN x y else signBit s ||| posInf)
  else roundUnits s (units x * 2 ^ 149) (units y)

end Sys2Proof.Machine.Fp
end

