-- ==== Sys2Proof/Machine/Numeric.lean ====
section
/-! DEFINITION. The class T operations as the stages use them (R16, R17): the `Numerics` record, with what the
rules themselves say of its results at particular operands (log 4, 5). `num` is the record, a parameter (R8). -/

namespace Sys2Proof.Machine

/-- `pow10`: the record's value; from exponent 39.0 on the magnitude is above the largest finite value, so the
result is +Inf (R15, R149; log 4). -/
def tPow10 (num : Config.Numerics) (x : Fmt) : Fmt :=
  if Fp.le 0x421C0000#32 x then Fp.posInf else num.pow10 x

/-- `log10p`: the record's value. -/
def tLog10 (num : Config.Numerics) (x : Fmt) : Fmt := num.log10p x

/-- `rms`: "non-negative", "+0.0 when every sample is a zero" (R171; log 4). -/
def tRms (num : Config.Numerics) (xs : List Fmt) : Fmt :=
  if xs.all Fp.isZero then 0#32 else Fp.abs (num.rms xs)

/-- `mean` of magnitudes: zero for zeros and non-negative (R163; log 4). -/
def tMean (num : Config.Numerics) (xs : List Fmt) : Fmt :=
  if xs.all Fp.isZero then 0#32 else Fp.abs (num.mean xs)

/-- A window coefficient of the record as a value of [0, 1]: its magnitude, at most 1.0 (R157, P9; log 4). -/
def unitInterval (h : Fmt) : Fmt := if Fp.lt (Fp.abs h) Fp.one then Fp.abs h else Fp.one

/-- The window coefficient `w[n]`: in [0, 1], `w[0] = w[511] = 0` and `w[n] = w[511 - n]` (R157; log 4). -/
def tHann (num : Config.Numerics) (n : Nat) : Fmt :=
  if n = 0 ∨ 511 ≤ n then 0#32 else unitInterval (if n ≤ 255 then num.hann n else num.hann (511 - n))

/-- Both zeros as the one real number 0 (log 5). -/
def plusZero (x : Fmt) : Fmt := if Fp.isZero x then 0#32 else x

/-- Bin `k` of the forward transform of `u` (R111): zero when every sample is a zero (R167 item 2, R168), a
function of the samples as real numbers (R167 item 3; log 4, 5). -/
def tDft (num : Config.Numerics) (u : List Fmt) (k : Nat) : Cplx :=
  if u.all Fp.isZero then { re := 0#32, im := 0#32 } else num.dft512 (u.map plusZero) k

/-- Sample `n` of the inverse transform of the bins `U` (R111): the record's value. -/
def tIdft (num : Config.Numerics) (bins : List Cplx) (n : Nat) : Cplx := num.idft512 bins n

/-- The magnitude of a bin: zero for a zero bin (R168), non-negative (R38; log 4). -/
def tCabs (num : Config.Numerics) (z : Cplx) : Fmt :=
  if Fp.isZero z.re && Fp.isZero z.im then 0#32 else Fp.abs (num.cabs z)

end Sys2Proof.Machine
end

