-- ==== Sys2Proof/Syntax.lean ====
section
/-! DEFINITION. The fifteen commands of the engine, one constructor per row of spec/opcode_table.json (R86).
Block lengths, sample rates, indices and selectors are natural numbers (R14) with the ranges of the text form
(R100), checked in WellFormed.lean; a value operand is its raw word (R92). A reserved opcode is no command of the
table and has no constructor (R93; log 16). -/

namespace Sys2Proof

/-- A command with the operands its fields carry (R81). -/
inductive Instr where
  /-- NOP (R226). -/
  | nop
  /-- START (R181). -/
  | start
  /-- STOP (R182). -/
  | stop
  /-- PROCESS n, sr (R183). -/
  | process (n : Nat) (sr : Nat)
  /-- SETEQ i, g (R202). -/
  | seteq (i : Nat) (g : Word)
  /-- SETCH ch, par, val (R203). -/
  | setch (ch : Nat) (par : Nat) (val : Word)
  /-- SETDYN comp, lim (R204). -/
  | setdyn (comp : Bool) (lim : Bool)
  /-- SETBASS g (R205). -/
  | setbass (g : Word)
  /-- SETDYNP sel, val (R206). -/
  | setdynp (sel : Nat) (val : Word)
  /-- GETSNAP (R221). -/
  | getsnap
  /-- GETLEVELS (R222). -/
  | getlevels
  /-- GETHIST sel (R223). -/
  | gethist (sel : Nat)
  /-- GETSTAT (R224). -/
  | getstat
  /-- CFGSAVE (R225). -/
  | cfgsave
  /-- CFGLOAD (R207). -/
  | cfgload
deriving DecidableEq, Repr

end Sys2Proof
end

