-- ==== Sys2Proof/WellFormed.lean ====
section
/-! DEFINITION. Which commands a command word can carry: the operand ranges of R100, which are the widths of the
fields of R80. An index outside its index space (SETEQ 31, GETHIST 2) is well formed: R95 gives it a behaviour. -/

namespace Sys2Proof

/-- The operand ranges of R100. -/
def Instr.wf : Instr → Bool
  | .nop => true
  | .start => true
  | .stop => true
  | .process n sr => decide (n ≤ Config.nmax) && decide (sr < 2 ^ 32)
  | .seteq i _ => decide (i ≤ 255)
  | .setch ch par _ => decide (ch ≤ 255) && decide (par ≤ 255)
  | .setdyn _ _ => true
  | .setbass _ => true
  | .setdynp sel _ => decide (sel ≤ 255)
  | .getsnap => true
  | .getlevels => true
  | .gethist sel => decide (sel ≤ 255)
  | .getstat => true
  | .cfgsave => true
  | .cfgload => true

end Sys2Proof
end

