-- ==== Sys2Proof/Decode.lean ====
section
/-! DEFINITION. Decoding command words (30_encoding.md R80, R81, R86, R98), the encoder written from the same
tables, the little-endian byte form of R64, and how many data words a command takes (R82). -/

namespace Sys2Proof

/-- Why a word, or a run of bytes, is no command of the table. -/
inductive DecodeError where
  /-- The `op` field is one of the reserved opcodes of R93; executing the word sets BADCMD. -/
  | reservedOpcode (op : BitVec 8)
  /-- Fewer than eight bytes are left, so there is no whole command word (R64, R80). -/
  | truncated
deriving DecidableEq, Repr

/-! The fields of the format C64 (R80). -/

/-- `op`, bits 63:56. -/
def fieldOp (w : Cmd) : BitVec 8 := w.extractLsb' 56 8
/-- `a`, bits 55:48. -/
def fieldA (w : Cmd) : BitVec 8 := w.extractLsb' 48 8
/-- `b`, bits 47:40. -/
def fieldB (w : Cmd) : BitVec 8 := w.extractLsb' 40 8
/-- `fl`, bits 39:32. -/
def fieldFl (w : Cmd) : BitVec 8 := w.extractLsb' 32 8
/-- `v`, bits 31:0. -/
def fieldV (w : Cmd) : Word := w.extractLsb' 0 32

/-- Decoding a command word (R81, R86, R98). Only `op` selects the command; a field the command does not use is
ignored (R94); an opcode outside R86 is reserved (R93). -/
def decode (w : Cmd) : Except DecodeError Instr :=
  let a := (fieldA w).toNat
  let b := (fieldB w).toNat
  let fl := fieldFl w
  let v := fieldV w
  match fieldOp w with
  | 0x00#8 => .ok .nop
  | 0x01#8 => .ok .start
  | 0x02#8 => .ok .stop
  | 0x03#8 => .ok (.process (256 * a + b) v.toNat)
  | 0x10#8 => .ok (.seteq a v)
  | 0x11#8 => .ok (.setch a b v)
  | 0x12#8 => .ok (.setdyn (fl.getLsbD 0) (fl.getLsbD 1))
  | 0x13#8 => .ok (.setbass v)
  | 0x14#8 => .ok (.setdynp b v)
  | 0x20#8 => .ok .getsnap
  | 0x21#8 => .ok .getlevels
  | 0x22#8 => .ok (.gethist a)
  | 0x23#8 => .ok .getstat
  | 0x30#8 => .ok .cfgsave
  | 0x31#8 => .ok .cfgload
  | op => .error (.reservedOpcode op)

/-- The `op` value of each command (R86). -/
def Instr.opcode : Instr → BitVec 8
  | .nop => 0x00#8
  | .start => 0x01#8
  | .stop => 0x02#8
  | .process _ _ => 0x03#8
  | .seteq _ _ => 0x10#8
  | .setch _ _ _ => 0x11#8
  | .setdyn _ _ => 0x12#8
  | .setbass _ => 0x13#8
  | .setdynp _ _ => 0x14#8
  | .getsnap => 0x20#8
  | .getlevels => 0x21#8
  | .gethist _ => 0x22#8
  | .getstat => 0x23#8
  | .cfgsave => 0x30#8
  | .cfgload => 0x31#8

/-- A command word from its five fields, `{op, a, b, fl, v}` (R9, R80). -/
def pack (op a b fl : BitVec 8) (v : Word) : Cmd := op ++ a ++ b ++ fl ++ v

/-- Encoding a command (R80, R81): zeros in the fields it does not use (R94). -/
def encode (i : Instr) : Cmd :=
  match i with
  | .process n sr => pack i.opcode (BitVec.ofNat 8 (n / 256)) (BitVec.ofNat 8 n) 0#8 (BitVec.ofNat 32 sr)
  | .seteq k g => pack i.opcode (BitVec.ofNat 8 k) 0#8 0#8 g
  | .setch ch par val => pack i.opcode (BitVec.ofNat 8 ch) (BitVec.ofNat 8 par) 0#8 val
  | .setdyn comp lim => pack i.opcode 0#8 0#8 (0#6 ++ BitVec.ofBool lim ++ BitVec.ofBool comp) 0#32
  | .setbass g => pack i.opcode 0#8 0#8 0#8 g
  | .setdynp sel val => pack i.opcode 0#8 (BitVec.ofNat 8 sel) 0#8 val
  | .gethist sel => pack i.opcode (BitVec.ofNat 8 sel) 0#8 0#8 0#32
  | .nop => pack i.opcode 0#8 0#8 0#8 0#32
  | .start => pack i.opcode 0#8 0#8 0#8 0#32
  | .stop => pack i.opcode 0#8 0#8 0#8 0#32
  | .getsnap => pack i.opcode 0#8 0#8 0#8 0#32
  | .getlevels => pack i.opcode 0#8 0#8 0#8 0#32
  | .getstat => pack i.opcode 0#8 0#8 0#8 0#32
  | .cfgsave => pack i.opcode 0#8 0#8 0#8 0#32
  | .cfgload => pack i.opcode 0#8 0#8 0#8 0#32

/-- How many data-in words a command consumes (R82). -/
def Instr.dataWords : Instr → Nat
  | .process n _ => n
  | .cfgload => 82
  | .nop => 0
  | .start => 0
  | .stop => 0
  | .seteq _ _ => 0
  | .setch _ _ _ => 0
  | .setdyn _ _ => 0
  | .setbass _ => 0
  | .setdynp _ _ => 0
  | .getsnap => 0
  | .getlevels => 0
  | .gethist _ => 0
  | .getstat => 0
  | .cfgsave => 0

/-- How many data-in words a command word announces: its command's count, none for a reserved opcode (R82, R93). -/
def wordsNeeded (w : Cmd) : Nat :=
  match decode w with
  | .ok i => i.dataWords
  | .error _ => 0

/-- A word from its four bytes, or a command word from its eight, least significant byte first (R64). -/
def ofBytesLE (n : Nat) (bs : List Byte) : BitVec n :=
  BitVec.ofNat n (bs.foldr (fun b acc => acc * 256 + b.toNat) 0)

/-- The `k` bytes of a number, least significant first (R64). -/
def toBytesLE : Nat → Nat → List Byte
  | 0, _ => []
  | k + 1, x => BitVec.ofNat 8 x :: toBytesLE k (x / 256)

/-- Decoding the next command of a byte stream: eight bytes, least significant first (R64), and the bytes left. -/
def decodeBytes (bs : List Byte) : Except DecodeError (Instr × List Byte) :=
  if bs.length < 8 then .error .truncated
  else (decode (ofBytesLE 64 (bs.take 8))).map fun i => (i, bs.drop 8)

/-- The eight bytes of a command word, as an environment with a byte stream sends them (R64). -/
def encodeBytes (i : Instr) : List Byte := toBytesLE 8 (encode i).toNat

/-- The decoder on a row of spec/opcode_table.json: `w` holds the command word's 64 bits, bit 0 the least
significant (the engine's command words are whole words, R64, so the numbering is the same). -/
def decodeTableWord (nbits w : Nat) : Option Instr :=
  match decode (BitVec.ofNat 64 (w % 2 ^ nbits)) with
  | .ok i => some i
  | .error _ => none

end Sys2Proof
end

