-- ==== Sys2Proof/Machine/State.lean ====
section
/-! DEFINITION. The state of one engine (10_state.md, 20_memory.md R61), its reset value (R44, R271), and the
reasons a step could stop (there are none: R96, R253). -/

namespace Sys2Proof.Machine

/-- ENG, the engine state (R31, R180). -/
inductive Eng where
  | idle
  | active
deriving DecidableEq, Repr

/-- The three requester ports (R61). -/
inductive Port where
  /-- The processing role's port. -/
  | P
  /-- The control role's port. -/
  | C
  /-- The display role's port. -/
  | D
deriving DecidableEq, Repr

/-- One port: its three streams (R61), oldest word first, and the arbiter's pending choice for it. -/
structure PortState where
  /-- CMD_p, the command words issued and not yet executed. -/
  cmd : List Cmd
  /-- DIN_p, the data words supplied and not yet consumed. -/
  din : List Word
  /-- DOUT_p, the response words produced and not yet taken. -/
  dout : List Word
  /-- The model's own: of the ports that can go on, the arbiter serves one of least `due` (R71, R78; log 10). -/
  due : Nat
deriving DecidableEq, Repr

/-- The state of one engine. -/
structure State where
  /-- EQG[0..30] (R22). -/
  eqg : Vector Fmt 31
  /-- CH[0..5][0..7] (R23, R25). -/
  ch : Vector (Vector Word 8) 6
  /-- COMP_EN (R26). -/
  compEn : Bool
  /-- LIM_EN (R26). -/
  limEn : Bool
  /-- THR (R27). -/
  thr : Fmt
  /-- RATIO (R27). -/
  ratio : Fmt
  /-- CEIL (R27). -/
  ceil : Fmt
  /-- BASS (R28). -/
  bass : Fmt
  /-- ATTACK_TC (R36): nothing writes it, nothing reads it. -/
  attackTc : Fmt
  /-- RELEASE_TC (R36): nothing writes it, nothing reads it. -/
  releaseTc : Fmt
  /-- ENG (R31). -/
  eng : Eng
  /-- SR (R33). -/
  sr : BitVec 32
  /-- FLT[6:0] (R34). -/
  flt : BitVec 7
  /-- SPEC[0..255] (R38). -/
  spec : Vector Fmt 256
  /-- BLEV[0..30] (R39). -/
  blev : Vector Fmt 31
  /-- HRMS, oldest entry first (R40). -/
  hrms : List Fmt
  /-- HPEAK, oldest entry first (R40). -/
  hpeak : List Fmt
  /-- Port P (R61). -/
  portP : PortState
  /-- Port C (R61). -/
  portC : PortState
  /-- Port D (R61). -/
  portD : PortState
  /-- RST, the reset input (R270; log 14). -/
  rst : Bool
  /-- XF[5:0], the environment's fault draw for the next PROCESS that runs (R242; log 7). -/
  xf : BitVec 6
  /-- The model's own: how many values of `Config.xfDraw` have been used (log 13). -/
  draws : Nat
  /-- The model's own: how many commands have been executed since reset (log 13). -/
  turn : Nat
  /-- The model's own: the port `p` of the command being executed (R98; log 13). -/
  cur : Port
deriving DecidableEq, Repr

/-- Reasons the machine could stop with a fault: none. No command word can stop the engine (R96) and no failure of
a stage does (R253), so no meaning and no step raises a fault. -/
inductive Fault where
deriving DecidableEq, Repr

/-- Reasons an instruction could be refused. -/
inductive Refusal where
  /-- Raised by `exec` for an instruction that has no meaning yet, under its mnemonic; safe. No arm raises it. -/
  | notModelled (mnemonic : String)
deriving DecidableEq, Repr

/-- The outcome of one step of the engine. -/
abbrev Outcome := Host.Outcome State Fault Refusal

/-- CH[c][p] after reset: the parameter CH_RESET, with bits 31:1 zero in the boolean words `p = 6, 7` (R29). -/
def chAfterReset (c p : Nat) : Word :=
  if p ≤ 5 then Config.chReset c p else Config.chReset c p &&& 1#32

/-- The streams of a port after reset, all empty (R44, R272). -/
def PortState.afterReset (k : Nat) : PortState := { cmd := [], din := [], dout := [], due := Config.firstDue k }

/-- The state right after reset (R44, R271). The channel words, ATTACK_TC, RELEASE_TC, the first fault draw and
the arbiter's first choices are open values (log 7 to 10); `turn`, `draws` and `cur` are the model's own
(log 13). -/
def State.reset : State :=
  { eqg := Vector.replicate 31 0#32
    ch := vecOf 6 fun c => vecOf 8 fun p => chAfterReset c p
    compEn := false
    limEn := false
    thr := Config.thrDefault
    ratio := Config.ratioDefault
    ceil := Config.ceilDefault
    bass := 0#32
    attackTc := Config.attackTc
    releaseTc := Config.releaseTc
    eng := .idle
    sr := 0#32
    flt := 0#7
    spec := Vector.replicate 256 0#32
    blev := Vector.replicate 31 0#32
    hrms := []
    hpeak := []
    portP := PortState.afterReset 0
    portC := PortState.afterReset 1
    portD := PortState.afterReset 2
    rst := false
    xf := Config.xfDraw 0
    draws := 1
    turn := 0
    cur := .P }

end Sys2Proof.Machine
end

