-- ==== Sys2Proof/Machine/Flags.lean ====
section
/-! DEFINITION. Status and flag words: the PROCESS status byte (R85), the sticky log FLT (R34), response headers
(R84) and the status word of GETSTAT (R224). -/

namespace Sys2Proof.Machine

/-- ENG as a bit: 0 Idle, 1 Active (R31). -/
def Eng.bit : Eng → BitVec 1
  | .idle => 0#1
  | .active => 1#1

/-- The six failure bits, bit `s` for stage `s` (R85, R189). -/
def failBits (f0 f1 f2 f3 f4 f5 : Bool) : BitVec 6 :=
  BitVec.ofBool f5 ++ BitVec.ofBool f4 ++ BitVec.ofBool f3 ++ BitVec.ofBool f2 ++ BitVec.ofBool f1 ++ BitVec.ofBool f0

/-- The status byte of a PROCESS that ran: `{0, 0, f5, ..., f0}` (R85, R189). -/
def ranStatus (f : BitVec 6) : BitVec 8 := 0#2 ++ f

/-- The status byte of a PROCESS ignored in Idle: IGN (R85, R184). -/
def ignStatus : BitVec 8 := 0x80#8

/-- FLT after the stage failures `f`: `FLT[5:0] | f`, FLT[6] kept (R34, R190). -/
def logFailures (flt : BitVec 7) (f : BitVec 6) : BitVec 7 := flt ||| (0#1 ++ f)

/-- FLT after a reserved opcode: FLT[6] set (R34, R93). -/
def logBadCmd (flt : BitVec 7) : BitVec 7 := flt ||| 0x40#7

/-- The header word of a response, `{op, st, len}` (R11, R84). -/
def header (op st : BitVec 8) (len : Nat) : Word := op ++ st ++ BitVec.ofNat 16 len

/-- The word `w0` of GETSTAT (R224): bit 0 ENG, bit 1 COMP_EN, bit 2 LIM_EN, bits 14:8 FLT. -/
def statusWord (eng : Eng) (compEn limEn : Bool) (flt : BitVec 7) : Word :=
  0#17 ++ flt ++ 0#5 ++ BitVec.ofBool limEn ++ BitVec.ofBool compEn ++ eng.bit

end Sys2Proof.Machine
end

