-- ==== Sys2Proof/Machine/Operands.lean ====
section
/-! DEFINITION. The operands of the commands: channel and parameter numbers (R24, R25, R87, R88), the typing and
clamping of value words (R92, R201 to R206), the fields of a configuration record (R207, R227), and `NearestBin`,
the operand the EQ and the analyzer share (R113). -/

namespace Sys2Proof.Machine

/-- A channel word of a parameter `p <= 5` is FMT, one of `p = 6, 7` (mute, bypass) a boolean (R25, R92). -/
def isBooleanParam (p : Nat) : Bool := decide (6 ≤ p)

/-- The boolean of a value word, zero-extended `v[0]` (R92, R203). -/
def booleanWord (v : Word) : Word := v &&& 1#32

/-- What SETCH stores for parameter `p` and value `v`, if anything (R201, R203). -/
def channelValue (p : Nat) (v : Word) : Option Word :=
  if isBooleanParam p then some (booleanWord v) else if Fp.isNaN v then none else some v

/-- The clamp of a band gain to [-12, 12] (R202). -/
def clampGain (g : Fmt) : Fmt :=
  if Fp.lt Config.gainMax g then Config.gainMax else if Fp.lt g Config.gainMin then Config.gainMin else g

/-- The clamp of the threshold to `>= 0` (R206). -/
def clampThr (x : Fmt) : Fmt := if Fp.lt x 0#32 then 0#32 else x

/-- The clamp of the ratio to `>= 1` (R206). -/
def clampRatio (x : Fmt) : Fmt := if Fp.lt x Fp.one then Fp.one else x

/-- The clamp of the ceiling to [0, 1] (R206). -/
def clampCeil (x : Fmt) : Fmt :=
  if Fp.lt Config.ceilMax x then Config.ceilMax else if Fp.lt x 0#32 then 0#32 else x

/-- Field `j` of a CFGLOAD is present: bit `j mod 32` of mask word `j div 32` (R207). -/
def fieldPresent (masks : List Word) (j : Nat) : Bool := (masks.getD (j / 32) 0#32).getLsbD (j % 32)

/-- The channel of record word `j >= 31` (R207, R227). -/
def recordChannel (j : Nat) : Nat := (j - 31) / 8

/-- The parameter of record word `j >= 31` (R207, R227). -/
def recordParam (j : Nat) : Nat := (j - 31) % 8

/-- `NearestBin(f, sr)` by its closed form, in exact integer arithmetic (R113, R14): the numerator is not above 0
when `1024 f <= sr`, and then the bin is 0. -/
def nearestBin (f sr : Nat) : Nat :=
  if 1024 * f ≤ sr then 0 else Nat.min 255 ((1024 * f - sr + (2 * sr - 1)) / (2 * sr))

end Sys2Proof.Machine
end

