-- ==== Sys2Proof/Machine/Ops.lean ====
section
/-! DEFINITION. The named operations over registers, telemetry and ports (R10, R11), the soft failure of a stage
(R13, R251), the history append (R173), and the arbiter (R71, R78). -/

namespace Sys2Proof.Machine

/-! Ports and their streams (R61). -/

/-- The number of a port. -/
def Port.index : Port → Nat
  | .P => 0
  | .C => 1
  | .D => 2

/-- Port `p`. -/
def State.port (s : State) : Port → PortState
  | .P => s.portP
  | .C => s.portC
  | .D => s.portD

/-- Replacing port `p`. -/
def State.setPort (s : State) (p : Port) (q : PortState) : State :=
  match p with
  | .P => { s with portP := q }
  | .C => { s with portC := q }
  | .D => { s with portD := q }

/-- The port of the command being executed: the `p` of R98. -/
def State.here (s : State) : PortState := s.port s.cur

/-- Whether DIN of the executing port holds `n` words (R98). -/
def State.dinHolds (s : State) (n : Nat) : Bool := decide (n ≤ s.here.din.length)

/-- The words `DinRead(p, n)` returns (R11). -/
def State.dinWords (s : State) (n : Nat) : List Word := s.here.din.take n

/-- The state after `DinRead(p, n)` (R11). -/
def State.dinDrop (s : State) (n : Nat) : State := s.setPort s.cur { s.here with din := s.here.din.drop n }

/-- `DoutWrite(p, ws)` (R11). -/
def State.doutWrite (s : State) (ws : List Word) : State := s.setPort s.cur { s.here with dout := s.here.dout ++ ws }

/-- `Respond(p, op, st, ws)` (R11, R84). -/
def State.respond (s : State) (op st : BitVec 8) (ws : List Word) : State :=
  s.doutWrite (header op st ws.length :: ws)

/-! Parameter registers. -/

/-- `EQG[i]` (R22). -/
def State.eqGain (s : State) (i : Nat) : Fmt := s.eqg[i]?.getD 0#32

/-- `EQG[i] <- g` (R22). -/
def State.setEqGain (s : State) (i : Nat) (g : Fmt) : State := { s with eqg := s.eqg.setIfInBounds i g }

/-- `CH[c][p]` (R23). -/
def State.chWord (s : State) (c p : Nat) : Word := (s.ch[c]?.bind fun r => r[p]?).getD 0#32

/-- `CH[c][p] <- v` (R23). -/
def State.setChWord (s : State) (c p : Nat) (v : Word) : State :=
  { s with ch := s.ch.setIfInBounds c ((s.ch[c]?.getD (Vector.replicate 8 0#32)).setIfInBounds p v) }

/-- The effect of SETEQ (R202), shared with CFGLOAD (R207): a no-op for an index above 30 or a NaN, else the
clamped gain is stored. -/
def State.applyEqGain (s : State) (i : Nat) (g : Fmt) : State :=
  if 30 < i ∨ Fp.isNaN g then s else s.setEqGain i (clampGain g)

/-- The effect of SETCH (R203), shared with CFGLOAD (R207): a no-op for an unknown channel or parameter, or for a
NaN where the parameter is FMT. -/
def State.applyChannel (s : State) (c p : Nat) (v : Word) : State :=
  if 5 < c ∨ 7 < p then s
  else
    match channelValue p v with
    | none => s
    | some w => s.setChWord c p w

/-- Field `j` of a CFGLOAD record with masks `masks` and words `record` (R207). -/
def State.loadField (masks record : List Word) (s : State) (j : Nat) : State :=
  if fieldPresent masks j then
    if j ≤ 30 then s.applyEqGain j (record.getD j 0#32)
    else s.applyChannel (recordChannel j) (recordParam j) (record.getD j 0#32)
  else s

/-- The configuration record of a state (R227): the 31 gains, then the 8 words of each channel. -/
def State.record (s : State) : List Word := s.eqg.toList ++ s.ch.toList.flatMap fun r => r.toList

/-! The soft failure of a stage: the engine's one exception (R13, R240, R251). There is no return from it (R254). -/

/-- What a stage answers: its result, and whether it raised a soft failure (R85, R110). -/
structure StageOut (α : Type) where
  value : α
  failed : Bool
deriving DecidableEq, Repr

/-- A stage that did not fail. -/
def completed {α : Type} (result : α) : StageOut α := { value := result, failed := false }

/-- `raise SoftFail(s)` (R13, R251): the stage's result is its input, whole; the failure is reported in bit `s` of
the response status and of FLT, by `failBits` and `logFailures` of Flags.lean. -/
def softFail {α : Type} (input : α) : StageOut α := { value := input, failed := true }

/-- Bit `s` of the fault draw: the injected cause of a soft failure of stage `s` (R242). -/
def injected (xf : BitVec 6) (s : Nat) : Bool := xf.getLsbD s

/-! Level histories. -/

/-- `append(H, v)` (R173, R176): the oldest entry is dropped when the history is full. -/
def histAppend (h : List Fmt) (v : Fmt) : List Fmt :=
  if h.length < Config.histcap then h ++ [v] else (h.drop 1).take (Config.histcap - 1) ++ [v]

/-! The arbiter (R71, R78; log 10). -/

/-- Whether the head command of a port can be executed: there is one, and DIN holds the words it needs (R71, R98). -/
def PortState.ready (q : PortState) : Bool :=
  match q.cmd with
  | [] => false
  | w :: _ => decide (wordsNeeded w ≤ q.din.length)

/-- Port `p` if it is ready. -/
def State.candidate (s : State) (p : Port) : Option Port := if (s.port p).ready then some p else none

/-- Of two candidates the one whose `due` is less, the first on a tie. -/
def State.sooner (s : State) : Option Port → Option Port → Option Port
  | none, y => y
  | some p, none => some p
  | some p, some q => if (s.port q).due < (s.port p).due then some q else some p

/-- The arbiter's pick: a ready port of least `due` (R71), none when no port is ready. -/
def State.pick (s : State) : Option Port :=
  s.sooner (s.sooner (s.candidate .P) (s.candidate .C)) (s.candidate .D)

/-- The head command word of port `p`. -/
def State.headWord (s : State) (p : Port) : Cmd := (s.port p).cmd.headD 0#64

/-- Taking the head command of port `p` for execution (R61, R98): its word leaves CMD_p, `p` becomes the executing
port, and the arbiter draws its next free choice for `p`. -/
def State.take (s : State) (p : Port) : State :=
  let q := s.port p
  { s.setPort p { q with cmd := q.cmd.drop 1, due := s.turn + 1 + Config.arbiterDelay s.turn } with
    turn := s.turn + 1, cur := p }

end Sys2Proof.Machine
end

