-- ==== Sys2Proof/Machine/Analyzer.lean ====
section
/-! DEFINITION. Stage 4 of PROCESS: the spectral analyzer (43_spectral_analyzer.md R153 to R166). -/

namespace Sys2Proof.Machine

/-- The Analysis Snapshot: SPEC and BLEV (R38, R39). -/
structure Snapshot where
  spec : Vector Fmt 256
  blev : Vector Fmt 31
deriving DecidableEq, Repr

/-- The windowed segment `v[n] = x[n] (*) w[n]` of the first 512 samples (R155, R156). -/
def windowed (num : Config.Numerics) (x : List Fmt) : List Fmt :=
  (List.range Config.nfft).map fun n => Fp.mul (x.getD n 0#32) (tHann num n)

/-- The magnitude spectrum of a windowed segment, bins 0 to 255 (R158). -/
def magnitudes (num : Config.Numerics) (v : List Fmt) : List Fmt :=
  (List.range Config.nspec).map fun k => tCabs num (tDft num v k)

/-- The first bin `s` and the end bin `e` (excluded) of band interval `i` (R160). -/
def bandBins (sr i : Nat) : Nat × Nat := (nearestBin (Config.band i) sr, nearestBin (Config.band (i + 1)) sr)

/-- The level of averaged magnitude `m` (R162, R163): the floor -60.0 unless `m > 0`. -/
def bandLevel (num : Config.Numerics) (m : Fmt) : Fmt :=
  if Fp.lt 0#32 m then Fp.mul Fp.twenty (tLog10 num (Fp.add m Config.dbEps)) else Config.dbFloor

/-- The level of band `i` after an analysis: its old level when its bin range is empty (R161) or when it is band 30
(R159, R164), else the level of the mean magnitude over its bins (R162). -/
def newLevel (num : Config.Numerics) (sr : Nat) (mags : List Fmt) (old : Vector Fmt 31) (i : Nat) : Fmt :=
  let (s, e) := bandBins sr i
  if i < 30 ∧ s < e then bandLevel num (tMean num ((mags.drop s).take (e - s))) else old[i]?.getD 0#32

/-- The ANA stage (R166): a block shorter than 512 leaves the snapshot, without a failure (R154); a failure leaves
it whole (R165; log 17). -/
def anaStage (num : Config.Numerics) (xf4 : Bool) (x : List Fmt) (sr : Nat) (old : Snapshot) : StageOut Snapshot :=
  if x.length < Config.nfft then completed old
  else if sr = 0 ∨ xf4 = true then softFail old
  else if !(x.take Config.nfft).all Fp.finite then softFail old
  else
    let mags := magnitudes num (windowed num x)
    let levels := (List.range Config.nbands).map (newLevel num sr mags old.blev)
    if !mags.all Fp.finite || !levels.all Fp.finite then softFail old
    else completed { spec := vecOf 256 fun k => mags.getD k 0#32, blev := vecOf 31 fun i => levels.getD i 0#32 }

end Sys2Proof.Machine
end

