-- ==== Sys2Proof/Machine/Bass.lean ====
section
/-! DEFINITION. Stage 3 of PROCESS: the bass enhancer (42_bass_enhancer.md R145 to R150). -/

namespace Sys2Proof.Machine

/-- The factor `1 + 0.1 * 10^(g/20)`, in the operation order of R148. -/
def bassFactor (num : Config.Numerics) (g : Fmt) : Fmt :=
  let q := Fp.div g Fp.twenty
  let lin := tPow10 num q
  let p := Fp.mul Config.bassCoef lin
  Fp.add Fp.one p

/-- The BASS stage (R150); for `g <= 0` the block is unchanged and the draw is not consulted (R146). -/
def bassStage (num : Config.Numerics) (xf3 : Bool) (x : List Fmt) (g : Fmt) : StageOut (List Fmt) :=
  if Fp.le g 0#32 then completed x
  else if xf3 || !x.all Fp.finite then softFail x
  else
    let f := bassFactor num g
    if !Fp.finite f then softFail x
    else
      let y := x.map fun v => Fp.mul v f
      if !y.all Fp.finite then softFail x else completed y

end Sys2Proof.Machine
end

