-- ==== Sys2Proof/Machine/Dynamics.lean ====
section
/-! DEFINITION. Stages 1 and 2 of PROCESS: the compressor and the limiter (41_dynamics.md R130 to R141). Both are
functions of the sample alone: no envelope is kept (R134; C1). -/

namespace Sys2Proof.Machine

/-- The compressor on one sample, in the operation order of R132. -/
def compSample (thr ratio x : Fmt) : Fmt :=
  let e := Fp.abs x
  if Fp.lt thr e then
    let ex := Fp.sub e thr
    let ce := Fp.div ex ratio
    let m := Fp.add thr ce
    Fp.copysign m x
  else x

/-- The COMP stage (R136). -/
def compStage (xf1 : Bool) (x : List Fmt) (thr ratio : Fmt) : StageOut (List Fmt) :=
  if xf1 || !x.all Fp.finite then softFail x
  else
    let y := x.map (compSample thr ratio)
    if !y.all Fp.finite then softFail x else completed y

/-- The limiter on one sample (R139): `C` above `C`, `-C` below `-C`, else the sample bit for bit. DESIGN CHOICE (log
28): for `CEIL = -0.0` the answers are the register value and its negation, as R139 says, so -0.0 above and +0.0 below;
the corner case `C = 0` of R141, which gives +0.0 above and -0.0 below, is taken as speaking of `CEIL = +0.0`. -/
def limSample (c x : Fmt) : Fmt :=
  if Fp.lt c x then c else if Fp.lt x (Fp.neg c) then Fp.neg c else x

/-- The LIM stage (R140, R141). -/
def limStage (xf2 : Bool) (x : List Fmt) (c : Fmt) : StageOut (List Fmt) :=
  if xf2 || x.any Fp.isNaN then softFail x else completed (x.map (limSample c))

end Sys2Proof.Machine
end

