-- ==== Sys2Proof/Machine/Equalizer.lean ====
section
/-! DEFINITION. Stage 0 of PROCESS: the equalizer (40_equalizer.md R110 to R122). -/

namespace Sys2Proof.Machine

/-- Whether some band gain is non-zero; both zero signs count as zero (R114, R19). -/
def someGain (g : Vector Fmt 31) : Bool := g.toList.any fun x => !Fp.isZero x

/-- A complex bin times a real gain: both parts, each one class R product (R117). -/
def Cplx.scale (z : Cplx) (lin : Fmt) : Cplx := { re := Fp.mul z.re lin, im := Fp.mul z.im lin }

/-- The gain of band `b` on the bins (R117, R120): none for a zero gain; else its bin and, when the bin is not 0,
the counterpart bin are multiplied by `10^(gain/20)`. -/
def eqBand (num : Config.Numerics) (g : Vector Fmt 31) (sr : Nat) (bins : List Cplx) (b : Nat) : List Cplx :=
  let gain := g[b]?.getD 0#32
  if Fp.isZero gain then bins
  else
    let k := nearestBin (Config.band b) sr
    let lin := tPow10 num (Fp.div gain Fp.twenty)
    let bins := bins.modify k fun z => Cplx.scale z lin
    if k = 0 then bins else bins.modify (512 - k) fun z => Cplx.scale z lin

/-- The 512 bins of the segment after all 31 bands, in band order (R116, R117). -/
def eqBins (num : Config.Numerics) (x : List Fmt) (g : Vector Fmt 31) (sr : Nat) : List Cplx :=
  (List.range Config.nbands).foldl (eqBand num g sr) ((List.range Config.nfft).map (tDft num (x.take Config.nfft)))

/-- The segment back in the time domain, real parts (R118). -/
def eqSegment (num : Config.Numerics) (x : List Fmt) (g : Vector Fmt 31) (sr : Nat) : List Fmt :=
  (List.range Config.nfft).map fun n => (tIdft num (eqBins num x g sr) n).re

/-- The EQ stage on block `x` with gains `g`, rate `sr` and injected fault `xf0` (R122): the fast path (R114), the
short block (R115), the soft failures (R121), and the shaped segment spliced before the untouched rest (R118). -/
def eqStage (num : Config.Numerics) (xf0 : Bool) (x : List Fmt) (g : Vector Fmt 31) (sr : Nat) : StageOut (List Fmt) :=
  if !someGain g then completed x
  else if x.length < Config.nfft then completed x
  else if sr = 0 ∨ xf0 = true then softFail x
  else if !(x.take Config.nfft).all Fp.finite then softFail x
  else
    let t := eqSegment num x g sr
    if !t.all Fp.finite then softFail x else completed (t ++ x.drop Config.nfft)

end Sys2Proof.Machine
end

