-- ==== Sys2Proof/Machine/Meter.lean ====
section
/-! DEFINITION. Stage 5 of PROCESS: the level meter (44_level_meter.md R170 to R176). -/

namespace Sys2Proof.Machine

/-- The Level History: HRMS and HPEAK (R40). -/
structure Levels where
  hrms : List Fmt
  hpeak : List Fmt
deriving DecidableEq, Repr

/-- `peak = max |x[n]|` (R172, R176). -/
def peakOf (x : List Fmt) : Fmt := x.foldl (fun p v => Fp.max p (Fp.abs v)) 0#32

/-- The MET stage (R176): one entry to each history, or neither (R174). -/
def metStage (num : Config.Numerics) (xf5 : Bool) (x : List Fmt) (old : Levels) : StageOut Levels :=
  if x.isEmpty || xf5 then softFail old
  else if !x.all Fp.finite then softFail old
  else
    let r := tRms num x
    let p := peakOf x
    if !Fp.finite r then softFail old
    else completed { hrms := histAppend old.hrms r, hpeak := histAppend old.hpeak p }

end Sys2Proof.Machine
end

