-- ==== Sys2Proof/Machine/Engine.lean ====
section
/-! DEFINITION. The engine commands START, STOP and PROCESS (45_engine_process.md R180 to R191). -/

namespace Sys2Proof.Machine

/-- START (R181): `ENG <- 1`, nothing else. -/
def execStart (s : State) : Outcome := .next { s with eng := .active }

/-- STOP (R182): `ENG <- 0`, nothing else. -/
def execStop (s : State) : Outcome := .next { s with eng := .idle }

/-- What the audio chain answers: the processed block and the failures of stages 0 to 3 (R186). -/
structure ChainOut where
  block : List Fmt
  f0 : Bool
  f1 : Bool
  f2 : Bool
  f3 : Bool
deriving DecidableEq, Repr

/-- The audio chain on block `x` (R186) with the parameters of `s`, all read at this one instant (R43, R185): EQ
always, COMP and LIM each when enabled, BASS when its gain is above 0. Each stage takes the previous stage's
result. -/
def audioChain (num : Config.Numerics) (xf : BitVec 6) (s : State) (x : List Fmt) (sr : Nat) : ChainOut :=
  let b1 := eqStage num (injected xf 0) x s.eqg sr
  let b2 := if s.compEn then compStage (injected xf 1) b1.value s.thr s.ratio else completed b1.value
  let b3 := if s.limEn then limStage (injected xf 2) b2.value s.ceil else completed b2.value
  let b4 := if Fp.lt 0#32 s.bass then bassStage num (injected xf 3) b3.value s.bass else completed b3.value
  { block := b4.value, f0 := b1.failed, f1 := b2.failed, f2 := b3.failed, f3 := b4.failed }

/-- The snapshot after the block `x` (R187). -/
def analyzed (num : Config.Numerics) (xf : BitVec 6) (x : List Fmt) (sr : Nat) (s : State) : StageOut Snapshot :=
  anaStage num (injected xf 4) x sr { spec := s.spec, blev := s.blev }

/-- The histories after the block `x` (R187). -/
def metered (num : Config.Numerics) (xf : BitVec 6) (x : List Fmt) (s : State) : StageOut Levels :=
  metStage num (injected xf 5) x { hrms := s.hrms, hpeak := s.hpeak }

/-- The failures of the six stages, `{f5, ..., f0}` (R189). -/
def stageFailures (num : Config.Numerics) (xf : BitVec 6) (x : List Fmt) (sr : Nat) (s : State) : BitVec 6 :=
  let c := audioChain num xf s x sr
  failBits c.f0 c.f1 c.f2 c.f3 (analyzed num xf x sr s).failed (metered num xf x s).failed

/-- The commit of a PROCESS (R190): the telemetry, the tracked rate (R188) and the failure log, together. -/
def commitBlock (num : Config.Numerics) (xf : BitVec 6) (x : List Fmt) (sr : Nat) (s : State) : State :=
  { s with
    spec := (analyzed num xf x sr s).value.spec, blev := (analyzed num xf x sr s).value.blev
    hrms := (metered num xf x s).value.hrms, hpeak := (metered num xf x s).value.hpeak
    sr := BitVec.ofNat 32 sr
    flt := logFailures s.flt (stageFailures num xf x sr s) }

/-- PROCESS in the Active state on the block `x` already read (R185 to R191), with the `Numerics` record and the
fault draw as arguments: the chain, the telemetry on the input block (R187), then one commit with the response. -/
def processActive (num : Config.Numerics) (xf : BitVec 6) (x : List Fmt) (sr : Nat) (s : State) : State :=
  (commitBlock num xf x sr s).respond 0x03#8 (ranStatus (stageFailures num xf x sr s)) (audioChain num xf s x sr).block

/-- PROCESS ignored in the Idle state (R184): the header alone, IGN. -/
def processIdle (s : State) : State := s.respond 0x03#8 ignStatus []

/-- After a PROCESS that ran, the next fault draw (R242; log 7). -/
def State.redraw (s : State) : State := { s with xf := Config.xfDraw s.draws, draws := s.draws + 1 }

/-- PROCESS n, sr (R183, R184, R191): the `n` data words are read in either engine state. While they are not all
there the command has not executed (R78, R98; log 12). -/
def execProcess (n sr : Nat) (s : State) : Outcome :=
  if s.dinHolds n then
    match s.eng with
    | .idle => .next (processIdle (s.dinDrop n))
    | .active => .next (processActive Config.numerics s.xf (s.dinWords n) sr (s.dinDrop n)).redraw
  else .next s

end Sys2Proof.Machine
end

