-- ==== Sys2Proof/Machine/Params.lean ====
section
/-! DEFINITION. The parameter commands SETEQ, SETCH, SETDYN, SETBASS, SETDYNP, CFGLOAD
(46_parameter_commands.md R200 to R208). None responds, none fails. -/

namespace Sys2Proof.Machine

/-- SETEQ i, g (R202). -/
def execSeteq (i : Nat) (g : Word) (s : State) : Outcome := .next (s.applyEqGain i g)

/-- SETCH ch, par, val (R203). -/
def execSetch (ch par : Nat) (val : Word) (s : State) : Outcome := .next (s.applyChannel ch par val)

/-- SETDYN comp, lim (R204): both flags, always. -/
def execSetdyn (comp lim : Bool) (s : State) : Outcome := .next { s with compEn := comp, limEn := lim }

/-- SETBASS g (R205): no clamp; a NaN is ignored (R201). -/
def execSetbass (g : Word) (s : State) : Outcome := .next (if Fp.isNaN g then s else { s with bass := g })

/-- SETDYNP sel, val (R206): the threshold, the ratio or the ceiling, clamped; a NaN or a selector above 2 is
ignored. -/
def execSetdynp (sel : Nat) (val : Word) (s : State) : Outcome :=
  .next (if Fp.isNaN val then s
    else match sel with
      | 0 => { s with thr := clampThr val }
      | 1 => { s with ratio := clampRatio val }
      | 2 => { s with ceil := clampCeil val }
      | _ => s)

/-- CFGLOAD (R207): three mask words and the 79-word record, the present fields in ascending order. While the 82
words are not all there the command has not executed (R78, R98; log 12). -/
def execCfgload (s : State) : Outcome :=
  if s.dinHolds 82 then
    let d := s.dinWords 82
    .next ((List.range Config.nrecord).foldl (State.loadField (d.take 3) (d.drop 3)) (s.dinDrop 82))
  else .next s

end Sys2Proof.Machine
end

