-- ==== Sys2Proof/Machine/Telemetry.lean ====
section
/-! DEFINITION. The accessors GETSNAP, GETLEVELS, GETHIST, GETSTAT, CFGSAVE, the command NOP
(47_telemetry_commands.md R220 to R227), and the effect of a reserved opcode (R93). An accessor writes nothing but
its response. -/

namespace Sys2Proof.Machine

/-- NOP (R226). -/
def execNop (s : State) : Outcome := .next s

/-- GETSNAP (R221): the spectrum, then the band levels. -/
def execGetsnap (s : State) : Outcome := .next (s.respond 0x20#8 0x00#8 (s.spec.toList ++ s.blev.toList))

/-- GETLEVELS (R222, R42): the newest entry of each history, or zeros. -/
def execGetlevels (s : State) : Outcome :=
  .next (s.respond 0x21#8 0x00#8
    (if s.hrms.isEmpty then [0#32, 0#32] else [s.hrms.getLastD 0#32, s.hpeak.getLastD 0#32]))

/-- The history a selector names (R91, R223). -/
def State.history (s : State) (sel : Nat) : List Fmt :=
  match sel with
  | 0 => s.hrms
  | 1 => s.hpeak
  | _ => []

/-- GETHIST sel (R223). -/
def execGethist (sel : Nat) (s : State) : Outcome := .next (s.respond 0x22#8 0x00#8 (s.history sel))

/-- GETSTAT (R224). -/
def execGetstat (s : State) : Outcome :=
  .next (s.respond 0x23#8 0x00#8
    [statusWord s.eng s.compEn s.limEn s.flt, s.sr, s.thr, s.ratio, s.ceil, s.bass, BitVec.ofNat 32 s.hrms.length])

/-- CFGSAVE (R225). -/
def execCfgsave (s : State) : Outcome := .next (s.respond 0x30#8 0x00#8 s.record)

/-- A command word with a reserved opcode (R93): FLT[6] set, nothing else. -/
def execReserved (s : State) : Outcome := .next { s with flt := logBadCmd s.flt }

end Sys2Proof.Machine
end

