-- ==== Sys2Proof/Machine/Dispatch.lean ====
section
/-! DEFINITION. From a command to its meaning, one arm per constructor of `Instr`. -/

namespace Sys2Proof.Machine

/-- Executing command `i`, whose word has been taken from the command stream of port `s.cur`. -/
def exec (i : Instr) (s : State) : Host.Outcome State Fault Refusal :=
  match i with
  | .nop => Sys2Proof.Machine.execNop s
  | .start => Sys2Proof.Machine.execStart s
  | .stop => Sys2Proof.Machine.execStop s
  | .process n sr => Sys2Proof.Machine.execProcess n sr s
  | .seteq k g => Sys2Proof.Machine.execSeteq k g s
  | .setch ch par val => Sys2Proof.Machine.execSetch ch par val s
  | .setdyn comp lim => Sys2Proof.Machine.execSetdyn comp lim s
  | .setbass g => Sys2Proof.Machine.execSetbass g s
  | .setdynp sel val => Sys2Proof.Machine.execSetdynp sel val s
  | .getsnap => Sys2Proof.Machine.execGetsnap s
  | .getlevels => Sys2Proof.Machine.execGetlevels s
  | .gethist sel => Sys2Proof.Machine.execGethist sel s
  | .getstat => Sys2Proof.Machine.execGetstat s
  | .cfgsave => Sys2Proof.Machine.execCfgsave s
  | .cfgload => Sys2Proof.Machine.execCfgload s

end Sys2Proof.Machine
end

