-- ==== Sys2Proof/Machine/Step.lean ====
section
/-! DEFINITION. One step of the engine: the arbiter picks a port, its head command is taken and executed as one
atomic unit (R70, R71, R98). -/

namespace Sys2Proof.Machine

/-- Executing the command word `w` that has just been taken (R98): its command, or the effect of a reserved opcode
(R93). -/
def execWord (w : Cmd) (s : State) : Host.Outcome State Fault Refusal :=
  match decode w with
  | .ok i => exec i s
  | .error _ => execReserved s

/-- One step. While RST is asserted the engine stays in its reset state (R270, R272; log 14). When no port has a
command it can execute the engine waits and nothing changes (R78; log 11). Else the arbiter's pick is executed. -/
def step (s : State) : Host.Outcome State Fault Refusal :=
  if s.rst then .next { State.reset with rst := true }
  else
    match s.pick with
    | none => .next s
    | some p => execWord (s.headWord p) (s.take p)

/-- Word `j` of the 32-bit data words that follow the command word's 64 bits in `w`. -/
def dataWordOf (w j : Nat) : Word := BitVec.ofNat 32 (w / 2 ^ (64 + 32 * j))

/-- `s` with a command as the one the next step executes: its word at the head of CMD of port P, the data words it
takes (zeros, above `nbits`) at the head of DIN of port P, port P first in the arbiter's order, and RST released
(log 2). -/
def State.withFetchWord (s : State) (nbits w : Nat) : State :=
  let w := w % 2 ^ nbits
  let c : Cmd := BitVec.ofNat 64 w
  let data := (List.range (wordsNeeded c)).map (dataWordOf w)
  { s with
    portP := { s.portP with cmd := c :: s.portP.cmd, din := data ++ s.portP.din, due := 0 }
    rst := false }

end Sys2Proof.Machine
end

