-- ==== Sys2Proof/Machine/Ring.lean ====
section
/-! DEFINITION. The circular-buffer realisation of one level history that R41 describes: 100 entries, a write index
HW and a count HC. It is no state of the engine (HW and HC are not visible); it is stated here so that it can be
proved to refine the sequence of R40 that State holds. -/

namespace Sys2Proof.Machine

/-- A 100-entry memory with write index and count (R41). -/
structure HistoryRing where
  mem : Vector Fmt 100
  hw : Nat
  hc : Nat
deriving DecidableEq, Repr

/-- HW in `0..99`, HC in `0..100` (R41). -/
def HistoryRing.legal (r : HistoryRing) : Bool := decide (r.hw < 100) && decide (r.hc ≤ 100)

/-- Append: write at HW, advance HW modulo 100, count up to 100 (R41). -/
def HistoryRing.push (r : HistoryRing) (v : Fmt) : HistoryRing :=
  { mem := r.mem.setIfInBounds r.hw v, hw := (r.hw + 1) % 100, hc := Nat.min (r.hc + 1) 100 }

/-- The place of the entry of age position `i` (0 the oldest): the oldest is at `(HW - HC) mod 100` (R41). -/
def HistoryRing.place (r : HistoryRing) (i : Nat) : Nat := (r.hw + 100 - r.hc + i) % 100

/-- The entries in age order: the sequence of R40. Every place is below 100, inside the memory, so the
default of `getD` is never the answer. -/
def HistoryRing.contents (r : HistoryRing) : List Fmt := (List.range r.hc).map fun i => r.mem[r.place i]?.getD 0#32

/-- An empty ring. DESIGN CHOICE (log 27): R41 gives no HW for an empty history and calls the entries beyond HC
unspecified; the write index 0 and the 100 entries +0.0 are the model's, and no content of any ring depends on them. -/
def HistoryRing.empty : HistoryRing := { mem := Vector.replicate 100 0#32, hw := 0, hc := 0 }

end Sys2Proof.Machine
end

