-- ==== Sys2Proof/Machine/Env.lean ====
section
/-! DEFINITION. What the environment can do between two steps (R61, R75, R242, R257, R270 to R273; log 14, 15): the
requesters issue commands, supply data and take responses; RST is asserted and released; a fault draw is chosen. -/

namespace Sys2Proof.Machine

/-- An action of the environment. -/
inductive EnvAction where
  /-- A requester issues a command word on port `p` (R61). -/
  | issue (p : Port) (w : Cmd)
  /-- A requester supplies data words on port `p` (R61). -/
  | supply (p : Port) (ws : List Word)
  /-- A requester takes the oldest `n` words of DOUT of port `p` (R61, R78). -/
  | takeDout (p : Port) (n : Nat)
  /-- The environment chooses the fault draw of the next PROCESS that runs (R242). -/
  | drawXf (v : BitVec 6)
  /-- RST is asserted (R270). -/
  | assertReset
  /-- RST is released (R273). -/
  | releaseReset
deriving DecidableEq, Repr

/-- The state after an action. Words presented while RST is asserted are discarded (R272; log 14). -/
def EnvAction.apply (a : EnvAction) (s : State) : State :=
  match a with
  | .issue p w => if s.rst then s else s.setPort p { s.port p with cmd := (s.port p).cmd ++ [w] }
  | .supply p ws => if s.rst then s else s.setPort p { s.port p with din := (s.port p).din ++ ws }
  | .takeDout p n => s.setPort p { s.port p with dout := (s.port p).dout.drop n }
  | .drawXf v => { s with xf := v }
  | .assertReset => { State.reset with rst := true }
  | .releaseReset => { s with rst := false }

end Sys2Proof.Machine
end

