-- ==== Sys2Proof/Safety.lean ====
section
/-! DEFINITION. What claims are stated in: legal register values, the invariant of the engine, the states that can be
reached, and which state two states share. -/

namespace Sys2Proof.Machine

/-! Legal values (R22, R27, R28, R25, R38 to R40). -/

/-- A legal band gain: not NaN, in [-12, 12] (R22). -/
def legalGain (g : Fmt) : Bool := Fp.le Config.gainMin g && Fp.le g Config.gainMax

/-- A legal threshold: not NaN, `>= 0` (R27). -/
def legalThr (x : Fmt) : Bool := Fp.le 0#32 x

/-- A legal ratio: not NaN, `>= 1` (R27). -/
def legalRatio (x : Fmt) : Bool := Fp.le Fp.one x

/-- A legal ceiling: not NaN, in [0, 1] (R27). -/
def legalCeil (x : Fmt) : Bool := Fp.le 0#32 x && Fp.le x Config.ceilMax

/-- A legal telemetry magnitude or level entry: finite and of sign + (R38, R171, R172). -/
def legalMagnitude (x : Fmt) : Bool := Fp.finite x && !Fp.sign x

/-- A legal boolean channel word: 0 or 1 (R25). -/
def legalBoolean (w : Word) : Bool := decide (w = 0#32 ∨ w = 1#32)

/-- The invariant of the engine's registers and telemetry. -/
structure State.Inv (s : State) : Prop where
  /-- R22. -/
  gains : ∀ g ∈ s.eqg.toList, legalGain g = true
  /-- R25: bits 31:1 of mute and bypass are zero. -/
  booleans : ∀ c < 6, legalBoolean (s.chWord c 6) = true ∧ legalBoolean (s.chWord c 7) = true
  /-- R27. -/
  threshold : legalThr s.thr = true
  /-- R27. -/
  ratio : legalRatio s.ratio = true
  /-- R27. -/
  ceiling : legalCeil s.ceil = true
  /-- R28. -/
  bass : Fp.isNaN s.bass = false
  /-- R38, R165: a committed spectrum is finite and non-negative. -/
  spectrum : ∀ m ∈ s.spec.toList, legalMagnitude m = true
  /-- R165: a committed level is finite. -/
  levels : ∀ l ∈ s.blev.toList, Fp.finite l = true
  /-- R39, R164: band 30 holds +0.0 for ever. -/
  lastBand : s.blev[30]?.getD 0#32 = 0#32
  /-- R40: the histories have one length. -/
  sameLength : s.hrms.length = s.hpeak.length
  /-- R40: at most 100 entries. -/
  bounded : s.hrms.length ≤ Config.histcap
  /-- R171, R174. -/
  rmsEntries : ∀ v ∈ s.hrms, legalMagnitude v = true
  /-- R172, R174. -/
  peakEntries : ∀ v ∈ s.hpeak, legalMagnitude v = true

/-- The states an engine can be in: reset, what steps lead to, and what the environment does between steps. -/
inductive Reachable : State → Prop where
  | reset : Reachable State.reset
  | step {s t : State} : Reachable s → step s = .next t → Reachable t
  | env {s : State} (a : EnvAction) : Reachable s → Reachable (a.apply s)

/-! What two states share. -/

/-- The same parameter registers (R30): what PROCESS reads and never writes, with the unused time constants. -/
structure SameParams (s t : State) : Prop where
  eqg : t.eqg = s.eqg
  ch : t.ch = s.ch
  compEn : t.compEn = s.compEn
  limEn : t.limEn = s.limEn
  thr : t.thr = s.thr
  ratio : t.ratio = s.ratio
  ceil : t.ceil = s.ceil
  bass : t.bass = s.bass
  attackTc : t.attackTc = s.attackTc
  releaseTc : t.releaseTc = s.releaseTc

/-- The same telemetry: snapshot, histories and tracked rate (R33, R38 to R40). -/
structure SameTelemetry (s t : State) : Prop where
  spec : t.spec = s.spec
  blev : t.blev = s.blev
  hrms : t.hrms = s.hrms
  hpeak : t.hpeak = s.hpeak
  sr : t.sr = s.sr

/-- The same engine state and soft-failure log (R31, R34). -/
structure SameControl (s t : State) : Prop where
  eng : t.eng = s.eng
  flt : t.flt = s.flt

/-- The same streams on every port, and the same executing port. -/
structure SameStreams (s t : State) : Prop where
  cur : t.cur = s.cur
  cmd : ∀ p, (t.port p).cmd = (s.port p).cmd
  din : ∀ p, (t.port p).din = (s.port p).din
  dout : ∀ p, (t.port p).dout = (s.port p).dout

/-- The same inputs from outside the command streams, and the same arbiter. -/
structure SameInputs (s t : State) : Prop where
  rst : t.rst = s.rst
  xf : t.xf = s.xf
  draws : t.draws = s.draws
  turn : t.turn = s.turn
  due : ∀ p, (t.port p).due = (s.port p).due

/-- Everything of the streams except that the executing port's DIN lost its first `n` words and its DOUT was
extended by `ws`. -/
structure Streamed (s t : State) (n : Nat) (ws : List Word) : Prop where
  cur : t.cur = s.cur
  cmd : ∀ p, (t.port p).cmd = (s.port p).cmd
  din : ∀ p, (t.port p).din = if p = s.cur then (s.port p).din.drop n else (s.port p).din
  dout : ∀ p, (t.port p).dout = if p = s.cur then (s.port p).dout ++ ws else (s.port p).dout

/-! Vocabulary of the encoding and of the responses. -/

/-- The opcodes R93 lists as reserved: `0x04..0x0F`, `0x15..0x1F`, `0x24..0x2F`, `0x32..0xFF`. -/
def reservedOp (op : BitVec 8) : Bool :=
  decide (0x04 ≤ op.toNat ∧ op.toNat ≤ 0x0F ∨ 0x15 ≤ op.toNat ∧ op.toNat ≤ 0x1F ∨
    0x24 ≤ op.toNat ∧ op.toNat ≤ 0x2F ∨ 0x32 ≤ op.toNat)

/-- The bits of a command word that its command uses: `op`, and the fields R81 lists for the opcode (of `fl` only
bits 32 and 33, R89). -/
def usedMask (op : BitVec 8) : Cmd :=
  if op = 0x03#8 then 0xFFFFFF00FFFFFFFF#64
  else if op = 0x10#8 then 0xFFFF0000FFFFFFFF#64
  else if op = 0x11#8 then 0xFFFFFF00FFFFFFFF#64
  else if op = 0x12#8 then 0xFF00000300000000#64
  else if op = 0x13#8 then 0xFF000000FFFFFFFF#64
  else if op = 0x14#8 then 0xFF00FF00FFFFFFFF#64
  else if op = 0x22#8 then 0xFFFF000000000000#64
  else 0xFF00000000000000#64

/-- The commands that produce exactly one response (R83). -/
def responds : Instr → Bool
  | .process _ _ => true
  | .getsnap => true
  | .getlevels => true
  | .gethist _ => true
  | .getstat => true
  | .cfgsave => true
  | .nop => false
  | .start => false
  | .stop => false
  | .seteq _ _ => false
  | .setch _ _ _ => false
  | .setdyn _ _ => false
  | .setbass _ => false
  | .setdynp _ _ => false
  | .cfgload => false

/-- The accessors (R220). -/
def accessor (i : Instr) : Bool := responds i && (match i with | .process _ _ => false | _ => true)

/-- The mutators of R68 that issue no data: twice in a row is once. -/
def idempotent (i : Instr) : Bool := !responds i && decide (i ≠ .cfgload)

/-- A PROCESS that runs: the command word is a PROCESS and the engine is Active. -/
def runsBlock (w : Cmd) (s : State) : Prop := (∃ n sr, decode w = .ok (.process n sr)) ∧ s.eng = .active

/-- The state with other choices of the arbiter pending. -/
def State.withDues (s : State) (dp dc dd : Nat) : State :=
  { s with portP := { s.portP with due := dp }, portC := { s.portC with due := dc }, portD := { s.portD with due := dd } }

/-- No block has been processed: telemetry and stage failures are as after reset (R274). -/
structure State.NoBlock (s : State) : Prop where
  spec : s.spec = Vector.replicate 256 0#32
  blev : s.blev = Vector.replicate 31 0#32
  hrms : s.hrms = []
  hpeak : s.hpeak = []
  sr : s.sr = 0#32
  flt : ∀ k < 6, s.flt.getLsbD k = false

end Sys2Proof.Machine
end

