-- ==== Sys2Proof/Certificates/Slice0/Obligations.lean ====
section
/-! DEFINITION. The statements about the engine, for the provers. Each formalises rules of spec/ that its docstring
names; nothing is proved here. -/

open Sys2Proof Sys2Proof.Machine

/-! Encoding. -/

/-- R103: the worked encodings decode to the commands they stand for. -/
def Obligations.WorkedEncodingsDecode : Prop :=
  decode 0x0100000000000000#64 = .ok .start ∧ decode 0x0200000000000000#64 = .ok .stop ∧
  decode 0x030200000000AC44#64 = .ok (.process 512 44100) ∧ decode 0x030400000000BB80#64 = .ok (.process 1024 48000) ∧
  decode 0x1005000040C00000#64 = .ok (.seteq 5 0x40C00000#32) ∧
  decode 0x101F000040A00000#64 = .ok (.seteq 31 0x40A00000#32) ∧
  decode 0x110401003F000000#64 = .ok (.setch 4 1 0x3F000000#32) ∧
  decode 0x1100060000000001#64 = .ok (.setch 0 6 1#32) ∧ decode 0x1200000200000000#64 = .ok (.setdyn false true) ∧
  decode 0x1200000300000000#64 = .ok (.setdyn true true) ∧ decode 0x1300000040C00000#64 = .ok (.setbass 0x40C00000#32) ∧
  decode 0x140002003F733333#64 = .ok (.setdynp 2 0x3F733333#32) ∧ decode 0x2000000000000000#64 = .ok .getsnap ∧
  decode 0x2100000000000000#64 = .ok .getlevels ∧ decode 0x2201000000000000#64 = .ok (.gethist 1) ∧
  decode 0x2300000000000000#64 = .ok .getstat ∧ decode 0x3000000000000000#64 = .ok .cfgsave ∧
  decode 0x3100000000000000#64 = .ok .cfgload

/-- R80, R81, R86: decoding the encoding of a well-formed command gives the command back, every operand at every
value its field admits. -/
def Obligations.DecodeEncodeRoundTrip : Prop := ∀ i : Instr, i.wf = true → decode (encode i) = .ok i

/-- R64, R80: the same over a byte stream, least significant byte first, with the following bytes left over. -/
def Obligations.ByteStreamRoundTrip : Prop :=
  ∀ (i : Instr) (rest : List Byte), i.wf = true → decodeBytes (encodeBytes i ++ rest) = .ok (i, rest)

/-- R93, R98: every word either decodes to a well-formed command with the word's opcode, or carries one of the
reserved opcodes and is rejected by it; and it is rejected for exactly those opcodes. -/
def Obligations.DecodeTotalAndReservedExact : Prop :=
  ∀ w : Cmd,
    (reservedOp (fieldOp w) = true → decode w = .error (.reservedOpcode (fieldOp w))) ∧
    (reservedOp (fieldOp w) = false → ∃ i, decode w = .ok i ∧ i.wf = true ∧ i.opcode = fieldOp w)

/-- R94: a field R81 does not list is ignored: clearing every bit the command does not use changes neither the
command nor its effect, and FLT[6] is not set. -/
def Obligations.ReservedFieldsIgnored : Prop :=
  ∀ w : Cmd, reservedOp (fieldOp w) = false →
    decode (w &&& usedMask (fieldOp w)) = decode w ∧
    ∀ s : State, ∃ t, execWord w s = .next t ∧ execWord (w &&& usedMask (fieldOp w)) s = .next t ∧
      t.flt.getLsbD 6 = s.flt.getLsbD 6

/-- R80, R81, R94: the other direction: encoding what a word decodes to gives the word, less the bits its command
does not use. -/
def Obligations.EncodeOfDecode : Prop :=
  ∀ (w : Cmd) (i : Instr), decode w = .ok i → encode i = w &&& usedMask (fieldOp w)

/-! Reset, the step and the arbiter. -/

/-- R44: the state after reset, entry by entry of the rule's table; of the channel words only the structural limit
of R29 is known, of ATTACK_TC and RELEASE_TC nothing. -/
def Obligations.ResetState : Prop :=
  Config.bandTable = [20, 25, 31, 40, 50, 63, 80, 100, 125, 160, 200, 250, 315, 400, 500, 630, 800, 1000, 1250, 1600,
    2000, 2500, 3150, 4000, 5000, 6300, 8000, 10000, 12500, 16000, 20000] ∧
  (∀ i < 31, State.reset.eqGain i = 0#32) ∧
  (∀ c < 6, legalBoolean (State.reset.chWord c 6) = true ∧ legalBoolean (State.reset.chWord c 7) = true) ∧
  State.reset.compEn = false ∧ State.reset.limEn = false ∧ State.reset.thr = 0x3F333333#32 ∧
  State.reset.ratio = 0x40800000#32 ∧ State.reset.ceil = 0x3F733333#32 ∧ State.reset.bass = 0#32 ∧
  State.reset.eng = .idle ∧ State.reset.sr = 0#32 ∧ State.reset.flt = 0#7 ∧
  (∀ k < 256, State.reset.spec[k]? = some 0#32) ∧ (∀ i < 31, State.reset.blev[i]? = some 0#32) ∧
  State.reset.hrms = [] ∧ State.reset.hpeak = [] ∧
  ∀ p : Port, (State.reset.port p).din = [] ∧ (State.reset.port p).dout = []

/-- R270, R272: asserting RST discards everything: all nine streams are empty, whatever came before; it stays so,
whatever is presented, until RST is released. That words presented under RST are lost is the model's choice (log 14).
So is the equality of the last clause, that EVERY release leaves the one state `State.reset`: it gives every reset the
same channel words, ATTACK_TC and RELEASE_TC, the same first fault draw and first arbiter choices, and starts the
model's own fields anew (log 7 to 10, 13, 14). The spec gives those values for no reset and does not say that two
resets agree on them. -/
def Obligations.ResetDiscardsEverything : Prop :=
  ∀ (s : State) (p : Port) (w : Cmd) (ws : List Word),
    let r := EnvAction.assertReset.apply s
    (∀ q : Port, (r.port q).cmd = [] ∧ (r.port q).din = [] ∧ (r.port q).dout = []) ∧
    step r = .next r ∧ (EnvAction.issue p w).apply r = r ∧ (EnvAction.supply p ws).apply r = r ∧
    EnvAction.releaseReset.apply r = State.reset

/-- R70, R71, R98: when the arbiter's pick has a command at its head, one step takes the word and its turn, and runs
the command on the state so taken; the other ports and all registers are as they were. -/
def Obligations.StepRunsDecoded : Prop :=
  ∀ (s : State) (p : Port) (i : Instr), s.rst = false → s.pick = some p → decode (s.headWord p) = .ok i →
    step s = exec i (s.take p) ∧ (s.take p).cur = p ∧
    (s.port p).cmd = s.headWord p :: ((s.take p).port p).cmd ∧
    ((s.take p).port p).din = (s.port p).din ∧ ((s.take p).port p).dout = (s.port p).dout ∧
    (∀ q, q ≠ p → (s.take p).port q = s.port q) ∧
    SameParams s (s.take p) ∧ SameTelemetry s (s.take p) ∧ SameControl s (s.take p) ∧
    (s.take p).rst = false ∧ (s.take p).xf = s.xf ∧ (s.take p).draws = s.draws ∧ (s.take p).turn = s.turn + 1

/-- R93: a reserved opcode at the head of the picked port is consumed, consumes no data words, produces no response,
changes no state except FLT[6] <- 1, and the port goes on to its next command. -/
def Obligations.ReservedOpcodeSetsBadCmd : Prop :=
  ∀ (s : State) (p : Port), s.rst = false → s.pick = some p → reservedOp (fieldOp (s.headWord p)) = true →
    ∃ t, step s = .next t ∧ (∀ k, t.flt.getLsbD k = if k = 6 then true else s.flt.getLsbD k) ∧
      t.eng = s.eng ∧ SameParams s t ∧ SameTelemetry s t ∧ (∀ q, q ≠ p → t.port q = s.port q) ∧
      (s.port p).cmd = s.headWord p :: (t.port p).cmd ∧ (t.port p).din = (s.port p).din ∧
      (t.port p).dout = (s.port p).dout ∧ t.rst = false ∧ t.xf = s.xf ∧ t.draws = s.draws

/-- R96, R253: no command word and no state stops the engine: every step answers a next state; and a port with a
command stalls only while its data-in words are missing. -/
def Obligations.EngineNeverStops : Prop :=
  (∀ s : State, ∃ t, step s = .next t) ∧
  ∀ (s : State) (p : Port) (w : Cmd) (rest : List Cmd), (s.port p).cmd = w :: rest →
    ((s.port p).ready = false ↔ (s.port p).din.length < wordsNeeded w)

/-- R71: the arbiter picks only a port whose CMD is not empty and whose DIN holds the words its head needs; it picks
one whenever there is one; and any such port can be the pick. Two clauses are the model's own: that a step with no pick
changes nothing is deduced (log 11), and that the choices the arbiter has pending are the numbers `withDues` sets is a
design choice (log 10). -/
def Obligations.ArbiterMayPickAnyReadyPort : Prop :=
  (∀ (s : State) (p : Port), s.pick = some p → (s.port p).ready = true) ∧
  (∀ s : State, s.pick = none → (∀ p, (s.port p).ready = false) ∧ (s.rst = false → step s = .next s)) ∧
  ∀ (s : State) (p : Port), (s.port p).ready = true → ∃ dp dc dd, (s.withDues dp dc dd).pick = some p

/-- R78: a command at the head of a port whose data words are present is executed after boundedly many steps,
whatever the other ports do. The bound is the model's own (log 10): the port's `due` and the turn count. -/
def Obligations.FairArbitration : Prop :=
  ∀ (s : State) (p : Port), s.rst = false → (s.port p).ready = true →
    ∃ k ≤ ((s.port p).due - s.turn) + 2, ∃ t, Host.Core.run Sys2Proof.core k s = .next t ∧
      t.pick = some p ∧ t.headWord p = s.headWord p

/-- R78, R290: a port whose head command lacks data words makes no step and holds every later command, whatever the
other ports do; and executing such a command by itself would wait with nothing changed (log 12). -/
def Obligations.StarvedPortHolds : Prop :=
  (∀ (s t : State) (p : Port) (w : Cmd) (rest : List Cmd), s.rst = false → (s.port p).cmd = w :: rest →
    (s.port p).din.length < wordsNeeded w → step s = .next t → (t.port p) = s.port p) ∧
  ∀ (s : State) (i : Instr), s.here.din.length < i.dataWords → exec i s = .next s

/-- R73, R79 (litmus): with one ready command on port P and one on port C, whatever they are, two steps execute both,
one whole command after the other, in one of the two orders; there is no third outcome. -/
def Obligations.TwoPortRace : Prop :=
  ∀ (s : State) (w1 w2 : Cmd), s.rst = false → s.portP.cmd = [w1] → s.portC.cmd = [w2] → s.portD.cmd = [] →
    wordsNeeded w1 ≤ s.portP.din.length → wordsNeeded w2 ≤ s.portC.din.length →
    ∃ t, Host.Core.run Sys2Proof.core 2 s = .next t ∧
      ((∃ a, execWord w1 (s.take .P) = .next a ∧ execWord w2 (a.take .C) = .next t) ∨
       (∃ a, execWord w2 (s.take .C) = .next a ∧ execWord w1 (a.take .P) = .next t))

/-- R63, R255: every command word has the same effect on every port: executed on two ports whose data-in words are the
same, it leaves the same registers and telemetry, takes as many words and answers the same words, each on its own
port. -/
def Obligations.AnyPortSameEffect : Prop :=
  ∀ (w : Cmd) (s : State) (p q : Port), (s.port p).din = (s.port q).din →
    ∃ t u n ws, execWord w { s with cur := p } = .next t ∧ execWord w { s with cur := q } = .next u ∧
      SameParams t u ∧ SameTelemetry t u ∧ SameControl t u ∧
      Streamed { s with cur := p } t n ws ∧ Streamed { s with cur := q } u n ws

/-! The invariant. -/

/-- R44 with R22, R25, R27, R28, R38 to R40: the invariant holds at reset. -/
def Obligations.ResetSatisfiesInvariant : Prop := State.reset.Inv

/-- R22, R25, R27, R28, R38 to R40, R164: every step keeps the invariant of the registers and the telemetry. -/
def Obligations.StepKeepsInvariant : Prop := ∀ s t : State, s.Inv → step s = .next t → t.Inv

/-- The same for everything the environment can do, so for every state an engine can reach, whatever commands and
data arrive, whenever RST is asserted and whatever faults are drawn. -/
def Obligations.ReachableInvariant : Prop := ∀ s : State, Reachable s → s.Inv

/-! Whole-machine rules. -/

/-- R31, R180: ENG is written by START and STOP only, over every command word. -/
def Obligations.EngChangedOnlyByStartStop : Prop :=
  ∀ (w : Cmd) (s : State), ∃ t, execWord w s = .next t ∧
    (decode w = .ok .start → t.eng = .active) ∧ (decode w = .ok .stop → t.eng = .idle) ∧
    (decode w ≠ .ok .start → decode w ≠ .ok .stop → t.eng = s.eng)

/-- R34: no command clears a bit of FLT; bits 0 to 5 are set only by a PROCESS that runs, bit 6 exactly by a reserved
opcode. -/
def Obligations.FltSticky : Prop :=
  ∀ (w : Cmd) (s : State), ∃ t, execWord w s = .next t ∧
    (∀ k, s.flt.getLsbD k = true → t.flt.getLsbD k = true) ∧
    (∀ k < 6, s.flt.getLsbD k = false → t.flt.getLsbD k = true → runsBlock w s) ∧
    (s.flt.getLsbD 6 = false → (t.flt.getLsbD 6 = true ↔ reservedOp (fieldOp w) = true))

/-- R33, R38, R39, R40, R68: SPEC, BLEV, both histories and SR are written only by a PROCESS in the Active state. -/
def Obligations.TelemetryWrittenOnlyByProcess : Prop :=
  ∀ (w : Cmd) (s : State), ¬ runsBlock w s → ∃ t, execWord w s = .next t ∧ SameTelemetry s t

/-- R22, R23, R26, R27, R28, R30: each parameter register is written only by the commands named for it. -/
def Obligations.ParametersWrittenOnlyByTheirCommands : Prop :=
  ∀ (w : Cmd) (s : State), ∃ t, execWord w s = .next t ∧
    (t.eqg ≠ s.eqg → decode w = .ok .cfgload ∨ ∃ i g, decode w = .ok (.seteq i g)) ∧
    (t.ch ≠ s.ch → decode w = .ok .cfgload ∨ ∃ c p v, decode w = .ok (.setch c p v)) ∧
    (t.compEn ≠ s.compEn ∨ t.limEn ≠ s.limEn → ∃ c l, decode w = .ok (.setdyn c l)) ∧
    (t.thr ≠ s.thr → ∃ v, decode w = .ok (.setdynp 0 v)) ∧
    (t.ratio ≠ s.ratio → ∃ v, decode w = .ok (.setdynp 1 v)) ∧
    (t.ceil ≠ s.ceil → ∃ v, decode w = .ok (.setdynp 2 v)) ∧
    (t.bass ≠ s.bass → ∃ g, decode w = .ok (.setbass g)) ∧
    t.attackTc = s.attackTc ∧ t.releaseTc = s.releaseTc

/-- R164: no command writes BLEV[30]. -/
def Obligations.LastBandNeverWritten : Prop :=
  ∀ (w : Cmd) (s : State), ∃ t, execWord w s = .next t ∧ t.blev[30]? = s.blev[30]?

/-- R82, R83, R84: in a state that meets the invariant, a well-formed command whose data words are present takes
exactly the words announced from DIN of its port and appends to DOUT nothing, or exactly one header with its payload;
no other stream changes; a reserved opcode takes and writes nothing. -/
def Obligations.CommandStreams : Prop :=
  (∀ (i : Instr) (s : State), i.wf = true → s.Inv → i.dataWords ≤ s.here.din.length →
    ∃ t ws, exec i s = .next t ∧ Streamed s t i.dataWords ws ∧
      (responds i = false → ws = []) ∧
      (responds i = true → ∃ (st : BitVec 8) (payload : List Word),
        ws = (i.opcode ++ st ++ BitVec.ofNat 16 payload.length) :: payload ∧ payload.length < 2 ^ 16 ∧
        (accessor i = true → st = 0#8))) ∧
  ∀ (w : Cmd) (s : State), reservedOp (fieldOp w) = true → ∃ t, execWord w s = .next t ∧ Streamed s t 0 []

/-! Accessors. -/

/-- R68, R220: an accessor writes nothing but its response, and repeated it gives the same response. -/
def Obligations.AccessorsWriteNothing : Prop :=
  ∀ (i : Instr) (s : State), accessor i = true → ∃ t u ws, exec i s = .next t ∧ exec i t = .next u ∧
    Streamed s t 0 ws ∧ Streamed t u 0 ws ∧
    SameParams s t ∧ SameTelemetry s t ∧ SameControl s t ∧ SameInputs s t

/-- R221: GETSNAP answers header 0x2000011F and 287 words, SPEC then BLEV; the last word is 0 in every state that
meets the invariant. -/
def Obligations.GetsnapResponse : Prop :=
  ∀ s : State, ∃ t payload, exec .getsnap s = .next t ∧ Streamed s t 0 (0x2000011F#32 :: payload) ∧
    payload.length = 287 ∧ (∀ k < 256, payload[k]? = s.spec[k]?) ∧ (∀ i < 31, payload[256 + i]? = s.blev[i]?) ∧
    (s.Inv → payload[286]? = some 0#32)

/-- R222: GETLEVELS answers header 0x21000002 and the newest entry of each history, zeros when they are empty. -/
def Obligations.GetlevelsResponse : Prop :=
  ∀ s : State, ∃ t r k, exec .getlevels s = .next t ∧ Streamed s t 0 [0x21000002#32, r, k] ∧
    (s.hrms = [] → r = 0#32 ∧ k = 0#32) ∧
    (∀ older v older' v', s.hrms = older ++ [v] → s.hpeak = older' ++ [v'] → r = v ∧ k = v')

/-- R223: GETHIST answers a header with the number of entries and the selected history, oldest first; for a selector
above 1 the header 0x22000000 alone. -/
def Obligations.GethistResponse : Prop :=
  ∀ (s : State) (sel : Nat), s.Inv → ∃ t h, exec (.gethist sel) s = .next t ∧
    Streamed s t 0 ((0x22000000#32 + BitVec.ofNat 32 h.length) :: h) ∧
    (sel = 0 → h = s.hrms) ∧ (sel = 1 → h = s.hpeak) ∧ (1 < sel → h = []) ∧ h.length ≤ 100

/-- R224: GETSTAT answers header 0x23000007 and seven words; the first one bit by bit. -/
def Obligations.GetstatResponse : Prop :=
  ∀ s : State, ∃ t w0, exec .getstat s = .next t ∧
    Streamed s t 0 [0x23000007#32, w0, s.sr, s.thr, s.ratio, s.ceil, s.bass, BitVec.ofNat 32 s.hrms.length] ∧
    (w0.getLsbD 0 = true ↔ s.eng = .active) ∧ w0.getLsbD 1 = s.compEn ∧ w0.getLsbD 2 = s.limEn ∧
    (∀ k, 3 ≤ k → k ≤ 7 → w0.getLsbD k = false) ∧ (∀ k < 7, w0.getLsbD (8 + k) = s.flt.getLsbD k) ∧
    ∀ k, 15 ≤ k → w0.getLsbD k = false

/-- R225, R227: CFGSAVE answers header 0x3000004F and the 79-word record: the 31 gains, then the eight words of each
channel. -/
def Obligations.CfgsaveResponse : Prop :=
  ∀ s : State, ∃ t r, exec .cfgsave s = .next t ∧ Streamed s t 0 (0x3000004F#32 :: r) ∧ r.length = 79 ∧
    (∀ i < 31, r[i]? = some (s.eqGain i)) ∧ ∀ c < 6, ∀ q < 8, r[31 + 8 * c + q]? = some (s.chWord c q)

/-! NOP, START, STOP and the mutators. -/

/-- R226, R181, R182: NOP changes nothing; START and STOP write ENG and nothing else. -/
def Obligations.NopStartStop : Prop :=
  ∀ s : State, exec .nop s = .next s ∧ exec .start s = .next { s with eng := .active } ∧
    exec .stop s = .next { s with eng := .idle }

/-- R202: SETEQ stores the gain clamped to [-12, 12] in the one band it names; an index above 30 or a NaN changes
nothing; nothing else is written. -/
def Obligations.SeteqResult : Prop :=
  ∀ (s : State) (i : Nat) (g : Word), ∃ t, exec (.seteq i g) s = .next t ∧
    (30 < i ∨ Fp.isNaN g = true → t = s) ∧
    (i ≤ 30 → Fp.isNaN g = false → t.eqGain i =
      if Fp.lt 0x41400000#32 g then 0x41400000#32 else if Fp.lt g 0xC1400000#32 then 0xC1400000#32 else g) ∧
    (i ≤ 30 → Fp.isNaN g = false → legalGain (t.eqGain i) = true) ∧
    (∀ j, j ≠ i → t.eqGain j = s.eqGain j) ∧ { t with eqg := s.eqg } = s

/-- R203: SETCH stores the word as given for parameters 0 to 5 (a NaN changes nothing), its bit 0 for mute and
bypass; an unknown channel or parameter changes nothing; nothing else is written. -/
def Obligations.SetchResult : Prop :=
  ∀ (s : State) (c p : Nat) (v : Word), ∃ t, exec (.setch c p v) s = .next t ∧
    (5 < c ∨ 7 < p → t = s) ∧
    (c ≤ 5 → p ≤ 5 → Fp.isNaN v = true → t = s) ∧
    (c ≤ 5 → p ≤ 5 → Fp.isNaN v = false → t.chWord c p = v) ∧
    (c ≤ 5 → p = 6 ∨ p = 7 → t.chWord c p = if v.getLsbD 0 then 1#32 else 0#32) ∧
    (∀ c' p', ¬ (c' = c ∧ p' = p) → t.chWord c' p' = s.chWord c' p') ∧ { t with ch := s.ch } = s

/-- R204: SETDYN writes both flags. R205, R201: SETBASS stores any value but a NaN, unclamped, and a NaN changes
nothing. Nothing else is written. -/
def Obligations.SetdynSetbassResult : Prop :=
  (∀ (s : State) (c l : Bool), exec (.setdyn c l) s = .next { s with compEn := c, limEn := l }) ∧
  ∀ (s : State) (g : Word), ∃ t, exec (.setbass g) s = .next t ∧ (Fp.isNaN g = true → t = s) ∧
    (Fp.isNaN g = false → t.bass = g) ∧ { t with bass := s.bass } = s

/-- R206: SETDYNP writes the register its selector names with the clamped value, always a legal one; a NaN or a
selector above 2 changes nothing; nothing else is written. -/
def Obligations.SetdynpResult : Prop :=
  ∀ (s : State) (sel : Nat) (x : Word), ∃ t, exec (.setdynp sel x) s = .next t ∧
    (2 < sel ∨ Fp.isNaN x = true → t = s) ∧
    (Fp.isNaN x = false → sel = 0 → t.thr = (if Fp.lt x 0#32 then 0#32 else x) ∧ legalThr t.thr = true ∧
      { t with thr := s.thr } = s) ∧
    (Fp.isNaN x = false → sel = 1 → t.ratio = (if Fp.lt x 0x3F800000#32 then 0x3F800000#32 else x) ∧
      legalRatio t.ratio = true ∧ { t with ratio := s.ratio } = s) ∧
    (Fp.isNaN x = false → sel = 2 → t.ceil = (if Fp.lt 0x3F800000#32 x then 0x3F800000#32 else
      if Fp.lt x 0#32 then 0#32 else x) ∧ legalCeil t.ceil = true ∧ { t with ceil := s.ceil } = s)

/-- R207: CFGLOAD takes 82 words, three masks and the record; each present field behaves as its SETEQ or SETCH, each
missing field keeps its value, and nothing but EQG, CH and the data-in stream is touched. -/
def Obligations.CfgloadResult : Prop :=
  ∀ (s : State) (m r rest : List Word), m.length = 3 → r.length = 79 → s.here.din = m ++ r ++ rest →
    ∃ t, exec .cfgload s = .next t ∧ Streamed s t 82 [] ∧
      (∀ j < 31, ∃ u, exec (.seteq j (r.getD j 0#32)) s = .next u ∧ t.eqGain j =
        if (m.getD (j / 32) 0#32).getLsbD (j % 32) then u.eqGain j else s.eqGain j) ∧
      (∀ c < 6, ∀ q < 8, ∃ u, exec (.setch c q (r.getD (31 + 8 * c + q) 0#32)) s = .next u ∧ t.chWord c q =
        if (m.getD ((31 + 8 * c + q) / 32) 0#32).getLsbD ((31 + 8 * c + q) % 32) then u.chWord c q
        else s.chWord c q) ∧
      t.compEn = s.compEn ∧ t.limEn = s.limEn ∧ t.thr = s.thr ∧ t.ratio = s.ratio ∧ t.ceil = s.ceil ∧
      t.bass = s.bass ∧ t.attackTc = s.attackTc ∧ t.releaseTc = s.releaseTc ∧
      SameTelemetry s t ∧ SameControl s t ∧ SameInputs s t

/-- R225 (corner cases): a CFGSAVE record of one state fed to CFGLOAD with all 79 mask bits set restores EQG and CH
exactly in any other state, except that a FMT channel word that holds a NaN is not rewritten. -/
def Obligations.SaveLoadRestores : Prop :=
  ∀ (a s : State) (m rest : List Word), a.Inv → m.length = 3 →
    (∀ j < 79, (m.getD (j / 32) 0#32).getLsbD (j % 32) = true) → s.here.din = m ++ a.record ++ rest →
    ∃ t, exec .cfgload s = .next t ∧ (∀ i < 31, t.eqGain i = a.eqGain i) ∧
      ∀ c < 6, ∀ q < 8, t.chWord c q =
        if q ≤ 5 ∧ Fp.isNaN (a.chWord c q) = true then s.chWord c q else a.chWord c q

/-- R68: issuing the same NOP, START, STOP, SETEQ, SETCH, SETDYN, SETBASS or SETDYNP twice in a row leaves the state of
issuing it once. -/
def Obligations.MutatorsIdempotent : Prop :=
  ∀ (i : Instr) (s : State), idempotent i = true → ∃ t, exec i s = .next t ∧ exec i t = .next t

/-! PROCESS. -/

/-- R184: in Idle a PROCESS takes its words, answers the header 0x03800000 alone, and writes no state. -/
def Obligations.ProcessIgnoredInIdle : Prop :=
  ∀ (s : State) (n sr : Nat), s.eng = .idle → n ≤ s.here.din.length →
    ∃ t, exec (.process n sr) s = .next t ∧ Streamed s t n [0x03800000#32] ∧
      SameParams s t ∧ SameTelemetry s t ∧ SameControl s t ∧ SameInputs s t

/-- R186 to R190: in Active a PROCESS runs the audio chain in order on the block it read, each stage on the previous
result, runs the analyzer and the meter on the block as received, and commits snapshot, histories, SR, FLT and the
response together; no parameter register is written. -/
def Obligations.ProcessRunsAndCommits : Prop :=
  ∀ (s : State) (n sr : Nat), s.eng = .active → n ≤ s.here.din.length → n ≤ 65535 → sr < 2 ^ 32 →
    let x := s.here.din.take n
    let b1 := eqStage Config.numerics (s.xf.getLsbD 0) x s.eqg sr
    let b2 := if s.compEn then compStage (s.xf.getLsbD 1) b1.value s.thr s.ratio else { value := b1.value, failed := false }
    let b3 := if s.limEn then limStage (s.xf.getLsbD 2) b2.value s.ceil else { value := b2.value, failed := false }
    let b4 := if Fp.lt 0#32 s.bass then bassStage Config.numerics (s.xf.getLsbD 3) b3.value s.bass
      else { value := b3.value, failed := false }
    let a := anaStage Config.numerics (s.xf.getLsbD 4) x sr { spec := s.spec, blev := s.blev }
    let m := metStage Config.numerics (s.xf.getLsbD 5) x { hrms := s.hrms, hpeak := s.hpeak }
    ∃ t st, exec (.process n sr) s = .next t ∧
      Streamed s t n ((0x03#8 ++ st ++ BitVec.ofNat 16 n) :: b4.value) ∧ b4.value.length = n ∧
      (∀ k, (st : BitVec 8).getLsbD k = match k with
        | 0 => b1.failed | 1 => b2.failed | 2 => b3.failed | 3 => b4.failed | 4 => a.failed | 5 => m.failed
        | _ => false) ∧
      (∀ k, t.flt.getLsbD k = (s.flt.getLsbD k || st.getLsbD k)) ∧
      t.spec = a.value.spec ∧ t.blev = a.value.blev ∧ t.hrms = m.value.hrms ∧ t.hpeak = m.value.hpeak ∧
      t.sr.toNat = sr ∧ t.eng = .active ∧ SameParams s t ∧ t.rst = s.rst ∧ t.turn = s.turn ∧
      ∀ p, (t.port p).due = (s.port p).due

/-- R192 item 1, R275: with all gains zero, dynamics off and no bass boost, the block leaves bit for bit as it came,
NaN and infinite samples included, and no stage of the chain fails, whatever the draw. -/
def Obligations.DefaultParametersPassThrough : Prop :=
  ∀ (s : State) (n sr : Nat), s.eng = .active → n ≤ s.here.din.length →
    (∀ i < 31, Fp.isZero (s.eqGain i) = true) → s.compEn = false → s.limEn = false → Fp.lt 0#32 s.bass = false →
    ∃ t st, exec (.process n sr) s = .next t ∧
      Streamed s t n ((0x03#8 ++ st ++ BitVec.ofNat 16 n) :: s.here.din.take n) ∧
      ∀ k < 4, (st : BitVec 8).getLsbD k = false

/-- R187, R281: the telemetry reflects the input only: two engines that differ in parameters (and in nothing else
that PROCESS reads for its telemetry) have the same telemetry after the same block. -/
def Obligations.TelemetryIgnoresParameters : Prop :=
  ∀ (s u : State) (n sr : Nat), s.eng = .active → u.eng = .active → n ≤ s.here.din.length → n ≤ u.here.din.length →
    s.here.din.take n = u.here.din.take n → SameTelemetry s u → u.xf = s.xf →
    ∃ t v, exec (.process n sr) s = .next t ∧ exec (.process n sr) u = .next v ∧ SameTelemetry t v

/-- R23, R33, R62: the response to a PROCESS depends on the block, the gains, the dynamics and bass registers and the
draw: two engines that agree on these and on the snapshot and histories, whatever their channel words, tracked rate,
time constants and logs, answer the same words. -/
def Obligations.ResponseIgnoresChannelsAndRate : Prop :=
  ∀ (s u : State) (n sr : Nat), s.eng = .active → u.eng = .active → n ≤ s.here.din.length → n ≤ u.here.din.length →
    s.here.din.take n = u.here.din.take n → u.xf = s.xf → u.eqg = s.eqg → u.compEn = s.compEn → u.limEn = s.limEn →
    u.thr = s.thr → u.ratio = s.ratio → u.ceil = s.ceil → u.bass = s.bass →
    u.spec = s.spec → u.blev = s.blev → u.hrms = s.hrms → u.hpeak = s.hpeak →
    ∃ t v ws, exec (.process n sr) s = .next t ∧ exec (.process n sr) u = .next v ∧
      Streamed s t n ws ∧ Streamed u v n ws

/-- R248: with a NaN among the first 512 samples, some gain set, both dynamics stages on and bass on, all six stages
fail in the one command: status 0x3F, the output block equals the input block, the telemetry but SR is kept. -/
def Obligations.AllSixStagesCanFail : Prop :=
  ∀ (s : State) (n sr : Nat), s.eng = .active → n ≤ s.here.din.length → 512 ≤ n →
    (s.here.din.take 512).any Fp.isNaN = true → (∃ i < 31, Fp.isZero (s.eqGain i) = false) →
    s.compEn = true → s.limEn = true → Fp.lt 0#32 s.bass = true →
    ∃ t, exec (.process n sr) s = .next t ∧
      Streamed s t n ((0x033F0000#32 + BitVec.ofNat 32 (n % 2 ^ 16)) :: s.here.din.take n) ∧
      (∀ k < 6, t.flt.getLsbD k = true) ∧ t.spec = s.spec ∧ t.blev = s.blev ∧ t.hrms = s.hrms ∧ t.hpeak = s.hpeak

/-- R274: while no PROCESS runs in Active, telemetry and stage failures stay as after reset, over every other command
word, and the accessors answer zeros. -/
def Obligations.NoBlockZeroTelemetry : Prop :=
  State.reset.NoBlock ∧
  (∀ (w : Cmd) (s : State), s.NoBlock → ¬ runsBlock w s → ∃ t, execWord w s = .next t ∧ t.NoBlock) ∧
  ∀ s : State, s.NoBlock →
    (∃ t, exec .getsnap s = .next t ∧ Streamed s t 0 (0x2000011F#32 :: List.replicate 287 0#32)) ∧
    (∃ t, exec .getlevels s = .next t ∧ Streamed s t 0 [0x21000002#32, 0#32, 0#32]) ∧
    ∀ sel, ∃ t, exec (.gethist sel) s = .next t ∧ Streamed s t 0 [0x22000000#32]

/-! The stages, for every `Numerics` record. -/

/-- R114, R115, R121: the EQ passes the block on without a failure when all gains are zero or the block is short; else
it fails exactly when `sr = 0`, a sample of the segment is not finite, a fault is drawn, or a sample of the shaped
segment is not finite; and a failed EQ leaves the block. -/
def Obligations.EqPassThroughAndFailures : Prop :=
  ∀ (num : Config.Numerics) (xf : Bool) (x : List Fmt) (g : Vector Fmt 31) (sr : Nat),
    let y := eqStage num xf x g sr
    ((∀ b < 31, Fp.isZero (g[b]?.getD 0#32) = true) → y.value = x ∧ y.failed = false) ∧
    (x.length < 512 → y.value = x ∧ y.failed = false) ∧
    (y.failed = true → y.value = x) ∧
    ((∃ b < 31, Fp.isZero (g[b]?.getD 0#32) = false) → 512 ≤ x.length →
      (y.failed = true ↔ sr = 0 ∨ xf = true ∨ (x.take 512).all Fp.finite = false ∨
        (eqSegment num x g sr).all Fp.finite = false))

/-- R116, R118, R251: the EQ keeps the length, leaves every sample from 512 on bit for bit, reads none of them, and
when it fails leaves the whole block; when the slow path completes, the first 512 samples are the real parts of the
inverse transform of the bins after the gain loop. (EqScalesBinAndCounterpart says what those bins are.) -/
def Obligations.EqShapesFirst512Only : Prop :=
  ∀ (num : Config.Numerics) (xf : Bool) (x tail : List Fmt) (g : Vector Fmt 31) (sr : Nat),
    let y := eqStage num xf x g sr
    y.value.length = x.length ∧ y.value.drop 512 = x.drop 512 ∧ (y.failed = true → y.value = x) ∧
    (512 ≤ x.length →
      (eqStage num xf (x.take 512 ++ tail) g sr).failed = y.failed ∧
      (eqStage num xf (x.take 512 ++ tail) g sr).value.take 512 = y.value.take 512) ∧
    ((∃ b < 31, Fp.isZero (g[b]?.getD 0#32) = false) → 512 ≤ x.length → y.failed = false →
      ∀ n < 512, y.value[n]? = some (tIdft num (eqBins num x g sr) n).re)

/-- R117, R119, R120: each bin after the gain loop is the transform's bin times the linear gains of the bands that act
on it, one after the other in band order: a band acts when its gain is not zero, on the bin nearest to it and on that
bin's counterpart, once each (bin 0, its own counterpart, once). So gains of bands that share a bin multiply, a band
with gain zero multiplies nothing, and a bin that no band acts on is left as the transform gave it. -/
def Obligations.EqScalesBinAndCounterpart : Prop :=
  ∀ (num : Config.Numerics) (x : List Fmt) (g : Vector Fmt 31) (sr : Nat), 1 ≤ sr →
    let gain := fun b : Nat => g[b]?.getD 0#32
    let k := fun b : Nat => nearestBin (Config.band b) sr
    let lin := fun b : Nat => tPow10 num (Fp.div (gain b) 0x41A00000#32)
    ∀ j < 512, (eqBins num x g sr)[j]? = some
      (((List.range 31).filter fun b => !Fp.isZero (gain b) && (k b == j || k b + j == 512)).foldl
        (fun z b => { re := Fp.mul z.re (lin b), im := Fp.mul z.im (lin b) }) (tDft num (x.take 512) j))

/-- R113: NearestBin is the least index in 0..255 that minimises `|k * sr - 512 * f|`, and has the closed form of the
rule (the ceiling of `a / b` is minus the floor of `-a / b`) with its two limits; R160: it is non-decreasing in `f`, so
the first bin of a band interval is never above its end bin. -/
def Obligations.NearestBinMinimises : Prop :=
  ∀ f sr : Nat, 1 ≤ f → 1 ≤ sr →
    nearestBin f sr ≤ 255 ∧
    (∀ k ≤ 255, ((nearestBin f sr * sr : Int) - 512 * f).natAbs ≤ ((k * sr : Int) - 512 * f).natAbs) ∧
    (∀ k ≤ 255, ((nearestBin f sr * sr : Int) - 512 * f).natAbs = ((k * sr : Int) - 512 * f).natAbs →
      nearestBin f sr ≤ k) ∧
    (nearestBin f sr : Int) = max 0 (min 255 (-((sr - 1024 * f : Int) / (2 * sr)))) ∧
    (255 * sr < 512 * f → nearestBin f sr = 255) ∧ (1024 * f ≤ sr → nearestBin f sr = 0) ∧
    (∀ f', f ≤ f' → nearestBin f sr ≤ nearestBin f' sr) ∧
    ∀ i < 30, (bandBins sr i).1 ≤ (bandBins sr i).2

/-- R15: rounding a positive rational number of units 2^-149 gives a nearest FMT value, an even one when two are
equally near, of the sign given; it is infinite exactly from half a step above the largest finite value on. That
infinity begins there, and not at the largest finite value itself, is the IEEE 754 reading of R15 (log 20,
PRESUMED). -/
def Obligations.RoundingIsNearestEven : Prop :=
  ∀ (neg : Bool) (n d : Nat), 0 < n → 0 < d →
    let y := Fp.roundUnits neg n d
    Fp.sign y = neg ∧ Fp.isNaN y = false ∧
    (Fp.isInf y = true ↔ d * ((2 ^ 25 - 1) * 2 ^ 252) ≤ n) ∧
    (Fp.finite y = true → ∀ z : Fmt, Fp.finite z = true →
      ((Fp.units y * d : Int) - n).natAbs ≤ ((Fp.units z * d : Int) - n).natAbs ∧
      (((Fp.units y * d : Int) - n).natAbs = ((Fp.units z * d : Int) - n).natAbs →
        Fp.units y ≠ Fp.units z → y.getLsbD 0 = false))

/-- R131, R132, R135, R136: the compressor fails exactly for a drawn fault, a non-finite sample, or a sample above the
threshold whose magnitude `T (+) ((|x| (-) T) (/) R)` is not finite (a sample at or below the threshold is its own
result), and then leaves the block; else it leaves samples at or below the threshold bit for bit and gives every other
sample that magnitude with its own sign. -/
def Obligations.CompressorResult : Prop :=
  ∀ (xf : Bool) (x : List Fmt) (thr ratio : Fmt),
    let y := compStage xf x thr ratio
    (y.failed = true ↔ xf = true ∨ (∃ v ∈ x, Fp.finite v = false) ∨
      ∃ v ∈ x, Fp.lt thr (Fp.abs v) = true ∧
        Fp.finite (Fp.add thr (Fp.div (Fp.sub (Fp.abs v) thr) ratio)) = false) ∧
    (y.failed = true → y.value = x) ∧
    (y.failed = false → y.value.length = x.length ∧ ∀ (n : Nat) (v : Fmt), x[n]? = some v → ∃ w, y.value[n]? = some w ∧
      (Fp.lt thr (Fp.abs v) = false → w = v) ∧
      (Fp.lt thr (Fp.abs v) = true → Fp.sign w = Fp.sign v ∧
        Fp.abs w = Fp.abs (Fp.add thr (Fp.div (Fp.sub (Fp.abs v) thr) ratio))))

/-- R133 (b), R135: with a legal threshold and ratio a finite sample above the threshold is compressed to a magnitude
not below the threshold; the magnitude is finite when the ratio is above 1 or the sample is not of the largest finite
magnitude, so the stage does not fail on finite blocks when the ratio is above 1. (R135 says that it never fails on
finite blocks; with ratio 1 and the largest finite sample the three roundings of R132 can reach infinity, log 22.) -/
def Obligations.CompressorStaysAboveThreshold : Prop :=
  ∀ (thr ratio : Fmt), legalThr thr = true → legalRatio ratio = true →
    (∀ v : Fmt, Fp.finite v = true → Fp.lt thr (Fp.abs v) = true →
      Fp.le thr (Fp.abs (compSample thr ratio v)) = true ∧
      (Fp.lt 0x3F800000#32 ratio = true ∨ Fp.abs v ≠ 0x7F7FFFFF#32 → Fp.finite (compSample thr ratio v) = true)) ∧
    (Fp.lt 0x3F800000#32 ratio = true → ∀ x : List Fmt, x.all Fp.finite = true →
      (compStage false x thr ratio).failed = false)

/-- R139, R140, R141: the limiter fails exactly on a NaN or a drawn fault, leaving the block; when it does not fail,
every output sample is within the ceiling, and is the sample, plus the ceiling or minus the ceiling as R139 says. For
the ceiling -0.0 that these are the register's bits, and not those of R141's corner case `C = 0`, is the model's choice
(log 28). -/
def Obligations.LimiterBounded : Prop :=
  ∀ (xf : Bool) (x : List Fmt) (c : Fmt), legalCeil c = true →
    let y := limStage xf x c
    (y.failed = true ↔ xf = true ∨ x.any Fp.isNaN = true) ∧ (y.failed = true → y.value = x) ∧
    (y.failed = false → y.value.length = x.length ∧ (∀ w ∈ y.value, Fp.le (Fp.abs w) c = true) ∧
      ∀ (n : Nat) (v : Fmt), x[n]? = some v → y.value[n]? = some
        (if Fp.lt c v then c else if Fp.lt v (Fp.neg c) then Fp.neg c else v))

/-- R146, R147, R148, R149: the bass enhancer leaves the block without a failure for a gain `<= 0`, whatever the draw;
for a gain above 0 it fails exactly for a drawn fault, a non-finite sample, a factor that is not finite (so for an
infinite gain, log 4) or a product that is not finite, and then leaves the block; else it multiplies every sample by the
one factor `1 (+) (0.1 (*) 10^(g (/) 20))`. -/
def Obligations.BassResult : Prop :=
  ∀ (num : Config.Numerics) (xf : Bool) (x : List Fmt) (g : Fmt), Fp.isNaN g = false →
    let y := bassStage num xf x g
    let f := Fp.add 0x3F800000#32 (Fp.mul 0x3DCCCCCD#32 (tPow10 num (Fp.div g 0x41A00000#32)))
    (Fp.le g 0#32 = true → y.value = x ∧ y.failed = false) ∧
    (Fp.le g 0#32 = false → (y.failed = true ↔ xf = true ∨ (∃ v ∈ x, Fp.finite v = false) ∨ Fp.finite f = false ∨
      ∃ v ∈ x, Fp.finite (Fp.mul v f) = false)) ∧
    (Fp.le g 0#32 = false → Fp.isInf g = true → Fp.finite f = false) ∧
    (y.failed = true → y.value = x) ∧
    (Fp.le g 0#32 = false → y.failed = false → y.value = x.map fun v => Fp.mul v f)

/-- R154 to R166: the analyzer leaves the snapshot without a failure for a short block and reads the first 512 samples
only. With finite old levels (the invariant; log 17) it fails exactly for `sr = 0`, a drawn fault, a non-finite sample
among the first 512, a magnitude `S k` that is not finite, or the level of a computed band that is not finite; and then
leaves the snapshot whole. Else SPEC is the 256 magnitudes of the transform of the windowed segment, each computed band
(below 30, with a non-empty bin range) has the level of its mean magnitude, `20 (*) log10p (m (+) 1e-10)` or -60.0 for a
mean not above 0, and every other band keeps its old level. -/
def Obligations.AnalyzerKeepsOrReplacesWhole : Prop :=
  ∀ (num : Config.Numerics) (xf : Bool) (x tail : List Fmt) (sr : Nat) (old : Snapshot),
    let y := anaStage num xf x sr old
    let v := (List.range 512).map fun n => Fp.mul (x.getD n 0#32) (tHann num n)
    let S := fun k : Nat => tCabs num (tDft num v k)
    let first := fun i : Nat => nearestBin (Config.band i) sr
    let last := fun i : Nat => nearestBin (Config.band (i + 1)) sr
    let m := fun i : Nat => tMean num ((List.range (last i - first i)).map fun j => S (first i + j))
    let level := fun i : Nat =>
      if Fp.lt 0#32 (m i) then Fp.mul 0x41A00000#32 (tLog10 num (Fp.add (m i) 0x2EDBE6FF#32)) else 0xC2700000#32
    (x.length < 512 → y.value = old ∧ y.failed = false) ∧
    (512 ≤ x.length → old.blev.toList.all Fp.finite = true →
      (y.failed = true ↔ sr = 0 ∨ xf = true ∨ (∃ u ∈ x.take 512, Fp.finite u = false) ∨
        (∃ k < 256, Fp.finite (S k) = false) ∨ ∃ i < 30, first i < last i ∧ Fp.finite (level i) = false)) ∧
    (y.failed = true → y.value = old) ∧
    (512 ≤ x.length → y.failed = false → (∀ k < 256, y.value.spec[k]? = some (S k)) ∧
      ∀ i < 31, y.value.blev[i]? = if i < 30 ∧ first i < last i then some (level i) else old.blev[i]?) ∧
    (512 ≤ x.length → sr = 0 ∨ xf = true ∨ (x.take 512).all Fp.finite = false → y.failed = true) ∧
    (512 ≤ x.length → anaStage num xf (x.take 512 ++ tail) sr old = y) ∧
    y.value.blev[30]? = old.blev[30]? ∧
    ∀ i < 30, last i ≤ first i → y.value.blev[i]? = old.blev[i]?

/-- R163, R167 item 2, R168: a silent segment gives an all-zero spectrum and -60.0 in every computed band; skipped
bands and band 30 keep their old values. -/
def Obligations.AnalyzerSilentBlock : Prop :=
  ∀ (num : Config.Numerics) (x : List Fmt) (sr : Nat) (old : Snapshot), 512 ≤ x.length → 1 ≤ sr →
    (x.take 512).all Fp.isZero = true → old.blev.toList.all Fp.finite = true →
    (anaStage num false x sr old).failed = false ∧
    (∀ k < 256, (anaStage num false x sr old).value.spec[k]? = some 0#32) ∧
    ∀ i < 31, (anaStage num false x sr old).value.blev[i]? =
      if i < 30 ∧ nearestBin (Config.band i) sr < nearestBin (Config.band (i + 1)) sr then some 0xC2700000#32
      else old.blev[i]?

/-- R171 to R174: the meter fails exactly for an empty block, a drawn fault, a non-finite sample, or an RMS that is not
finite, and then appends nothing; else it appends one entry to each history, dropping the oldest of a full one: the RMS
of the block, of sign +, and the largest magnitude of the block. For a silent block both entries are zero and there is no
failure unless a fault is drawn (the zero and the sign of the RMS are those of R171, log 4). -/
def Obligations.MeterAppendsOneEach : Prop :=
  ∀ (num : Config.Numerics) (xf : Bool) (x : List Fmt) (old : Levels),
    old.hrms.length ≤ 100 → old.hpeak.length = old.hrms.length →
    let y := metStage num xf x old
    (y.failed = true ↔ x = [] ∨ xf = true ∨ (∃ v ∈ x, Fp.finite v = false) ∨ Fp.finite (tRms num x) = false) ∧
    (y.failed = true → y.value = old) ∧
    (y.failed = false → ∃ p,
      y.value.hrms = (if old.hrms.length < 100 then old.hrms else old.hrms.tail) ++ [tRms num x] ∧
      y.value.hpeak = (if old.hrms.length < 100 then old.hpeak else old.hpeak.tail) ++ [p] ∧
      (∃ v ∈ x, p = Fp.abs v) ∧ (∀ v ∈ x, Fp.le (Fp.abs v) p = true) ∧ Fp.sign (tRms num x) = false ∧
      (x.all Fp.isZero = true → tRms num x = 0#32 ∧ p = 0#32)) ∧
    (x ≠ [] → x.all Fp.isZero = true → xf = false → y.failed = false)

/-- R41: the circular buffer with HW and HC holds, in age order, the sequence R40 describes. It begins with any legal
ring of count 0, whatever HW and the entries are; `HistoryRing.empty` is the model's choice of one (log 27). -/
def Obligations.RingRefinesHistory : Prop :=
  HistoryRing.empty.legal = true ∧ HistoryRing.empty.contents = [] ∧ (∀ r : HistoryRing, r.hc = 0 → r.contents = []) ∧
  ∀ (r : HistoryRing) (v : Fmt), r.legal = true →
    (r.push v).legal = true ∧ (r.push v).contents = histAppend r.contents v
end

