-- ==== Sys2Proof/Laws/Decode.lean ====
section
/-! SUPPORT. The fields of a command word (R80): each field of a packed word, and a word packed again from its
fields. -/

namespace Sys2Proof

variable (op a b fl : BitVec 8) (v : Word) (w : Cmd)

@[simp] theorem fieldOp_pack : fieldOp (pack op a b fl v) = op := by
  apply BitVec.eq_of_getLsbD_eq; intro i hi; simp [fieldOp, pack, hi]; grind

@[simp] theorem fieldA_pack : fieldA (pack op a b fl v) = a := by
  apply BitVec.eq_of_getLsbD_eq; intro i hi; simp [fieldA, pack, hi]; grind

@[simp] theorem fieldB_pack : fieldB (pack op a b fl v) = b := by
  apply BitVec.eq_of_getLsbD_eq; intro i hi; simp [fieldB, pack, hi]; grind

@[simp] theorem fieldFl_pack : fieldFl (pack op a b fl v) = fl := by
  apply BitVec.eq_of_getLsbD_eq; intro i hi; simp [fieldFl, pack, hi]; grind

@[simp] theorem fieldV_pack : fieldV (pack op a b fl v) = v := by
  apply BitVec.eq_of_getLsbD_eq; intro i hi; simp [fieldV, pack, hi]; grind

/-- A word is its five fields (R80). -/
theorem pack_fields : pack (fieldOp w) (fieldA w) (fieldB w) (fieldFl w) (fieldV w) = w := by
  apply BitVec.eq_of_getLsbD_eq; intro i hi
  simp [fieldOp, fieldA, fieldB, fieldFl, fieldV, pack, hi]; grind

/-- Bit `i` of a packed word. -/
theorem getLsbD_pack (i : Nat) : (pack op a b fl v).getLsbD i =
    if i < 32 then v.getLsbD i else if i < 40 then fl.getLsbD (i - 32) else if i < 48 then b.getLsbD (i - 40)
    else if i < 56 then a.getLsbD (i - 48) else op.getLsbD (i - 56) := by
  unfold pack; grind

@[simp] theorem getLsbD_fieldOp (i : Nat) : (fieldOp w).getLsbD i = (decide (i < 8) && w.getLsbD (56 + i)) := by
  simp [fieldOp]
@[simp] theorem getLsbD_fieldA (i : Nat) : (fieldA w).getLsbD i = (decide (i < 8) && w.getLsbD (48 + i)) := by
  simp [fieldA]
@[simp] theorem getLsbD_fieldB (i : Nat) : (fieldB w).getLsbD i = (decide (i < 8) && w.getLsbD (40 + i)) := by
  simp [fieldB]
@[simp] theorem getLsbD_fieldFl (i : Nat) : (fieldFl w).getLsbD i = (decide (i < 8) && w.getLsbD (32 + i)) := by
  simp [fieldFl]
@[simp] theorem getLsbD_fieldV (i : Nat) : (fieldV w).getLsbD i = (decide (i < 32) && w.getLsbD i) := by
  simp [fieldV]

/-- The conjunction of two packed words, field by field. -/
theorem and_pack (op' a' b' fl' : BitVec 8) (v' : Word) :
    pack op a b fl v &&& pack op' a' b' fl' v' = pack (op &&& op') (a &&& a') (b &&& b') (fl &&& fl') (v &&& v') := by
  apply BitVec.eq_of_getLsbD_eq; intro i hi
  rw [BitVec.getLsbD_and]
  simp only [getLsbD_pack]
  (repeat' split) <;> simp

theorem and_ones8 (x : BitVec 8) : x &&& 0xFF#8 = x := by revert x; decide

theorem and_ones32 (x : BitVec 32) : x &&& 0xFFFFFFFF#32 = x := by
  apply BitVec.eq_of_getLsbD_eq; intro i hi
  have h : (0xFFFFFFFF#32).getLsbD i = true := by revert i; decide
  rw [BitVec.getLsbD_and, h, Bool.and_true]

/-- The bytes of a number, read back (R64). -/
theorem foldr_toBytesLE (k : Nat) : ∀ x, (toBytesLE k x).foldr (fun b acc => acc * 256 + b.toNat) 0 = x % 256 ^ k := by
  induction k with
  | zero => intro x; simp [toBytesLE, Nat.mod_one]
  | succ k ih =>
    intro x
    simp [toBytesLE, ih]
    rw [Nat.pow_succ, Nat.mul_comm (256 ^ k) 256, Nat.mod_mul]; omega

theorem length_toBytesLE (k : Nat) : ∀ x, (toBytesLE k x).length = k := by
  induction k with
  | zero => intro x; rfl
  | succ k ih => intro x; simp [toBytesLE, ih]

end Sys2Proof
end

