-- ==== Sys2Proof/Laws/State.lean ====
section
/-! SUPPORT. What each update of State leaves alone: one lemma per field per update, all simp lemmas, so that no proof
unfolds a record update; and what each update does to the ports. -/

namespace Sys2Proof.Machine

variable (s : State)

/-! Ports: replacing one. -/

@[simp] theorem port_setPort (p r : Port) (q : PortState) : (s.setPort p q).port r = if r = p then q else s.port r := by
  cases p <;> cases r <;> rfl

theorem setPort_setPort (p : Port) (q q' : PortState) : (s.setPort p q).setPort p q' = s.setPort p q' := by
  cases p <;> rfl

@[simp] theorem setPort_port (p : Port) : s.setPort p (s.port p) = s := by cases p <;> rfl

/-! `setPort`. -/

@[simp] theorem setPort_eqg (p : Port) (q : PortState) : (s.setPort p q).eqg = s.eqg := by cases p <;> rfl
@[simp] theorem setPort_ch (p : Port) (q : PortState) : (s.setPort p q).ch = s.ch := by cases p <;> rfl
@[simp] theorem setPort_compEn (p : Port) (q : PortState) : (s.setPort p q).compEn = s.compEn := by cases p <;> rfl
@[simp] theorem setPort_limEn (p : Port) (q : PortState) : (s.setPort p q).limEn = s.limEn := by cases p <;> rfl
@[simp] theorem setPort_thr (p : Port) (q : PortState) : (s.setPort p q).thr = s.thr := by cases p <;> rfl
@[simp] theorem setPort_ratio (p : Port) (q : PortState) : (s.setPort p q).ratio = s.ratio := by cases p <;> rfl
@[simp] theorem setPort_ceil (p : Port) (q : PortState) : (s.setPort p q).ceil = s.ceil := by cases p <;> rfl
@[simp] theorem setPort_bass (p : Port) (q : PortState) : (s.setPort p q).bass = s.bass := by cases p <;> rfl
@[simp] theorem setPort_attackTc (p : Port) (q : PortState) : (s.setPort p q).attackTc = s.attackTc := by cases p <;> rfl
@[simp] theorem setPort_releaseTc (p : Port) (q : PortState) : (s.setPort p q).releaseTc = s.releaseTc := by cases p <;> rfl
@[simp] theorem setPort_eng (p : Port) (q : PortState) : (s.setPort p q).eng = s.eng := by cases p <;> rfl
@[simp] theorem setPort_sr (p : Port) (q : PortState) : (s.setPort p q).sr = s.sr := by cases p <;> rfl
@[simp] theorem setPort_flt (p : Port) (q : PortState) : (s.setPort p q).flt = s.flt := by cases p <;> rfl
@[simp] theorem setPort_spec (p : Port) (q : PortState) : (s.setPort p q).spec = s.spec := by cases p <;> rfl
@[simp] theorem setPort_blev (p : Port) (q : PortState) : (s.setPort p q).blev = s.blev := by cases p <;> rfl
@[simp] theorem setPort_hrms (p : Port) (q : PortState) : (s.setPort p q).hrms = s.hrms := by cases p <;> rfl
@[simp] theorem setPort_hpeak (p : Port) (q : PortState) : (s.setPort p q).hpeak = s.hpeak := by cases p <;> rfl
@[simp] theorem setPort_rst (p : Port) (q : PortState) : (s.setPort p q).rst = s.rst := by cases p <;> rfl
@[simp] theorem setPort_xf (p : Port) (q : PortState) : (s.setPort p q).xf = s.xf := by cases p <;> rfl
@[simp] theorem setPort_draws (p : Port) (q : PortState) : (s.setPort p q).draws = s.draws := by cases p <;> rfl
@[simp] theorem setPort_turn (p : Port) (q : PortState) : (s.setPort p q).turn = s.turn := by cases p <;> rfl
@[simp] theorem setPort_cur (p : Port) (q : PortState) : (s.setPort p q).cur = s.cur := by cases p <;> rfl

/-! `dinDrop`. -/

@[simp] theorem dinDrop_eqg (n : Nat) : (s.dinDrop n).eqg = s.eqg := by simp [State.dinDrop]
@[simp] theorem dinDrop_ch (n : Nat) : (s.dinDrop n).ch = s.ch := by simp [State.dinDrop]
@[simp] theorem dinDrop_compEn (n : Nat) : (s.dinDrop n).compEn = s.compEn := by simp [State.dinDrop]
@[simp] theorem dinDrop_limEn (n : Nat) : (s.dinDrop n).limEn = s.limEn := by simp [State.dinDrop]
@[simp] theorem dinDrop_thr (n : Nat) : (s.dinDrop n).thr = s.thr := by simp [State.dinDrop]
@[simp] theorem dinDrop_ratio (n : Nat) : (s.dinDrop n).ratio = s.ratio := by simp [State.dinDrop]
@[simp] theorem dinDrop_ceil (n : Nat) : (s.dinDrop n).ceil = s.ceil := by simp [State.dinDrop]
@[simp] theorem dinDrop_bass (n : Nat) : (s.dinDrop n).bass = s.bass := by simp [State.dinDrop]
@[simp] theorem dinDrop_attackTc (n : Nat) : (s.dinDrop n).attackTc = s.attackTc := by simp [State.dinDrop]
@[simp] theorem dinDrop_releaseTc (n : Nat) : (s.dinDrop n).releaseTc = s.releaseTc := by simp [State.dinDrop]
@[simp] theorem dinDrop_eng (n : Nat) : (s.dinDrop n).eng = s.eng := by simp [State.dinDrop]
@[simp] theorem dinDrop_sr (n : Nat) : (s.dinDrop n).sr = s.sr := by simp [State.dinDrop]
@[simp] theorem dinDrop_flt (n : Nat) : (s.dinDrop n).flt = s.flt := by simp [State.dinDrop]
@[simp] theorem dinDrop_spec (n : Nat) : (s.dinDrop n).spec = s.spec := by simp [State.dinDrop]
@[simp] theorem dinDrop_blev (n : Nat) : (s.dinDrop n).blev = s.blev := by simp [State.dinDrop]
@[simp] theorem dinDrop_hrms (n : Nat) : (s.dinDrop n).hrms = s.hrms := by simp [State.dinDrop]
@[simp] theorem dinDrop_hpeak (n : Nat) : (s.dinDrop n).hpeak = s.hpeak := by simp [State.dinDrop]
@[simp] theorem dinDrop_rst (n : Nat) : (s.dinDrop n).rst = s.rst := by simp [State.dinDrop]
@[simp] theorem dinDrop_xf (n : Nat) : (s.dinDrop n).xf = s.xf := by simp [State.dinDrop]
@[simp] theorem dinDrop_draws (n : Nat) : (s.dinDrop n).draws = s.draws := by simp [State.dinDrop]
@[simp] theorem dinDrop_turn (n : Nat) : (s.dinDrop n).turn = s.turn := by simp [State.dinDrop]
@[simp] theorem dinDrop_cur (n : Nat) : (s.dinDrop n).cur = s.cur := by simp [State.dinDrop]

/-! `doutWrite`. -/

@[simp] theorem doutWrite_eqg (ws : List Word) : (s.doutWrite ws).eqg = s.eqg := by simp [State.doutWrite]
@[simp] theorem doutWrite_ch (ws : List Word) : (s.doutWrite ws).ch = s.ch := by simp [State.doutWrite]
@[simp] theorem doutWrite_compEn (ws : List Word) : (s.doutWrite ws).compEn = s.compEn := by simp [State.doutWrite]
@[simp] theorem doutWrite_limEn (ws : List Word) : (s.doutWrite ws).limEn = s.limEn := by simp [State.doutWrite]
@[simp] theorem doutWrite_thr (ws : List Word) : (s.doutWrite ws).thr = s.thr := by simp [State.doutWrite]
@[simp] theorem doutWrite_ratio (ws : List Word) : (s.doutWrite ws).ratio = s.ratio := by simp [State.doutWrite]
@[simp] theorem doutWrite_ceil (ws : List Word) : (s.doutWrite ws).ceil = s.ceil := by simp [State.doutWrite]
@[simp] theorem doutWrite_bass (ws : List Word) : (s.doutWrite ws).bass = s.bass := by simp [State.doutWrite]
@[simp] theorem doutWrite_attackTc (ws : List Word) : (s.doutWrite ws).attackTc = s.attackTc := by simp [State.doutWrite]
@[simp] theorem doutWrite_releaseTc (ws : List Word) : (s.doutWrite ws).releaseTc = s.releaseTc := by simp [State.doutWrite]
@[simp] theorem doutWrite_eng (ws : List Word) : (s.doutWrite ws).eng = s.eng := by simp [State.doutWrite]
@[simp] theorem doutWrite_sr (ws : List Word) : (s.doutWrite ws).sr = s.sr := by simp [State.doutWrite]
@[simp] theorem doutWrite_flt (ws : List Word) : (s.doutWrite ws).flt = s.flt := by simp [State.doutWrite]
@[simp] theorem doutWrite_spec (ws : List Word) : (s.doutWrite ws).spec = s.spec := by simp [State.doutWrite]
@[simp] theorem doutWrite_blev (ws : List Word) : (s.doutWrite ws).blev = s.blev := by simp [State.doutWrite]
@[simp] theorem doutWrite_hrms (ws : List Word) : (s.doutWrite ws).hrms = s.hrms := by simp [State.doutWrite]
@[simp] theorem doutWrite_hpeak (ws : List Word) : (s.doutWrite ws).hpeak = s.hpeak := by simp [State.doutWrite]
@[simp] theorem doutWrite_rst (ws : List Word) : (s.doutWrite ws).rst = s.rst := by simp [State.doutWrite]
@[simp] theorem doutWrite_xf (ws : List Word) : (s.doutWrite ws).xf = s.xf := by simp [State.doutWrite]
@[simp] theorem doutWrite_draws (ws : List Word) : (s.doutWrite ws).draws = s.draws := by simp [State.doutWrite]
@[simp] theorem doutWrite_turn (ws : List Word) : (s.doutWrite ws).turn = s.turn := by simp [State.doutWrite]
@[simp] theorem doutWrite_cur (ws : List Word) : (s.doutWrite ws).cur = s.cur := by simp [State.doutWrite]

/-! `respond`. -/

@[simp] theorem respond_eqg (op st : BitVec 8) (ws : List Word) : (s.respond op st ws).eqg = s.eqg := by simp [State.respond]
@[simp] theorem respond_ch (op st : BitVec 8) (ws : List Word) : (s.respond op st ws).ch = s.ch := by simp [State.respond]
@[simp] theorem respond_compEn (op st : BitVec 8) (ws : List Word) : (s.respond op st ws).compEn = s.compEn := by simp [State.respond]
@[simp] theorem respond_limEn (op st : BitVec 8) (ws : List Word) : (s.respond op st ws).limEn = s.limEn := by simp [State.respond]
@[simp] theorem respond_thr (op st : BitVec 8) (ws : List Word) : (s.respond op st ws).thr = s.thr := by simp [State.respond]
@[simp] theorem respond_ratio (op st : BitVec 8) (ws : List Word) : (s.respond op st ws).ratio = s.ratio := by simp [State.respond]
@[simp] theorem respond_ceil (op st : BitVec 8) (ws : List Word) : (s.respond op st ws).ceil = s.ceil := by simp [State.respond]
@[simp] theorem respond_bass (op st : BitVec 8) (ws : List Word) : (s.respond op st ws).bass = s.bass := by simp [State.respond]
@[simp] theorem respond_attackTc (op st : BitVec 8) (ws : List Word) : (s.respond op st ws).attackTc = s.attackTc := by simp [State.respond]
@[simp] theorem respond_releaseTc (op st : BitVec 8) (ws : List Word) : (s.respond op st ws).releaseTc = s.releaseTc := by simp [State.respond]
@[simp] theorem respond_eng (op st : BitVec 8) (ws : List Word) : (s.respond op st ws).eng = s.eng := by simp [State.respond]
@[simp] theorem respond_sr (op st : BitVec 8) (ws : List Word) : (s.respond op st ws).sr = s.sr := by simp [State.respond]
@[simp] theorem respond_flt (op st : BitVec 8) (ws : List Word) : (s.respond op st ws).flt = s.flt := by simp [State.respond]
@[simp] theorem respond_spec (op st : BitVec 8) (ws : List Word) : (s.respond op st ws).spec = s.spec := by simp [State.respond]
@[simp] theorem respond_blev (op st : BitVec 8) (ws : List Word) : (s.respond op st ws).blev = s.blev := by simp [State.respond]
@[simp] theorem respond_hrms (op st : BitVec 8) (ws : List Word) : (s.respond op st ws).hrms = s.hrms := by simp [State.respond]
@[simp] theorem respond_hpeak (op st : BitVec 8) (ws : List Word) : (s.respond op st ws).hpeak = s.hpeak := by simp [State.respond]
@[simp] theorem respond_rst (op st : BitVec 8) (ws : List Word) : (s.respond op st ws).rst = s.rst := by simp [State.respond]
@[simp] theorem respond_xf (op st : BitVec 8) (ws : List Word) : (s.respond op st ws).xf = s.xf := by simp [State.respond]
@[simp] theorem respond_draws (op st : BitVec 8) (ws : List Word) : (s.respond op st ws).draws = s.draws := by simp [State.respond]
@[simp] theorem respond_turn (op st : BitVec 8) (ws : List Word) : (s.respond op st ws).turn = s.turn := by simp [State.respond]
@[simp] theorem respond_cur (op st : BitVec 8) (ws : List Word) : (s.respond op st ws).cur = s.cur := by simp [State.respond]

/-! `take`. -/

@[simp] theorem take_eqg (p : Port) : (s.take p).eqg = s.eqg := by simp [State.take]
@[simp] theorem take_ch (p : Port) : (s.take p).ch = s.ch := by simp [State.take]
@[simp] theorem take_compEn (p : Port) : (s.take p).compEn = s.compEn := by simp [State.take]
@[simp] theorem take_limEn (p : Port) : (s.take p).limEn = s.limEn := by simp [State.take]
@[simp] theorem take_thr (p : Port) : (s.take p).thr = s.thr := by simp [State.take]
@[simp] theorem take_ratio (p : Port) : (s.take p).ratio = s.ratio := by simp [State.take]
@[simp] theorem take_ceil (p : Port) : (s.take p).ceil = s.ceil := by simp [State.take]
@[simp] theorem take_bass (p : Port) : (s.take p).bass = s.bass := by simp [State.take]
@[simp] theorem take_attackTc (p : Port) : (s.take p).attackTc = s.attackTc := by simp [State.take]
@[simp] theorem take_releaseTc (p : Port) : (s.take p).releaseTc = s.releaseTc := by simp [State.take]
@[simp] theorem take_eng (p : Port) : (s.take p).eng = s.eng := by simp [State.take]
@[simp] theorem take_sr (p : Port) : (s.take p).sr = s.sr := by simp [State.take]
@[simp] theorem take_flt (p : Port) : (s.take p).flt = s.flt := by simp [State.take]
@[simp] theorem take_spec (p : Port) : (s.take p).spec = s.spec := by simp [State.take]
@[simp] theorem take_blev (p : Port) : (s.take p).blev = s.blev := by simp [State.take]
@[simp] theorem take_hrms (p : Port) : (s.take p).hrms = s.hrms := by simp [State.take]
@[simp] theorem take_hpeak (p : Port) : (s.take p).hpeak = s.hpeak := by simp [State.take]
@[simp] theorem take_rst (p : Port) : (s.take p).rst = s.rst := by simp [State.take]
@[simp] theorem take_xf (p : Port) : (s.take p).xf = s.xf := by simp [State.take]
@[simp] theorem take_draws (p : Port) : (s.take p).draws = s.draws := by simp [State.take]

/-! `setEqGain`. -/

@[simp] theorem setEqGain_ch (i : Nat) (g : Fmt) : (s.setEqGain i g).ch = s.ch := rfl
@[simp] theorem setEqGain_compEn (i : Nat) (g : Fmt) : (s.setEqGain i g).compEn = s.compEn := rfl
@[simp] theorem setEqGain_limEn (i : Nat) (g : Fmt) : (s.setEqGain i g).limEn = s.limEn := rfl
@[simp] theorem setEqGain_thr (i : Nat) (g : Fmt) : (s.setEqGain i g).thr = s.thr := rfl
@[simp] theorem setEqGain_ratio (i : Nat) (g : Fmt) : (s.setEqGain i g).ratio = s.ratio := rfl
@[simp] theorem setEqGain_ceil (i : Nat) (g : Fmt) : (s.setEqGain i g).ceil = s.ceil := rfl
@[simp] theorem setEqGain_bass (i : Nat) (g : Fmt) : (s.setEqGain i g).bass = s.bass := rfl
@[simp] theorem setEqGain_attackTc (i : Nat) (g : Fmt) : (s.setEqGain i g).attackTc = s.attackTc := rfl
@[simp] theorem setEqGain_releaseTc (i : Nat) (g : Fmt) : (s.setEqGain i g).releaseTc = s.releaseTc := rfl
@[simp] theorem setEqGain_eng (i : Nat) (g : Fmt) : (s.setEqGain i g).eng = s.eng := rfl
@[simp] theorem setEqGain_sr (i : Nat) (g : Fmt) : (s.setEqGain i g).sr = s.sr := rfl
@[simp] theorem setEqGain_flt (i : Nat) (g : Fmt) : (s.setEqGain i g).flt = s.flt := rfl
@[simp] theorem setEqGain_spec (i : Nat) (g : Fmt) : (s.setEqGain i g).spec = s.spec := rfl
@[simp] theorem setEqGain_blev (i : Nat) (g : Fmt) : (s.setEqGain i g).blev = s.blev := rfl
@[simp] theorem setEqGain_hrms (i : Nat) (g : Fmt) : (s.setEqGain i g).hrms = s.hrms := rfl
@[simp] theorem setEqGain_hpeak (i : Nat) (g : Fmt) : (s.setEqGain i g).hpeak = s.hpeak := rfl
@[simp] theorem setEqGain_rst (i : Nat) (g : Fmt) : (s.setEqGain i g).rst = s.rst := rfl
@[simp] theorem setEqGain_xf (i : Nat) (g : Fmt) : (s.setEqGain i g).xf = s.xf := rfl
@[simp] theorem setEqGain_draws (i : Nat) (g : Fmt) : (s.setEqGain i g).draws = s.draws := rfl
@[simp] theorem setEqGain_turn (i : Nat) (g : Fmt) : (s.setEqGain i g).turn = s.turn := rfl
@[simp] theorem setEqGain_cur (i : Nat) (g : Fmt) : (s.setEqGain i g).cur = s.cur := rfl
@[simp] theorem setEqGain_port (i : Nat) (g : Fmt) (r : Port) : (s.setEqGain i g).port r = s.port r := by cases r <;> rfl

/-! `setChWord`. -/

@[simp] theorem setChWord_eqg (c p : Nat) (v : Word) : (s.setChWord c p v).eqg = s.eqg := rfl
@[simp] theorem setChWord_compEn (c p : Nat) (v : Word) : (s.setChWord c p v).compEn = s.compEn := rfl
@[simp] theorem setChWord_limEn (c p : Nat) (v : Word) : (s.setChWord c p v).limEn = s.limEn := rfl
@[simp] theorem setChWord_thr (c p : Nat) (v : Word) : (s.setChWord c p v).thr = s.thr := rfl
@[simp] theorem setChWord_ratio (c p : Nat) (v : Word) : (s.setChWord c p v).ratio = s.ratio := rfl
@[simp] theorem setChWord_ceil (c p : Nat) (v : Word) : (s.setChWord c p v).ceil = s.ceil := rfl
@[simp] theorem setChWord_bass (c p : Nat) (v : Word) : (s.setChWord c p v).bass = s.bass := rfl
@[simp] theorem setChWord_attackTc (c p : Nat) (v : Word) : (s.setChWord c p v).attackTc = s.attackTc := rfl
@[simp] theorem setChWord_releaseTc (c p : Nat) (v : Word) : (s.setChWord c p v).releaseTc = s.releaseTc := rfl
@[simp] theorem setChWord_eng (c p : Nat) (v : Word) : (s.setChWord c p v).eng = s.eng := rfl
@[simp] theorem setChWord_sr (c p : Nat) (v : Word) : (s.setChWord c p v).sr = s.sr := rfl
@[simp] theorem setChWord_flt (c p : Nat) (v : Word) : (s.setChWord c p v).flt = s.flt := rfl
@[simp] theorem setChWord_spec (c p : Nat) (v : Word) : (s.setChWord c p v).spec = s.spec := rfl
@[simp] theorem setChWord_blev (c p : Nat) (v : Word) : (s.setChWord c p v).blev = s.blev := rfl
@[simp] theorem setChWord_hrms (c p : Nat) (v : Word) : (s.setChWord c p v).hrms = s.hrms := rfl
@[simp] theorem setChWord_hpeak (c p : Nat) (v : Word) : (s.setChWord c p v).hpeak = s.hpeak := rfl
@[simp] theorem setChWord_rst (c p : Nat) (v : Word) : (s.setChWord c p v).rst = s.rst := rfl
@[simp] theorem setChWord_xf (c p : Nat) (v : Word) : (s.setChWord c p v).xf = s.xf := rfl
@[simp] theorem setChWord_draws (c p : Nat) (v : Word) : (s.setChWord c p v).draws = s.draws := rfl
@[simp] theorem setChWord_turn (c p : Nat) (v : Word) : (s.setChWord c p v).turn = s.turn := rfl
@[simp] theorem setChWord_cur (c p : Nat) (v : Word) : (s.setChWord c p v).cur = s.cur := rfl
@[simp] theorem setChWord_port (c p : Nat) (v : Word) (r : Port) : (s.setChWord c p v).port r = s.port r := by cases r <;> rfl

/-! `applyEqGain`. -/

@[simp] theorem applyEqGain_ch (i : Nat) (g : Fmt) : (s.applyEqGain i g).ch = s.ch := by unfold State.applyEqGain; split <;> rfl
@[simp] theorem applyEqGain_compEn (i : Nat) (g : Fmt) : (s.applyEqGain i g).compEn = s.compEn := by unfold State.applyEqGain; split <;> rfl
@[simp] theorem applyEqGain_limEn (i : Nat) (g : Fmt) : (s.applyEqGain i g).limEn = s.limEn := by unfold State.applyEqGain; split <;> rfl
@[simp] theorem applyEqGain_thr (i : Nat) (g : Fmt) : (s.applyEqGain i g).thr = s.thr := by unfold State.applyEqGain; split <;> rfl
@[simp] theorem applyEqGain_ratio (i : Nat) (g : Fmt) : (s.applyEqGain i g).ratio = s.ratio := by unfold State.applyEqGain; split <;> rfl
@[simp] theorem applyEqGain_ceil (i : Nat) (g : Fmt) : (s.applyEqGain i g).ceil = s.ceil := by unfold State.applyEqGain; split <;> rfl
@[simp] theorem applyEqGain_bass (i : Nat) (g : Fmt) : (s.applyEqGain i g).bass = s.bass := by unfold State.applyEqGain; split <;> rfl
@[simp] theorem applyEqGain_attackTc (i : Nat) (g : Fmt) : (s.applyEqGain i g).attackTc = s.attackTc := by unfold State.applyEqGain; split <;> rfl
@[simp] theorem applyEqGain_releaseTc (i : Nat) (g : Fmt) : (s.applyEqGain i g).releaseTc = s.releaseTc := by unfold State.applyEqGain; split <;> rfl
@[simp] theorem applyEqGain_eng (i : Nat) (g : Fmt) : (s.applyEqGain i g).eng = s.eng := by unfold State.applyEqGain; split <;> rfl
@[simp] theorem applyEqGain_sr (i : Nat) (g : Fmt) : (s.applyEqGain i g).sr = s.sr := by unfold State.applyEqGain; split <;> rfl
@[simp] theorem applyEqGain_flt (i : Nat) (g : Fmt) : (s.applyEqGain i g).flt = s.flt := by unfold State.applyEqGain; split <;> rfl
@[simp] theorem applyEqGain_spec (i : Nat) (g : Fmt) : (s.applyEqGain i g).spec = s.spec := by unfold State.applyEqGain; split <;> rfl
@[simp] theorem applyEqGain_blev (i : Nat) (g : Fmt) : (s.applyEqGain i g).blev = s.blev := by unfold State.applyEqGain; split <;> rfl
@[simp] theorem applyEqGain_hrms (i : Nat) (g : Fmt) : (s.applyEqGain i g).hrms = s.hrms := by unfold State.applyEqGain; split <;> rfl
@[simp] theorem applyEqGain_hpeak (i : Nat) (g : Fmt) : (s.applyEqGain i g).hpeak = s.hpeak := by unfold State.applyEqGain; split <;> rfl
@[simp] theorem applyEqGain_rst (i : Nat) (g : Fmt) : (s.applyEqGain i g).rst = s.rst := by unfold State.applyEqGain; split <;> rfl
@[simp] theorem applyEqGain_xf (i : Nat) (g : Fmt) : (s.applyEqGain i g).xf = s.xf := by unfold State.applyEqGain; split <;> rfl
@[simp] theorem applyEqGain_draws (i : Nat) (g : Fmt) : (s.applyEqGain i g).draws = s.draws := by unfold State.applyEqGain; split <;> rfl
@[simp] theorem applyEqGain_turn (i : Nat) (g : Fmt) : (s.applyEqGain i g).turn = s.turn := by unfold State.applyEqGain; split <;> rfl
@[simp] theorem applyEqGain_cur (i : Nat) (g : Fmt) : (s.applyEqGain i g).cur = s.cur := by unfold State.applyEqGain; split <;> rfl
@[simp] theorem applyEqGain_port (i : Nat) (g : Fmt) (r : Port) : (s.applyEqGain i g).port r = s.port r := by unfold State.applyEqGain; split <;> simp

/-! `applyChannel`. -/

@[simp] theorem applyChannel_eqg (c p : Nat) (v : Word) : (s.applyChannel c p v).eqg = s.eqg := by unfold State.applyChannel; (repeat' split) <;> rfl
@[simp] theorem applyChannel_compEn (c p : Nat) (v : Word) : (s.applyChannel c p v).compEn = s.compEn := by unfold State.applyChannel; (repeat' split) <;> rfl
@[simp] theorem applyChannel_limEn (c p : Nat) (v : Word) : (s.applyChannel c p v).limEn = s.limEn := by unfold State.applyChannel; (repeat' split) <;> rfl
@[simp] theorem applyChannel_thr (c p : Nat) (v : Word) : (s.applyChannel c p v).thr = s.thr := by unfold State.applyChannel; (repeat' split) <;> rfl
@[simp] theorem applyChannel_ratio (c p : Nat) (v : Word) : (s.applyChannel c p v).ratio = s.ratio := by unfold State.applyChannel; (repeat' split) <;> rfl
@[simp] theorem applyChannel_ceil (c p : Nat) (v : Word) : (s.applyChannel c p v).ceil = s.ceil := by unfold State.applyChannel; (repeat' split) <;> rfl
@[simp] theorem applyChannel_bass (c p : Nat) (v : Word) : (s.applyChannel c p v).bass = s.bass := by unfold State.applyChannel; (repeat' split) <;> rfl
@[simp] theorem applyChannel_attackTc (c p : Nat) (v : Word) : (s.applyChannel c p v).attackTc = s.attackTc := by unfold State.applyChannel; (repeat' split) <;> rfl
@[simp] theorem applyChannel_releaseTc (c p : Nat) (v : Word) : (s.applyChannel c p v).releaseTc = s.releaseTc := by unfold State.applyChannel; (repeat' split) <;> rfl
@[simp] theorem applyChannel_eng (c p : Nat) (v : Word) : (s.applyChannel c p v).eng = s.eng := by unfold State.applyChannel; (repeat' split) <;> rfl
@[simp] theorem applyChannel_sr (c p : Nat) (v : Word) : (s.applyChannel c p v).sr = s.sr := by unfold State.applyChannel; (repeat' split) <;> rfl
@[simp] theorem applyChannel_flt (c p : Nat) (v : Word) : (s.applyChannel c p v).flt = s.flt := by unfold State.applyChannel; (repeat' split) <;> rfl
@[simp] theorem applyChannel_spec (c p : Nat) (v : Word) : (s.applyChannel c p v).spec = s.spec := by unfold State.applyChannel; (repeat' split) <;> rfl
@[simp] theorem applyChannel_blev (c p : Nat) (v : Word) : (s.applyChannel c p v).blev = s.blev := by unfold State.applyChannel; (repeat' split) <;> rfl
@[simp] theorem applyChannel_hrms (c p : Nat) (v : Word) : (s.applyChannel c p v).hrms = s.hrms := by unfold State.applyChannel; (repeat' split) <;> rfl
@[simp] theorem applyChannel_hpeak (c p : Nat) (v : Word) : (s.applyChannel c p v).hpeak = s.hpeak := by unfold State.applyChannel; (repeat' split) <;> rfl
@[simp] theorem applyChannel_rst (c p : Nat) (v : Word) : (s.applyChannel c p v).rst = s.rst := by unfold State.applyChannel; (repeat' split) <;> rfl
@[simp] theorem applyChannel_xf (c p : Nat) (v : Word) : (s.applyChannel c p v).xf = s.xf := by unfold State.applyChannel; (repeat' split) <;> rfl
@[simp] theorem applyChannel_draws (c p : Nat) (v : Word) : (s.applyChannel c p v).draws = s.draws := by unfold State.applyChannel; (repeat' split) <;> rfl
@[simp] theorem applyChannel_turn (c p : Nat) (v : Word) : (s.applyChannel c p v).turn = s.turn := by unfold State.applyChannel; (repeat' split) <;> rfl
@[simp] theorem applyChannel_cur (c p : Nat) (v : Word) : (s.applyChannel c p v).cur = s.cur := by unfold State.applyChannel; (repeat' split) <;> rfl
@[simp] theorem applyChannel_port (c p : Nat) (v : Word) (r : Port) : (s.applyChannel c p v).port r = s.port r := by unfold State.applyChannel; (repeat' split) <;> simp

/-! `redraw`. -/

@[simp] theorem redraw_eqg : (s.redraw).eqg = s.eqg := rfl
@[simp] theorem redraw_ch : (s.redraw).ch = s.ch := rfl
@[simp] theorem redraw_compEn : (s.redraw).compEn = s.compEn := rfl
@[simp] theorem redraw_limEn : (s.redraw).limEn = s.limEn := rfl
@[simp] theorem redraw_thr : (s.redraw).thr = s.thr := rfl
@[simp] theorem redraw_ratio : (s.redraw).ratio = s.ratio := rfl
@[simp] theorem redraw_ceil : (s.redraw).ceil = s.ceil := rfl
@[simp] theorem redraw_bass : (s.redraw).bass = s.bass := rfl
@[simp] theorem redraw_attackTc : (s.redraw).attackTc = s.attackTc := rfl
@[simp] theorem redraw_releaseTc : (s.redraw).releaseTc = s.releaseTc := rfl
@[simp] theorem redraw_eng : (s.redraw).eng = s.eng := rfl
@[simp] theorem redraw_sr : (s.redraw).sr = s.sr := rfl
@[simp] theorem redraw_flt : (s.redraw).flt = s.flt := rfl
@[simp] theorem redraw_spec : (s.redraw).spec = s.spec := rfl
@[simp] theorem redraw_blev : (s.redraw).blev = s.blev := rfl
@[simp] theorem redraw_hrms : (s.redraw).hrms = s.hrms := rfl
@[simp] theorem redraw_hpeak : (s.redraw).hpeak = s.hpeak := rfl
@[simp] theorem redraw_rst : (s.redraw).rst = s.rst := rfl
@[simp] theorem redraw_turn : (s.redraw).turn = s.turn := rfl
@[simp] theorem redraw_cur : (s.redraw).cur = s.cur := rfl
@[simp] theorem redraw_port (r : Port) : (s.redraw).port r = s.port r := by cases r <;> rfl

/-! What the stream operations do to the ports. -/

@[simp] theorem take_turn (p : Port) : (s.take p).turn = s.turn + 1 := rfl
@[simp] theorem take_cur (p : Port) : (s.take p).cur = p := rfl

@[simp] theorem take_port (p r : Port) : (s.take p).port r = if r = p then
    { s.port p with cmd := (s.port p).cmd.drop 1, due := s.turn + 1 + Config.arbiterDelay s.turn } else s.port r := by
  cases p <;> cases r <;> rfl

@[simp] theorem dinDrop_port (n : Nat) (r : Port) : (s.dinDrop n).port r =
    if r = s.cur then { s.port s.cur with din := (s.port s.cur).din.drop n } else s.port r := by
  simp [State.dinDrop, State.here]

@[simp] theorem doutWrite_port (ws : List Word) (r : Port) : (s.doutWrite ws).port r =
    if r = s.cur then { s.port s.cur with dout := (s.port s.cur).dout ++ ws } else s.port r := by
  simp [State.doutWrite, State.here]

@[simp] theorem respond_port (op st : BitVec 8) (ws : List Word) (r : Port) : (s.respond op st ws).port r =
    if r = s.cur then { s.port s.cur with dout := (s.port s.cur).dout ++ header op st ws.length :: ws } else s.port r := by
  simp [State.respond]

end Sys2Proof.Machine
end

