-- ==== Sys2Proof/Laws/Ops.lean ====
section
/-! SUPPORT. One lemma per shared operation, saying once what it can do: register reads after writes, the frame of a
CFGLOAD, histories, the configuration record, the arbiter's pick. -/

namespace Sys2Proof.Machine

variable (s : State)

/-! Vectors by index. -/

@[simp] theorem getElem?_vecOf {α : Type} (n : Nat) (f : Nat → α) (i : Nat) :
    (vecOf n f)[i]? = if i < n then some (f i) else none := by
  unfold vecOf
  by_cases h : i < n <;> simp [h]

@[simp] theorem toList_vecOf {α : Type} (n : Nat) (f : Nat → α) : (vecOf n f).toList = (List.range n).map f := by
  simp [vecOf, Vector.toList]

/-! Band gains. -/

@[simp] theorem eqGain_setEqGain (i j : Nat) (g : Fmt) :
    (s.setEqGain i g).eqGain j = if j = i ∧ i < 31 then g else s.eqGain j := by
  unfold State.setEqGain State.eqGain
  by_cases h : j = i
  · subst h
    by_cases h' : j < 31 <;> simp [h']
  · simp [h, Ne.symm h]

/-- What SETEQ does to the gains (R202). -/
theorem eqGain_applyEqGain (i j : Nat) (g : Fmt) : (s.applyEqGain i g).eqGain j =
    if j = i ∧ i ≤ 30 ∧ Fp.isNaN g = false then clampGain g else s.eqGain j := by
  unfold State.applyEqGain
  by_cases h : 30 < i
  · rw [if_pos (.inl h), if_neg (by omega)]
  · cases hn : Fp.isNaN g
    · have hi : i < 31 := by omega
      have hi' : i ≤ 30 := by omega
      simp [h, hi, hi']
    · simp

@[simp] theorem setEqGain_restore (i : Nat) (g : Fmt) : { s.setEqGain i g with eqg := s.eqg } = s := rfl

@[simp] theorem applyEqGain_restore (i : Nat) (g : Fmt) : { s.applyEqGain i g with eqg := s.eqg } = s := by
  unfold State.applyEqGain; split <;> rfl

@[simp] theorem applyEqGain_chWord (i : Nat) (g : Fmt) (c p : Nat) : (s.applyEqGain i g).chWord c p = s.chWord c p := by
  simp [State.chWord]

/-! Channel words. -/

theorem chWord_setChWord (c p c' p' : Nat) (v : Word) : (s.setChWord c p v).chWord c' p' =
    if c' = c ∧ p' = p ∧ c < 6 ∧ p < 8 then v else s.chWord c' p' := by
  unfold State.setChWord State.chWord
  by_cases hc : c' = c
  · subst hc
    by_cases hc6 : c' < 6
    · by_cases hp : p' = p
      · subst hp
        by_cases hp8 : p' < 8 <;> simp [hc6, hp8]
      · simp [hc6, hp, Ne.symm hp]
    · simp [hc6]
  · simp [hc, Ne.symm hc]

/-- What SETCH does to the channel words (R203). -/
theorem chWord_applyChannel (c p c' p' : Nat) (v : Word) : (s.applyChannel c p v).chWord c' p' =
    if c' = c ∧ p' = p ∧ c ≤ 5 ∧ p ≤ 7 then (channelValue p v).getD (s.chWord c p) else s.chWord c' p' := by
  unfold State.applyChannel
  by_cases h : 5 < c ∨ 7 < p
  · rw [if_pos h, if_neg (by omega)]
  · rw [if_neg h]
    have h1 : c < 6 := by omega
    have h2 : p < 8 := by omega
    have h3 : c ≤ 5 := by omega
    have h4 : p ≤ 7 := by omega
    cases hv : channelValue p v
    · by_cases hc : c' = c ∧ p' = p
      · simp [hc, h3, h4]
      · simp only [Option.getD_none]
        rw [if_neg (fun h => hc ⟨h.1, h.2.1⟩)]
    · simp [chWord_setChWord, h1, h2, h3, h4]

@[simp] theorem setChWord_restore (c p : Nat) (v : Word) : { s.setChWord c p v with ch := s.ch } = s := rfl

@[simp] theorem applyChannel_restore (c p : Nat) (v : Word) : { s.applyChannel c p v with ch := s.ch } = s := by
  unfold State.applyChannel; (repeat' split) <;> rfl

@[simp] theorem applyChannel_eqGain (c p : Nat) (v : Word) (i : Nat) :
    (s.applyChannel c p v).eqGain i = s.eqGain i := by
  simp [State.eqGain]

/-! CFGLOAD. -/

theorem loadField_restore (m r : List Word) (j : Nat) :
    { State.loadField m r s j with eqg := s.eqg, ch := s.ch } = s := by
  unfold State.loadField
  split
  · split
    · unfold State.applyEqGain; split <;> rfl
    · unfold State.applyChannel; (repeat' split) <;> rfl
  · rfl

/-- A CFGLOAD writes the gains and the channel words and nothing else (R207). -/
theorem loadFields_restore (m r : List Word) (js : List Nat) :
    { js.foldl (State.loadField m r) s with eqg := s.eqg, ch := s.ch } = s := by
  induction js generalizing s with
  | nil => rfl
  | cons j js ih =>
    have h1 := ih (State.loadField m r s j)
    have h2 := loadField_restore s m r j
    simp only [List.foldl_cons]
    generalize js.foldl (State.loadField m r) (State.loadField m r s j) = t at h1 ⊢
    rw [← h1] at h2
    exact h2

/-- What does not look at the gains and the channel words is the same after a CFGLOAD's fields. -/
theorem loadFields_other {β : Type} (f : State → β) (hf : ∀ (u : State) e c, f { u with eqg := e, ch := c } = f u)
    (m r : List Word) (js : List Nat) : f (js.foldl (State.loadField m r) s) = f s := by
  rw [← hf _ s.eqg s.ch, loadFields_restore]

theorem loadFields_port (m r : List Word) (js : List Nat) (p : Port) :
    (js.foldl (State.loadField m r) s).port p = s.port p := by
  have h := loadFields_restore s m r js
  generalize js.foldl (State.loadField m r) s = t at h ⊢
  rw [← h]; cases p <;> rfl

theorem loadField_eqGain (m r : List Word) (j i : Nat) : (State.loadField m r s j).eqGain i =
    if i = j ∧ fieldPresent m j ∧ j ≤ 30 ∧ Fp.isNaN (r.getD j 0#32) = false then clampGain (r.getD j 0#32)
    else s.eqGain i := by
  unfold State.loadField
  by_cases hp : fieldPresent m j
  · by_cases hj : j ≤ 30
    · simp [hp, hj, eqGain_applyEqGain]
    · simp [hp, hj]
  · simp [hp]

theorem loadField_chWord (m r : List Word) (j c p : Nat) : (State.loadField m r s j).chWord c p =
    if fieldPresent m j ∧ 31 ≤ j ∧ c = recordChannel j ∧ p = recordParam j ∧ recordChannel j ≤ 5
    then (channelValue p (r.getD j 0#32)).getD (s.chWord c p) else s.chWord c p := by
  unfold State.loadField
  by_cases hp : fieldPresent m j
  · by_cases hj : j ≤ 30
    · have : ¬ 31 ≤ j := by omega
      simp [hp, hj, this]
    · have h31 : 31 ≤ j := by omega
      have h7 : recordParam j ≤ 7 := by unfold recordParam; omega
      rw [if_pos hp, if_neg hj, chWord_applyChannel]
      by_cases h : c = recordChannel j ∧ p = recordParam j ∧ recordChannel j ≤ 5
      · obtain ⟨h1, h2, h3⟩ := h
        simp only [hp, h31, h1, h2, h3, h7, and_self, if_true]
      · rw [if_neg (fun h' => h ⟨h'.1, h'.2.1, h'.2.2.1⟩), if_neg (fun h' => h h'.2.2)]
  · simp [hp]

/-- The gains after the first `n` fields of a CFGLOAD (R207). -/
theorem loadFields_eqGain (m r : List Word) (n i : Nat) :
    ((List.range n).foldl (State.loadField m r) s).eqGain i =
      if i < n ∧ fieldPresent m i ∧ i ≤ 30 ∧ Fp.isNaN (r.getD i 0#32) = false then clampGain (r.getD i 0#32)
      else s.eqGain i := by
  induction n with
  | zero => simp
  | succ n ih =>
    rw [List.range_succ, List.foldl_append, List.foldl_cons, List.foldl_nil, loadField_eqGain, ih]
    by_cases h : i = n
    · subst h
      by_cases hc : fieldPresent m i = true ∧ i ≤ 30 ∧ Fp.isNaN (r.getD i 0#32) = false
      · rw [if_pos ⟨rfl, hc⟩, if_pos ⟨by omega, hc⟩]
      · rw [if_neg (fun h => hc h.2), if_neg (fun h => hc h.2), if_neg (fun h => hc h.2)]
    · rw [if_neg (fun h' => h h'.1)]
      have : i < n ↔ i < n + 1 := by omega
      simp only [this]

/-- The channel words after the first `n` fields of a CFGLOAD (R207): word `p` of channel `c` is field
`31 + 8 c + p`. -/
theorem loadFields_chWord (m r : List Word) (n c p : Nat) (hc : c ≤ 5) (hp : p ≤ 7) :
    ((List.range n).foldl (State.loadField m r) s).chWord c p =
      if 31 + 8 * c + p < n ∧ fieldPresent m (31 + 8 * c + p)
      then (channelValue p (r.getD (31 + 8 * c + p) 0#32)).getD (s.chWord c p) else s.chWord c p := by
  induction n with
  | zero => simp
  | succ n ih =>
    rw [List.range_succ, List.foldl_append, List.foldl_cons, List.foldl_nil, loadField_chWord, ih]
    by_cases h : n = 31 + 8 * c + p
    · subst h
      have h1 : recordChannel (31 + 8 * c + p) = c := by unfold recordChannel; omega
      have h2 : recordParam (31 + 8 * c + p) = p := by unfold recordParam; omega
      have h31 : 31 ≤ 31 + 8 * c + p := by omega
      have hlt : 31 + 8 * c + p < 31 + 8 * c + p + 1 := by omega
      have hn : ¬ 31 + 8 * c + p < 31 + 8 * c + p := by omega
      simp only [h1, h2, h31, hc, hlt, hn, true_and, and_true, false_and, if_false]
    · rw [if_neg]
      · have : 31 + 8 * c + p < n ↔ 31 + 8 * c + p < n + 1 := by omega
        simp only [this]
      · rintro ⟨_, h31, h1, h2, _⟩
        unfold recordChannel at h1
        unfold recordParam at h2
        omega

/-! The configuration record (R227). -/

theorem record_eqGain (i : Nat) (h : i < 31) : s.record[i]? = some (s.eqGain i) := by
  unfold State.record State.eqGain
  rw [List.getElem?_append_left (by simpa using h)]
  simp [h]

theorem length_flatMap_toList (rows : List (Vector Word 8)) :
    (rows.flatMap fun r => r.toList).length = 8 * rows.length := by
  induction rows with
  | nil => rfl
  | cons r rows ih => simp [ih]; omega

theorem getElem?_flatMap_toList (rows : List (Vector Word 8)) (c p : Nat) (hp : p < 8) :
    (rows.flatMap fun r => r.toList)[8 * c + p]? = rows[c]?.bind fun r => r[p]? := by
  induction rows generalizing c with
  | nil => simp
  | cons r rows ih =>
    rw [List.flatMap_cons]
    cases c with
    | zero => rw [List.getElem?_append_left (by simp; omega)]; simp
    | succ c =>
      rw [List.getElem?_append_right (by simp; omega)]
      have : 8 * (c + 1) + p - r.toList.length = 8 * c + p := by simp; omega
      rw [this, ih c]; simp

theorem record_length : s.record.length = 79 := by
  unfold State.record
  rw [List.length_append, length_flatMap_toList]
  simp

theorem record_chWord (c p : Nat) (hc : c < 6) (hp : p < 8) :
    s.record[31 + 8 * c + p]? = some (s.chWord c p) := by
  unfold State.record State.chWord
  rw [List.getElem?_append_right (by simp; omega)]
  have : 31 + 8 * c + p - s.eqg.toList.length = 8 * c + p := by simp; omega
  rw [this, getElem?_flatMap_toList _ _ _ hp]
  simp [hc, hp]

/-! Histories (R173). -/

theorem histAppend_length (h : List Fmt) (v : Fmt) (hl : h.length ≤ 100) :
    (histAppend h v).length = if h.length < 100 then h.length + 1 else 100 := by
  unfold histAppend Config.histcap
  split
  · simp
  · simp [Nat.min_def]; omega

theorem histAppend_length_le (h : List Fmt) (v : Fmt) : (histAppend h v).length ≤ 100 := by
  unfold histAppend Config.histcap
  split
  · simp; omega
  · simp [Nat.min_def]; split <;> omega

theorem histAppend_length_eq {h k : List Fmt} (v w : Fmt) (hl : h.length = k.length) :
    (histAppend h v).length = (histAppend k w).length := by
  unfold histAppend
  rw [hl]
  split <;> simp [hl]

theorem mem_histAppend {h : List Fmt} {v w : Fmt} (hm : w ∈ histAppend h v) : w ∈ h ∨ w = v := by
  unfold histAppend at hm
  split at hm
  · simpa using hm
  · rcases List.mem_append.mp hm with h1 | h1
    · exact .inl (List.mem_of_mem_drop (List.mem_of_mem_take h1))
    · exact .inr (by simpa using h1)

/-! The arbiter (R71). -/

/-- `sooner` answers one of its candidates, of least `due`. -/
theorem sooner_some {x y : Option Port} {p : Port} (h : s.sooner x y = some p) :
    (x = some p ∨ y = some p) ∧ (∀ q, x = some q → (s.port p).due ≤ (s.port q).due) ∧
      ∀ q, y = some q → (s.port p).due ≤ (s.port q).due := by
  cases x with
  | none => simp only [State.sooner] at h; subst h; simp
  | some a =>
    cases y with
    | none => simp only [State.sooner] at h; cases h; simp
    | some b =>
      simp only [State.sooner] at h
      split at h <;> cases h
      · refine ⟨.inr rfl, ?_, ?_⟩ <;> intro q hq <;> cases hq <;> omega
      · refine ⟨.inl rfl, ?_, ?_⟩ <;> intro q hq <;> cases hq <;> omega

/-- `sooner` answers none only when there is no candidate. -/
theorem sooner_none {x y : Option Port} : s.sooner x y = none ↔ x = none ∧ y = none := by
  cases x <;> cases y <;> simp [State.sooner]
  split <;> simp

theorem candidate_some {p q : Port} : s.candidate p = some q ↔ p = q ∧ (s.port p).ready = true := by
  unfold State.candidate
  split <;> simp_all

/-- A port is picked only when it is ready. -/
theorem pick_ready {p : Port} (h : s.pick = some p) : (s.port p).ready = true := by
  rcases (sooner_some s h).1 with h1 | h1
  · rcases (sooner_some s h1).1 with h2 | h2 <;> obtain ⟨rfl, hr⟩ := (candidate_some s).1 h2 <;> exact hr
  · obtain ⟨rfl, hr⟩ := (candidate_some s).1 h1; exact hr

/-- No port is picked exactly when none is ready. -/
theorem pick_none : s.pick = none ↔ ∀ p, (s.port p).ready = false := by
  have hc : ∀ p, s.candidate p = none ↔ (s.port p).ready = false := by
    intro p; unfold State.candidate; split <;> simp_all
  unfold State.pick
  rw [sooner_none, sooner_none, hc, hc, hc]
  constructor
  · rintro ⟨⟨h1, h2⟩, h3⟩ p; cases p <;> assumption
  · intro h; exact ⟨⟨h _, h _⟩, h _⟩

/-- The picked port has the least `due` of the ready ones. -/
theorem pick_least {p q : Port} (h : s.pick = some p) (hq : (s.port q).ready = true) :
    (s.port p).due ≤ (s.port q).due := by
  have h1 := sooner_some s h
  have hcand : ∀ r, r = q → s.candidate r = some q := fun r hr => by subst hr; exact (candidate_some s).2 ⟨rfl, hq⟩
  cases hin : s.sooner (s.candidate .P) (s.candidate .C) with
  | none =>
    have hn := (sooner_none s).1 hin
    cases q with
    | P => rw [hcand _ rfl] at hn; simp at hn
    | C => rw [hcand _ rfl] at hn; simp at hn
    | D => exact h1.2.2 _ (hcand _ rfl)
  | some r =>
    have hr := sooner_some s hin
    cases q with
    | P => exact Nat.le_trans (h1.2.1 _ hin) (hr.2.1 _ (hcand _ rfl))
    | C => exact Nat.le_trans (h1.2.1 _ hin) (hr.2.2 _ (hcand _ rfl))
    | D => exact h1.2.2 _ (hcand _ rfl)

/-- A ready port has a head command whose data words are all there (R71, R98). -/
theorem ready_iff (q : PortState) :
    q.ready = true ↔ ∃ w rest, q.cmd = w :: rest ∧ wordsNeeded w ≤ q.din.length := by
  unfold PortState.ready
  split <;> simp_all

end Sys2Proof.Machine
end

