-- ==== Sys2Proof/Laws/Stages.lean ====
section
/-! SUPPORT. What each stage of PROCESS can answer, said once: its result is its input (passed through or failed), or
the computed result with the facts that made it a success. -/

namespace Sys2Proof.Machine

variable (num : Config.Numerics)

@[simp] theorem completed_value {α : Type} (r : α) : (completed r).value = r := rfl
@[simp] theorem completed_failed {α : Type} (r : α) : (completed r).failed = false := rfl
@[simp] theorem softFail_value {α : Type} (r : α) : (softFail r).value = r := rfl
@[simp] theorem softFail_failed {α : Type} (r : α) : (softFail r).failed = true := rfl

/-- The EQ answers its input, or the shaped segment before the untouched rest (R114, R115, R118, R121). -/
theorem eqStage_cases (xf : Bool) (x : List Fmt) (g : Vector Fmt 31) (sr : Nat) :
    (eqStage num xf x g sr).value = x ∨
    (eqStage num xf x g sr = completed (eqSegment num x g sr ++ x.drop 512) ∧ someGain g = true ∧ 512 ≤ x.length ∧
      sr ≠ 0 ∧ xf = false ∧ (x.take 512).all Fp.finite = true ∧ (eqSegment num x g sr).all Fp.finite = true) := by
  unfold eqStage Config.nfft
  simp only
  split
  · exact .inl rfl
  · split
    · exact .inl rfl
    · split
      · exact .inl rfl
      · split
        · exact .inl rfl
        · split
          · exact .inl rfl
          · refine .inr ⟨rfl, ?_⟩
            simp_all

@[simp] theorem eqSegment_length (x : List Fmt) (g : Vector Fmt 31) (sr : Nat) :
    (eqSegment num x g sr).length = 512 := by
  simp [eqSegment, Config.nfft]

@[simp] theorem eqStage_length (xf : Bool) (x : List Fmt) (g : Vector Fmt 31) (sr : Nat) :
    (eqStage num xf x g sr).value.length = x.length := by
  rcases eqStage_cases num xf x g sr with h | ⟨h, _, h512, _⟩
  · rw [h]
  · rw [h]; simp; omega

/-- A failed EQ hands on its input (R121, R251). -/
theorem eqStage_failed (xf : Bool) (x : List Fmt) (g : Vector Fmt 31) (sr : Nat)
    (h : (eqStage num xf x g sr).failed = true) : (eqStage num xf x g sr).value = x := by
  rcases eqStage_cases num xf x g sr with h' | ⟨h', _⟩
  · exact h'
  · rw [h'] at h; simp at h

/-- The compressor answers its input, or every sample compressed (R136). -/
theorem compStage_cases (xf : Bool) (x : List Fmt) (thr ratio : Fmt) :
    compStage xf x thr ratio = softFail x ∨
    (compStage xf x thr ratio = completed (x.map (compSample thr ratio)) ∧ xf = false ∧ x.all Fp.finite = true ∧
      (x.map (compSample thr ratio)).all Fp.finite = true) := by
  unfold compStage
  simp only
  split
  · exact .inl rfl
  · split
    · exact .inl rfl
    · refine .inr ⟨rfl, ?_⟩; simp_all

@[simp] theorem compStage_length (xf : Bool) (x : List Fmt) (thr ratio : Fmt) :
    (compStage xf x thr ratio).value.length = x.length := by
  rcases compStage_cases xf x thr ratio with h | ⟨h, _⟩ <;> rw [h] <;> simp

/-- The limiter answers its input, or every sample limited (R141). -/
theorem limStage_cases (xf : Bool) (x : List Fmt) (c : Fmt) :
    (limStage xf x c = softFail x ∧ (xf = true ∨ x.any Fp.isNaN = true)) ∨
    (limStage xf x c = completed (x.map (limSample c)) ∧ xf = false ∧ x.any Fp.isNaN = false) := by
  unfold limStage
  split
  · refine .inl ⟨rfl, ?_⟩; simp_all
  · refine .inr ⟨rfl, ?_⟩; simp_all

@[simp] theorem limStage_length (xf : Bool) (x : List Fmt) (c : Fmt) :
    (limStage xf x c).value.length = x.length := by
  rcases limStage_cases xf x c with ⟨h, _⟩ | ⟨h, _⟩ <;> rw [h] <;> simp

/-- The bass enhancer answers its input, or every sample scaled (R150). -/
theorem bassStage_cases (xf : Bool) (x : List Fmt) (g : Fmt) :
    (bassStage num xf x g).value = x ∨
    (bassStage num xf x g = completed (x.map fun v => Fp.mul v (bassFactor num g)) ∧ Fp.le g 0#32 = false ∧
      xf = false ∧ x.all Fp.finite = true ∧ Fp.finite (bassFactor num g) = true ∧
      (x.map fun v => Fp.mul v (bassFactor num g)).all Fp.finite = true) := by
  unfold bassStage
  simp only
  split
  · exact .inl rfl
  · split
    · exact .inl rfl
    · split
      · exact .inl rfl
      · split
        · exact .inl rfl
        · refine .inr ⟨rfl, ?_⟩; simp_all

@[simp] theorem bassStage_length (xf : Bool) (x : List Fmt) (g : Fmt) :
    (bassStage num xf x g).value.length = x.length := by
  rcases bassStage_cases num xf x g with h | ⟨h, _⟩ <;> rw [h] <;> simp

@[simp] theorem audioChain_length (xf : BitVec 6) (s : State) (x : List Fmt) (sr : Nat) :
    (audioChain num xf s x sr).block.length = x.length := by
  unfold audioChain
  simp only
  split <;> split <;> split <;> simp

@[simp] theorem magnitudes_length (v : List Fmt) : (magnitudes num v).length = 256 := by
  simp [magnitudes, Config.nspec]

/-- The snapshot a successful analysis commits. -/
def newSnapshot (x : List Fmt) (sr : Nat) (old : Snapshot) : Snapshot :=
  { spec := vecOf 256 fun k => (magnitudes num (windowed num x)).getD k 0#32
    blev := vecOf 31 fun i =>
      ((List.range 31).map (newLevel num sr (magnitudes num (windowed num x)) old.blev)).getD i 0#32 }

/-- The analyzer leaves the snapshot whole, or commits a new one that is finite throughout (R154, R165, R166). -/
theorem anaStage_cases (xf : Bool) (x : List Fmt) (sr : Nat) (old : Snapshot) :
    (anaStage num xf x sr old).value = old ∨
    (anaStage num xf x sr old = completed (newSnapshot num x sr old) ∧ 512 ≤ x.length ∧ sr ≠ 0 ∧ xf = false ∧
      (x.take 512).all Fp.finite = true ∧ (magnitudes num (windowed num x)).all Fp.finite = true ∧
      ((List.range 31).map (newLevel num sr (magnitudes num (windowed num x)) old.blev)).all Fp.finite = true) := by
  unfold anaStage Config.nfft Config.nbands
  simp only
  split
  · exact .inl rfl
  · split
    · exact .inl rfl
    · split
      · exact .inl rfl
      · split
        · exact .inl rfl
        · refine .inr ⟨rfl, ?_⟩; simp_all

/-- A failed analysis leaves the snapshot (R165, R251). -/
theorem anaStage_failed (xf : Bool) (x : List Fmt) (sr : Nat) (old : Snapshot)
    (h : (anaStage num xf x sr old).failed = true) : (anaStage num xf x sr old).value = old := by
  rcases anaStage_cases num xf x sr old with h' | ⟨h', _⟩
  · exact h'
  · rw [h'] at h; simp at h

/-- The meter leaves both histories, or appends one entry to each (R173, R174). -/
theorem metStage_cases (xf : Bool) (x : List Fmt) (old : Levels) :
    metStage num xf x old = softFail old ∨
    (metStage num xf x old =
        completed { hrms := histAppend old.hrms (tRms num x), hpeak := histAppend old.hpeak (peakOf x) } ∧
      x ≠ [] ∧ xf = false ∧ x.all Fp.finite = true ∧ Fp.finite (tRms num x) = true) := by
  unfold metStage
  simp only
  split
  · exact .inl rfl
  · split
    · exact .inl rfl
    · split
      · exact .inl rfl
      · refine .inr ⟨rfl, ?_⟩; simp_all

/-! Signs and finiteness of what the meter and the analyzer store. -/

theorem sign_abs (x : Fmt) : Fp.sign (Fp.abs x) = false := by
  simp [Fp.sign, Fp.abs, BitVec.msb_eq_getLsbD_last]

theorem sign_tRms (x : List Fmt) : Fp.sign (tRms num x) = false := by
  unfold tRms; split
  · rfl
  · exact sign_abs _

theorem sign_tCabs (z : Cplx) : Fp.sign (tCabs num z) = false := by
  unfold tCabs; split
  · rfl
  · exact sign_abs _

theorem mag_abs (x : Fmt) : Fp.mag (Fp.abs x) = Fp.mag x := by
  have h : (0x7FFFFFFF#32).toNat = 2 ^ 31 - 1 := rfl
  unfold Fp.mag Fp.abs
  rw [BitVec.toNat_and, h, Nat.and_two_pow_sub_one_eq_mod, Nat.mod_mod]

theorem finite_abs (x : Fmt) : Fp.finite (Fp.abs x) = Fp.finite x := by
  simp [Fp.finite, Fp.isNaN, Fp.isInf, mag_abs]

/-- The peak is the magnitude of a sample or zero: of sign +, and finite for finite samples (R172). -/
theorem peak_fold (x : List Fmt) (p : Fmt) (hp : Fp.sign p = false ∧ Fp.finite p = true)
    (hx : x.all Fp.finite = true) :
    let q := x.foldl (fun p v => Fp.max p (Fp.abs v)) p
    Fp.sign q = false ∧ Fp.finite q = true := by
  induction x generalizing p with
  | nil => exact hp
  | cons v x ih =>
    simp only [List.all_cons, Bool.and_eq_true] at hx
    refine ih _ ?_ hx.2
    show Fp.sign (Fp.max p (Fp.abs v)) = false ∧ Fp.finite (Fp.max p (Fp.abs v)) = true
    unfold Fp.max
    split
    · exact ⟨sign_abs v, by rw [finite_abs]; exact hx.1⟩
    · exact hp

/-! `copysign`, and when each stage fails, exactly: one lemma per stage. -/

theorem sign_copysign (m x : Fmt) : Fp.sign (Fp.copysign m x) = Fp.sign x := by
  simp [Fp.sign, Fp.copysign, BitVec.msb_eq_getLsbD_last]

theorem abs_copysign (m x : Fmt) : Fp.abs (Fp.copysign m x) = Fp.abs m := by
  have h0 : 0x80000000#32 &&& 0x7FFFFFFF#32 = 0#32 := rfl
  have h : ∀ a b : Fmt, (a &&& 0x7FFFFFFF#32 ||| b &&& 0x80000000#32) &&& 0x7FFFFFFF#32 = a &&& 0x7FFFFFFF#32 := by
    intro a b
    rw [BitVec.and_or_distrib_right, BitVec.and_assoc, BitVec.and_self, BitVec.and_assoc b, h0]
    simp
  exact h m x

theorem finite_copysign (m x : Fmt) : Fp.finite (Fp.copysign m x) = Fp.finite m := by
  rw [← finite_abs, abs_copysign, finite_abs]

/-- A compressed sample is finite when the magnitude of R132 is; a sample at or below the threshold is itself. -/
theorem finite_compSample (thr ratio x : Fmt) : Fp.finite (compSample thr ratio x) =
    if Fp.lt thr (Fp.abs x) then Fp.finite (Fp.add thr (Fp.div (Fp.sub (Fp.abs x) thr) ratio)) else Fp.finite x := by
  unfold compSample; split <;> simp [*, finite_copysign]

/-- R121: when the EQ fails. -/
theorem eqStage_failed_iff (xf : Bool) (x : List Fmt) (g : Vector Fmt 31) (sr : Nat) :
    (eqStage num xf x g sr).failed = true ↔ someGain g = true ∧ 512 ≤ x.length ∧ (sr = 0 ∨ xf = true ∨
      (x.take 512).all Fp.finite = false ∨ (eqSegment num x g sr).all Fp.finite = false) := by
  unfold eqStage Config.nfft
  simp only
  split
  · simp_all
  · split
    · simp; omega
    · split
      · rename_i h; rcases h with h | h <;> simp_all
      · split
        · simp_all
        · split <;> simp_all

/-- R118: on its slow path an EQ that does not fail answers the shaped segment before the untouched rest. -/
theorem eqStage_completes {xf : Bool} {x : List Fmt} {g : Vector Fmt 31} {sr : Nat} (hg : someGain g = true)
    (hx : 512 ≤ x.length) (h : (eqStage num xf x g sr).failed = false) :
    eqStage num xf x g sr = completed (eqSegment num x g sr ++ x.drop 512) := by
  unfold eqStage Config.nfft at *
  simp only [hg, Bool.not_true, Bool.false_eq_true, if_false, if_neg (Nat.not_lt.2 hx)] at *
  split at h
  · simp at h
  · rename_i h1
    split at h
    · simp at h
    · rename_i h2
      split at h
      · simp at h
      · rename_i h3
        rw [if_neg h1, if_neg h2, if_neg h3]

/-- R135: when the compressor fails. -/
theorem compStage_failed_iff (xf : Bool) (x : List Fmt) (thr ratio : Fmt) :
    (compStage xf x thr ratio).failed = true ↔
      xf = true ∨ (∃ v ∈ x, Fp.finite v = false) ∨ ∃ v ∈ x, Fp.finite (compSample thr ratio v) = false := by
  unfold compStage
  simp only
  split
  · simp_all; rename_i h; rcases h with h | h <;> simp [h]
  · split <;> simp_all

/-- R149: when the bass enhancer fails. -/
theorem bassStage_failed_iff (xf : Bool) (x : List Fmt) (g : Fmt) :
    (bassStage num xf x g).failed = true ↔ Fp.le g 0#32 = false ∧ (xf = true ∨ (∃ v ∈ x, Fp.finite v = false) ∨
      Fp.finite (bassFactor num g) = false ∨ ∃ v ∈ x, Fp.finite (Fp.mul v (bassFactor num g)) = false) := by
  unfold bassStage
  simp only
  split
  · simp_all
  · split
    · simp_all; rename_i h; rcases h with h | h <;> simp [h]
    · split
      · simp_all
      · split <;> simp_all

/-- R147: for a gain above 0 a bass enhancer that does not fail scales every sample. -/
theorem bassStage_completes {xf : Bool} {x : List Fmt} {g : Fmt} (hg : Fp.le g 0#32 = false)
    (h : (bassStage num xf x g).failed = false) :
    bassStage num xf x g = completed (x.map fun v => Fp.mul v (bassFactor num g)) := by
  unfold bassStage at *
  simp only [hg, Bool.false_eq_true, if_false] at *
  split at h
  · simp at h
  · rename_i h1
    split at h
    · simp at h
    · rename_i h2
      split at h
      · simp at h
      · rename_i h3
        rw [if_neg h1, if_neg h2, if_neg h3]

/-- R165, R166: when the analyzer fails on a block of 512 samples or more. -/
theorem anaStage_failed_iff (xf : Bool) (x : List Fmt) (sr : Nat) (old : Snapshot) (hx : 512 ≤ x.length) :
    (anaStage num xf x sr old).failed = true ↔ sr = 0 ∨ xf = true ∨ (x.take 512).all Fp.finite = false ∨
      (magnitudes num (windowed num x)).all Fp.finite = false ∨
      ((List.range 31).map (newLevel num sr (magnitudes num (windowed num x)) old.blev)).all Fp.finite = false := by
  unfold anaStage Config.nfft Config.nbands
  simp only
  split
  · omega
  · split
    · rename_i h; rcases h with h | h <;> simp [h]
    · split
      · simp_all
      · split
        · simp_all
        · simp_all

/-- R158, R162: an analyzer that does not fail on a block of 512 samples or more replaces the snapshot. -/
theorem anaStage_completes {xf : Bool} {x : List Fmt} {sr : Nat} {old : Snapshot} (hx : 512 ≤ x.length)
    (h : (anaStage num xf x sr old).failed = false) :
    anaStage num xf x sr old = completed (newSnapshot num x sr old) := by
  unfold anaStage Config.nfft Config.nbands at *
  simp only [if_neg (Nat.not_lt.2 hx)] at *
  split at h
  · simp at h
  · rename_i h1
    split at h
    · simp at h
    · rename_i h2
      split at h
      · simp at h
      · rename_i h3
        rw [if_neg h1, if_neg h2, if_neg h3]; rfl

/-- R174: when the meter fails. -/
theorem metStage_failed_iff (xf : Bool) (x : List Fmt) (old : Levels) :
    (metStage num xf x old).failed = true ↔
      x = [] ∨ xf = true ∨ (∃ v ∈ x, Fp.finite v = false) ∨ Fp.finite (tRms num x) = false := by
  unfold metStage
  simp only
  split
  · simp_all; rename_i h; rcases h with h | h <;> simp [h]
  · split
    · simp_all
    · split <;> simp_all

/-! What the gain loop of the EQ does to one bin. -/

/-- Band `b` acts on bin `j` (R117, R120): its gain is not zero, and `j` is its bin or the counterpart of it. -/
def eqActs (g : Vector Fmt 31) (sr j b : Nat) : Bool :=
  !Fp.isZero (g[b]?.getD 0#32) && (nearestBin (Config.band b) sr == j || nearestBin (Config.band b) sr + j == 512)

theorem nearestBin_le (f sr : Nat) : nearestBin f sr ≤ 255 := by
  unfold nearestBin; split
  · omega
  · exact Nat.min_le_left ..

/-- One band of the gain loop, bin by bin: it scales the bins it acts on once, and leaves the others (R117, R120). -/
theorem eqBand_getElem? (g : Vector Fmt 31) (sr : Nat) (bins : List Cplx) (b j : Nat) (hj : j < 512) :
    (eqBand num g sr bins b)[j]? = bins[j]?.map fun z =>
      if eqActs g sr j b then Cplx.scale z (tPow10 num (Fp.div (g[b]?.getD 0#32) Fp.twenty)) else z := by
  have hk := nearestBin_le (Config.band b) sr
  unfold eqBand eqActs
  dsimp only
  by_cases hz : Fp.isZero (g[b]?.getD 0#32) = true
  · simp [hz]
  · simp only [hz, Bool.not_false, Bool.true_and, Bool.or_eq_true, beq_iff_eq, Bool.false_eq_true, if_false]
    generalize nearestBin (Config.band b) sr = k at hk ⊢
    by_cases h0 : k = 0
    · have h512 : ¬ (k + j = 512) := by omega
      rw [if_pos h0, List.getElem?_modify]
      simp [h512]
    · rw [if_neg h0, List.getElem?_modify, List.getElem?_modify, Option.map_eq_map, Option.map_eq_map, Option.map_map]
      congr 1; funext z
      have h2 : (512 - k = j) ↔ (k + j = 512) := by omega
      have h3 : k = j → ¬ (k + j = 512) := by omega
      by_cases h1 : k = j <;> simp_all

end Sys2Proof.Machine
end

