-- ==== Sys2Proof/Laws/Exec.lean ====
section
/-! SUPPORT. What executing a command can do: it always answers a next state, and the two commands that read data
either wait or go on. -/

namespace Sys2Proof.Machine

/-- Every command answers a next state (R96, R253). -/
theorem exec_next (i : Instr) (s : State) : ∃ t, exec i s = .next t := by
  cases i
  case process n sr =>
    simp only [exec, execProcess]
    cases s.dinHolds n <;> cases s.eng <;> simp
  case cfgload =>
    simp only [exec, execCfgload]
    cases s.dinHolds 82 <;> simp
  all_goals exact ⟨_, rfl⟩

/-- Every command word, reserved ones included, answers a next state (R93, R96). -/
theorem execWord_next (w : Cmd) (s : State) : ∃ t, execWord w s = .next t := by
  unfold execWord
  split
  · exact exec_next _ _
  · exact ⟨_, rfl⟩

/-- The command of a well-decoded word runs as that command (R98). -/
theorem execWord_ok {w : Cmd} {i : Instr} (h : decode w = .ok i) (s : State) : execWord w s = exec i s := by
  unfold execWord; rw [h]

/-- A reserved opcode sets BADCMD (R93). -/
theorem execWord_error {w : Cmd} {e : DecodeError} (h : decode w = .error e) (s : State) :
    execWord w s = .next { s with flt := logBadCmd s.flt } := by
  unfold execWord; rw [h]; rfl

/-- PROCESS while its data words are missing: it waits (R98; log 12). -/
theorem execProcess_waits {n sr : Nat} {s : State} (h : s.dinHolds n = false) : execProcess n sr s = .next s := by
  simp [execProcess, h]

/-- PROCESS in Idle (R184). -/
theorem execProcess_idle {n sr : Nat} {s : State} (h : s.dinHolds n = true) (he : s.eng = .idle) :
    execProcess n sr s = .next (processIdle (s.dinDrop n)) := by
  simp [execProcess, h, he]

/-- PROCESS in Active (R185 to R191). -/
theorem execProcess_active {n sr : Nat} {s : State} (h : s.dinHolds n = true) (he : s.eng = .active) :
    execProcess n sr s =
      .next (processActive Config.numerics s.xf (s.dinWords n) sr (s.dinDrop n)).redraw := by
  simp [execProcess, h, he]

/-- The audio chain reads the parameters and nothing else of the state (R185, R186). -/
theorem audioChain_congr (num : Config.Numerics) (xf : BitVec 6) {s t : State} (x : List Fmt) (sr : Nat)
    (h : t.eqg = s.eqg) (h1 : t.compEn = s.compEn) (h2 : t.limEn = s.limEn) (h3 : t.thr = s.thr)
    (h4 : t.ratio = s.ratio) (h5 : t.ceil = s.ceil) (h6 : t.bass = s.bass) :
    audioChain num xf t x sr = audioChain num xf s x sr := by
  unfold audioChain; simp only [h, h1, h2, h3, h4, h5, h6]

/-- One step, by its cases (R70, R78, R98, R272). -/
theorem step_cases (s : State) :
    (s.rst = true ∧ step s = .next { State.reset with rst := true }) ∨
    (s.rst = false ∧ s.pick = none ∧ step s = .next s) ∨
    (∃ p, s.rst = false ∧ s.pick = some p ∧ step s = execWord (s.headWord p) (s.take p)) := by
  unfold step
  cases h : s.rst
  · cases hp : s.pick with
    | none => exact .inr (.inl ⟨rfl, rfl, by simp⟩)
    | some p => exact .inr (.inr ⟨p, rfl, rfl, by simp⟩)
  · exact .inl ⟨rfl, by simp⟩

end Sys2Proof.Machine
end

