-- ==== Sys2Proof/Laws/Fmt.lean ====
section
/-! SUPPORT. What the rounding of class R results answers (R15): its encoding, sign and magnitude, and that no multiple
of the spacing is nearer. -/

namespace Sys2Proof.Machine.Fp

/-! Encodings. -/

theorem mag_lt (x : Fmt) : mag x < 2 ^ 31 := Nat.mod_lt _ (by decide)

theorem toNat_signBit (b : Bool) : (signBit b).toNat = if b then 2 ^ 31 else 0 := by cases b <;> rfl

theorem toNat_signBit_or (b : Bool) (e : Nat) (h : e < 2 ^ 31) :
    (signBit b ||| BitVec.ofNat 32 e).toNat = (if b then 2 ^ 31 else 0) + e := by
  have he : (BitVec.ofNat 32 e).toNat = e := by simp; omega
  rw [BitVec.toNat_or, he]
  cases b
  · simp [signBit]
  · have : (signBit true).toNat = 2 ^ 31 := rfl
    rw [this, if_pos rfl, Nat.or_comm, Nat.add_comm]
    have := Nat.two_pow_add_eq_or_of_lt h 1
    rw [Nat.mul_one] at this
    rw [Nat.add_comm, this, Nat.or_comm]

theorem mag_signBit_or (b : Bool) (e : Nat) (h : e < 2 ^ 31) : mag (signBit b ||| BitVec.ofNat 32 e) = e := by
  unfold mag; rw [toNat_signBit_or b e h]; cases b <;> simp <;> omega

theorem sign_eq (x : Fmt) : sign x = decide (2 ^ 31 ≤ x.toNat) := by
  unfold sign; rw [BitVec.msb_eq_decide]

theorem sign_signBit_or (b : Bool) (e : Nat) (h : e < 2 ^ 31) : sign (signBit b ||| BitVec.ofNat 32 e) = b := by
  rw [sign_eq, toNat_signBit_or b e h]; cases b <;> simp <;> omega

/-- The magnitude in units of 2^-149 of the encoding `e` without its sign bit. -/
def unitsOf (e : Nat) : Nat := if e / 2 ^ 23 = 0 then e % 2 ^ 23 else (2 ^ 23 + e % 2 ^ 23) * 2 ^ (e / 2 ^ 23 - 1)

theorem units_eq (x : Fmt) : units x = unitsOf (mag x) := rfl

/-- The encoding of `m` steps of spacing `2^sh` (R15). -/
theorem unitsOf_encoding (sh m : Nat) (h1 : 0 < sh → 2 ^ 23 ≤ m) (h2 : m ≤ 2 ^ 24) :
    unitsOf (sh * 2 ^ 23 + m) = m * 2 ^ sh := by
  unfold unitsOf
  rcases Nat.lt_or_ge m (2 ^ 23) with hm | hm
  · have hs : sh = 0 := by
      rcases Nat.eq_zero_or_pos sh with h | h
      · exact h
      · have := h1 h; omega
    subst hs
    rw [if_pos (by omega), Nat.zero_mul, Nat.zero_add, Nat.mod_eq_of_lt hm, Nat.pow_zero, Nat.mul_one]
  · rcases Nat.lt_or_ge m (2 ^ 24) with hm' | hm'
    · have e1 : (sh * 2 ^ 23 + m) / 2 ^ 23 = sh + 1 := by omega
      have e2 : (sh * 2 ^ 23 + m) % 2 ^ 23 = m - 2 ^ 23 := by omega
      have e3 : 2 ^ 23 + (m - 2 ^ 23) = m := by omega
      have e4 : sh + 1 - 1 = sh := by omega
      rw [e1, e2, e3, e4, if_neg (by omega)]
    · have e0 : m = 2 ^ 24 := by omega
      subst e0
      have e1 : (sh * 2 ^ 23 + 2 ^ 24) / 2 ^ 23 = sh + 2 := by omega
      have e2 : (sh * 2 ^ 23 + 2 ^ 24) % 2 ^ 23 = 0 := by omega
      have e3 : sh + 2 - 1 = sh + 1 := by omega
      have e4 : (2 : Nat) ^ (sh + 1) = 2 * 2 ^ sh := by rw [Nat.pow_succ, Nat.mul_comm]
      rw [e1, e2, e3, e4, if_neg (by omega)]
      generalize (2 : Nat) ^ sh = k
      omega

/-! Rounding to an integer. -/

/-- No integer is nearer to `n / d` than `nearestEven n d`, and of two equally near ones it is the even one. -/
theorem nearestEven_nearest (n d k : Nat) (hd : 0 < d) :
    ((nearestEven n d * d : Int) - n).natAbs ≤ ((k * d : Int) - n).natAbs ∧
    (((nearestEven n d * d : Int) - n).natAbs = ((k * d : Int) - n).natAbs → nearestEven n d ≠ k →
      nearestEven n d % 2 = 0) := by
  have hn : n = d * (n / d) + n % d := (Nat.div_add_mod n d).symm
  have hr : n % d < d := Nat.mod_lt n hd
  generalize hq : n / d = q at hn
  generalize hr' : n % d = r at hn hr
  have key : ∀ j : Nat, ((j * d : Int) - n) = ((j : Int) - q) * d - r := by
    intro j; rw [hn]; push_cast
    rw [Int.sub_mul, Int.mul_comm (d : Int) q]; omega
  have hmono : ∀ j : Nat, j ≤ q → ((q : Int) - j) * d + r = (((j * d : Int) - n).natAbs : Int) := by
    intro j hj
    rw [key j]
    have h0 : 0 ≤ ((q : Int) - j) * d := Int.mul_nonneg (by omega) (by omega)
    have : ((j : Int) - q) * d = -(((q : Int) - j) * d) := by rw [← Int.neg_mul]; congr 1; omega
    rw [this]; omega
  have hmono' : ∀ j : Nat, q + 1 ≤ j → ((j : Int) - q) * d - r = (((j * d : Int) - n).natAbs : Int) := by
    intro j hj
    rw [key j]
    have h0 : (1 : Int) * d ≤ ((j : Int) - q) * d := Int.mul_le_mul_of_nonneg_right (by omega) (by omega)
    omega
  have hlow : ∀ j : Nat, j + 1 ≤ q → (d : Int) ≤ ((q : Int) - j) * d := by
    intro j hj
    have := Int.mul_le_mul_of_nonneg_right (show (1 : Int) ≤ (q : Int) - j by omega) (show (0 : Int) ≤ d by omega)
    omega
  have hhigh : ∀ j : Nat, q + 2 ≤ j → 2 * (d : Int) ≤ ((j : Int) - q) * d := by
    intro j hj
    exact Int.mul_le_mul_of_nonneg_right (show (2 : Int) ≤ (j : Int) - q by omega) (show (0 : Int) ≤ d by omega)
  have hq0 : (((q * d : Int) - n).natAbs : Int) = r := by rw [← hmono q (Nat.le_refl q)]; simp
  have hq1 : ((((q + 1 : Nat) * d : Int) - n).natAbs : Int) = d - r := by
    rw [← hmono' (q + 1) (Nat.le_refl _)]
    have : (((q + 1 : Nat) : Int) - q) = 1 := by omega
    rw [this, Int.one_mul]
  have hk : k + 1 ≤ q ∨ k = q ∨ k = q + 1 ∨ q + 2 ≤ k := by omega
  unfold nearestEven
  simp only [hq, hr']
  have hkv : (((k * d : Int) - n).natAbs : Int) = r ∧ k = q ∨ (((k * d : Int) - n).natAbs : Int) = d - r ∧ k = q + 1 ∨
      (d : Int) + r ≤ (((k * d : Int) - n).natAbs : Int) ∨ 2 * (d : Int) - r ≤ (((k * d : Int) - n).natAbs : Int) := by
    rcases hk with h | h | h | h
    · right; right; left; have := hlow k h; have := hmono k (by omega); omega
    · left; subst h; exact ⟨hq0, rfl⟩
    · right; left; subst h; exact ⟨hq1, rfl⟩
    · right; right; right; have := hhigh k h; have := hmono' k (by omega); omega
  split
  · constructor
    · omega
    · intro h hne; exfalso; omega
  · split
    · constructor
      · omega
      · intro h hne; exfalso; omega
    · rcases Nat.mod_two_eq_zero_or_one q with h0 | h1
      · rw [h0, Nat.add_zero]
        exact ⟨by omega, fun _ _ => h0⟩
      · rw [h1]
        exact ⟨by omega, fun _ _ => by omega⟩

/-- The rounded integer lies between the floor and one more. -/
theorem nearestEven_bounds (n d : Nat) : n / d ≤ nearestEven n d ∧ nearestEven n d ≤ n / d + 1 := by
  unfold nearestEven
  simp only
  (repeat' split) <;> omega

/-! Rounding to FMT. -/

/-- The exponent of the spacing at the magnitude `n / d`. -/
def spacing (n d : Nat) : Nat := (n / d).log2 - 23

/-- The rounded number of steps. -/
def steps (n d : Nat) : Nat := nearestEven n (d * 2 ^ spacing n d)

/-- The encoding before the test for overflow. -/
def encoding (n d : Nat) : Nat := spacing n d * 2 ^ 23 + steps n d

theorem roundUnits_eq (b : Bool) (n d : Nat) : roundUnits b n d =
    signBit b ||| BitVec.ofNat 32 (if encoding n d < 0x7F800000 then encoding n d else 0x7F800000) := by
  unfold roundUnits encoding steps spacing
  simp only
  split <;> rfl

theorem mag_roundUnits (b : Bool) (n d : Nat) :
    mag (roundUnits b n d) = if encoding n d < 0x7F800000 then encoding n d else 0x7F800000 := by
  rw [roundUnits_eq, mag_signBit_or]; split <;> omega

theorem sign_roundUnits (b : Bool) (n d : Nat) : sign (roundUnits b n d) = b := by
  rw [roundUnits_eq, sign_signBit_or]; split <;> omega

theorem isNaN_roundUnits (b : Bool) (n d : Nat) : isNaN (roundUnits b n d) = false := by
  unfold isNaN; rw [mag_roundUnits]; split <;> simp <;> omega

theorem finite_iff (x : Fmt) : finite x = true ↔ mag x < 0x7F800000 := by
  unfold finite isNaN isInf; simp; omega

theorem finite_roundUnits (b : Bool) (n d : Nat) :
    finite (roundUnits b n d) = true ↔ encoding n d < 0x7F800000 := by
  rw [finite_iff, mag_roundUnits]; split <;> simp_all

theorem isInf_roundUnits (b : Bool) (n d : Nat) :
    isInf (roundUnits b n d) = true ↔ 0x7F800000 ≤ encoding n d := by
  unfold isInf; rw [mag_roundUnits]; split <;> simp <;> omega

/-- The spacing is right for the magnitude: at least 2^23 steps of it, fewer than 2^24 before rounding. -/
theorem spacing_bounds (n d : Nat) :
    (0 < spacing n d → 2 ^ (23 + spacing n d) ≤ n / d) ∧ n / d < 2 ^ (24 + spacing n d) := by
  unfold spacing
  by_cases h0 : n / d = 0
  · rw [h0]; constructor
    · intro h; exact absurd h (by decide)
    · exact Nat.two_pow_pos _
  · have h1 := Nat.log2_self_le h0
    have h2 : n / d < 2 ^ ((n / d).log2 + 1) := Nat.lt_log2_self
    constructor
    · intro h
      rw [show 23 + ((n / d).log2 - 23) = (n / d).log2 by omega]; exact h1
    · exact Nat.lt_of_lt_of_le h2 (Nat.pow_le_pow_right (by decide) (by omega))

theorem steps_bounds (n d : Nat) : (0 < spacing n d → 2 ^ 23 ≤ steps n d) ∧ steps n d ≤ 2 ^ 24 := by
  have hb := spacing_bounds n d
  have hs := nearestEven_bounds n (d * 2 ^ spacing n d)
  have hdd : n / (d * 2 ^ spacing n d) = n / d / 2 ^ spacing n d := (Nat.div_div_eq_div_mul ..).symm
  unfold steps
  rw [hdd] at hs
  constructor
  · intro h
    have := hb.1 h
    rw [Nat.pow_add] at this
    exact Nat.le_trans ((Nat.le_div_iff_mul_le (Nat.two_pow_pos _)).2 this) hs.1
  · have h2 := hb.2
    rw [Nat.pow_add] at h2
    have := (Nat.div_lt_iff_lt_mul (Nat.two_pow_pos _)).2 h2
    omega

/-- The magnitude of a finite rounded value: whole steps of the spacing. -/
theorem units_roundUnits (b : Bool) (n d : Nat) (h : finite (roundUnits b n d) = true) :
    units (roundUnits b n d) = steps n d * 2 ^ spacing n d := by
  have he := (finite_roundUnits b n d).1 h
  rw [units_eq, mag_roundUnits, if_pos he]
  exact unitsOf_encoding _ _ (steps_bounds n d).1 (steps_bounds n d).2

/-- Every FMT magnitude of at least `2^(23 + k)` units is a multiple of `2^k`. -/
theorem units_dvd (z : Fmt) (k : Nat) (h : 2 ^ (23 + k) ≤ units z) : 2 ^ k ∣ units z := by
  rw [units_eq] at h ⊢
  unfold unitsOf at h ⊢
  split at h
  · have h1 : mag z % 2 ^ 23 < 2 ^ 23 := Nat.mod_lt _ (by decide)
    have h2 : (2 : Nat) ^ 23 ≤ 2 ^ (23 + k) := Nat.pow_le_pow_right (by decide) (by omega)
    omega
  · rename_i hne
    rw [if_neg hne]
    have h1 : mag z % 2 ^ 23 < 2 ^ 23 := Nat.mod_lt _ (by decide)
    have h2 : (2 ^ 23 + mag z % 2 ^ 23) * 2 ^ (mag z / 2 ^ 23 - 1) < 2 ^ 24 * 2 ^ (mag z / 2 ^ 23 - 1) :=
      Nat.mul_lt_mul_of_pos_right (by omega) (Nat.two_pow_pos _)
    have h3 : 2 ^ (23 + k) < 2 ^ (24 + (mag z / 2 ^ 23 - 1)) := by
      rw [Nat.pow_add 2 24]; exact Nat.lt_of_le_of_lt h h2
    have h4 : 23 + k < 24 + (mag z / 2 ^ 23 - 1) := (Nat.pow_lt_pow_iff_right (by decide)).1 h3
    exact Nat.dvd_trans (Nat.pow_dvd_pow 2 (by omega)) (Nat.dvd_mul_left _ _)

/-- The parity of a finite rounded value's encoding is that of its steps. -/
theorem lsb_roundUnits (b : Bool) (n d : Nat) (h : finite (roundUnits b n d) = true) :
    (roundUnits b n d).getLsbD 0 = decide (steps n d % 2 = 1) := by
  have he := (finite_roundUnits b n d).1 h
  have hx : (roundUnits b n d).toNat % 2 = steps n d % 2 := by
    rw [roundUnits_eq, if_pos he, toNat_signBit_or _ _ (by omega)]
    unfold encoding
    cases b <;> simp <;> omega
  rw [BitVec.getLsbD, Nat.testBit_zero, hx]

/-! Monotonicity and exactness. -/

/-- Rounding to an integer keeps the order of `n / d`. -/
theorem nearestEven_mono {n d n' d' : Nat} (hd : 0 < d) (hd' : 0 < d') (h : n * d' ≤ n' * d) :
    nearestEven n d ≤ nearestEven n' d' := by
  have hq : n / d ≤ n' / d' := by
    rw [Nat.le_div_iff_mul_le hd']
    have h1 : n / d * d ≤ n := Nat.div_mul_le_self n d
    have h2 : n / d * d' * d ≤ n' * d := by
      calc n / d * d' * d = n / d * d * d' := by rw [Nat.mul_right_comm]
        _ ≤ n * d' := Nat.mul_le_mul_right _ h1
        _ ≤ n' * d := h
    exact Nat.le_of_mul_le_mul_right h2 hd
  have hb := nearestEven_bounds n d
  have hb' := nearestEven_bounds n' d'
  rcases Nat.lt_or_ge (n / d) (n' / d') with hlt | hge
  · omega
  · have heq : n / d = n' / d' := Nat.le_antisymm hq hge
    have hn : n = d * (n / d) + n % d := (Nat.div_add_mod n d).symm
    have hn' : n' = d' * (n' / d') + n' % d' := (Nat.div_add_mod n' d').symm
    have hr : n % d * d' ≤ n' % d' * d := by
      have e1 : n * d' = n / d * (d * d') + n % d * d' := by
        conv => lhs; rw [hn]
        rw [Nat.add_mul, Nat.mul_comm d (n / d), Nat.mul_assoc]
      have e2 : n' * d = n / d * (d * d') + n' % d' * d := by
        conv => lhs; rw [hn']
        rw [Nat.add_mul, ← heq, Nat.mul_comm d' (n / d), Nat.mul_assoc, Nat.mul_comm d' d]
      omega
    have hlow : 2 * (n' % d') < d' → 2 * (n % d) < d := by
      intro h1
      have a1 : 2 * (n' % d') * d < d' * d := Nat.mul_lt_mul_of_pos_right h1 hd
      have a2 : 2 * (n % d) * d' ≤ 2 * (n' % d') * d := by rw [Nat.mul_assoc, Nat.mul_assoc]; omega
      have a3 : 2 * (n % d) * d' < d * d' := by rw [Nat.mul_comm d d']; omega
      exact Nat.lt_of_mul_lt_mul_right a3
    have hmid : 2 * (n' % d') ≤ d' → 2 * (n % d) ≤ d := by
      intro h1
      have a1 : 2 * (n' % d') * d ≤ d' * d := Nat.mul_le_mul_right _ h1
      have a2 : 2 * (n % d) * d' ≤ 2 * (n' % d') * d := by rw [Nat.mul_assoc, Nat.mul_assoc]; omega
      have a3 : 2 * (n % d) * d' ≤ d * d' := by rw [Nat.mul_comm d d']; omega
      exact Nat.le_of_mul_le_mul_right a3 hd'
    unfold nearestEven
    simp only [heq]
    generalize n' / d' = q
    generalize n % d = r at *
    generalize n' % d' = r' at *
    (repeat' split) <;> omega

/-- Rounding to FMT keeps the order of magnitudes. -/
theorem encoding_mono {n d n' d' : Nat} (hd : 0 < d) (hd' : 0 < d') (h : n * d' ≤ n' * d) :
    encoding n d ≤ encoding n' d' := by
  have hq : n / d ≤ n' / d' := by
    rw [Nat.le_div_iff_mul_le hd']
    have h2 : n / d * d' * d ≤ n' * d := by
      calc n / d * d' * d = n / d * d * d' := by rw [Nat.mul_right_comm]
        _ ≤ n * d' := Nat.mul_le_mul_right _ (Nat.div_mul_le_self n d)
        _ ≤ n' * d := h
    exact Nat.le_of_mul_le_mul_right h2 hd
  have hs : spacing n d ≤ spacing n' d' := by
    unfold spacing
    have : (n / d).log2 ≤ (n' / d').log2 := by
      by_cases h0 : n / d = 0
      · rw [h0]; exact Nat.zero_le _
      · rw [Nat.le_log2 (Nat.ne_of_gt (Nat.lt_of_lt_of_le (Nat.pos_of_ne_zero h0) hq))]
        exact Nat.le_trans (Nat.log2_self_le h0) hq
    omega
  have hb := steps_bounds n d
  have hb' := steps_bounds n' d'
  rcases Nat.lt_or_ge (spacing n d) (spacing n' d') with hlt | hge
  · have := hb'.1 (by omega)
    unfold encoding
    omega
  · have heq : spacing n d = spacing n' d' := Nat.le_antisymm hs hge
    have : steps n d ≤ steps n' d' := by
      unfold steps
      refine nearestEven_mono (Nat.mul_pos hd (Nat.two_pow_pos _)) (Nat.mul_pos hd' (Nat.two_pow_pos _)) ?_
      rw [← heq, ← Nat.mul_assoc, ← Nat.mul_assoc]
      exact Nat.mul_le_mul_right _ h
    unfold encoding
    omega

/-- A multiple of the divisor rounds to itself. -/
theorem nearestEven_exact (m d : Nat) (hd : 0 < d) : nearestEven (m * d) d = m := by
  unfold nearestEven
  simp only [Nat.mul_div_cancel _ hd, Nat.mul_mod_left]
  rw [if_pos (by omega)]

/-- A finite FMT magnitude rounds to itself. -/
theorem encoding_units (x : Fmt) : encoding (units x) 1 = mag x := by
  have hm := mag_lt x
  rw [units_eq]
  generalize mag x = e at hm
  unfold unitsOf
  split
  · rename_i h
    have h1 : e % 2 ^ 23 = e := Nat.mod_eq_of_lt (by omega)
    rw [h1]
    have hs : spacing e 1 = 0 := by
      unfold spacing
      rw [Nat.div_one]
      by_cases h0 : e = 0
      · subst h0; decide
      · have : e.log2 < 23 := (Nat.log2_lt h0).2 (by omega)
        omega
    unfold encoding steps
    rw [hs, Nat.pow_zero]
    have := nearestEven_exact e 1 (by decide)
    rw [Nat.mul_one] at this
    rw [Nat.mul_one, this]; omega
  · rename_i h
    have h2 : e % 2 ^ 23 < 2 ^ 23 := Nat.mod_lt _ (by decide)
    generalize hk : e / 2 ^ 23 - 1 = k
    have hs : spacing ((2 ^ 23 + e % 2 ^ 23) * 2 ^ k) 1 = k := by
      unfold spacing
      rw [Nat.div_one]
      have hne : (2 ^ 23 + e % 2 ^ 23) * 2 ^ k ≠ 0 := Nat.mul_ne_zero (by omega) (Nat.ne_of_gt (Nat.two_pow_pos _))
      have hlo : 2 ^ (23 + k) ≤ (2 ^ 23 + e % 2 ^ 23) * 2 ^ k := by
        rw [Nat.pow_add]; exact Nat.mul_le_mul_right _ (by omega)
      have hhi : (2 ^ 23 + e % 2 ^ 23) * 2 ^ k < 2 ^ (24 + k) := by
        rw [Nat.pow_add 2 24]; exact Nat.mul_lt_mul_of_pos_right (by omega) (Nat.two_pow_pos _)
      have h3 : 23 + k ≤ ((2 ^ 23 + e % 2 ^ 23) * 2 ^ k).log2 := (Nat.le_log2 hne).2 hlo
      have h4 : ((2 ^ 23 + e % 2 ^ 23) * 2 ^ k).log2 < 24 + k := (Nat.log2_lt hne).2 hhi
      omega
    unfold encoding steps
    rw [hs, Nat.one_mul, nearestEven_exact _ _ (Nat.two_pow_pos _)]
    omega

end Sys2Proof.Machine.Fp
end

