-- ==== Sys2Proof/Laws/Legal.lean ====
section
/-! SUPPORT. The clamps of the mutators answer legal values (R22, R27), the boolean words are legal (R25), and what
the reset values are by index (R44). -/

namespace Sys2Proof.Machine

/-- A bit of a word, zero-extended, is 0 or 1 (R25, R92). -/
theorem legalBoolean_booleanWord (w : Word) : legalBoolean (w &&& 1#32) = true := by
  have h : (w &&& 1#32).toNat = w.toNat % 2 := by
    rw [BitVec.toNat_and, show (1#32).toNat = 2 ^ 1 - 1 from rfl, Nat.and_two_pow_sub_one_eq_mod]
  have : w &&& 1#32 = 0#32 ∨ w &&& 1#32 = 1#32 := by
    rcases Nat.mod_two_eq_zero_or_one w.toNat with h0 | h1
    · left; apply BitVec.eq_of_toNat_eq; rw [h, h0]; rfl
    · right; apply BitVec.eq_of_toNat_eq; rw [h, h1]; rfl
  simp [legalBoolean, this]

/-- A value that is no NaN and not below another is at or above it (R19). -/
theorem le_of_not_lt {x y : Fmt} (hx : Fp.isNaN x = false) (hy : Fp.isNaN y = false) (h : Fp.lt x y = false) :
    Fp.le y x = true := by
  simp [Fp.lt, Fp.le, hx, hy] at h ⊢; omega

/-- R202: a stored gain is legal. -/
theorem clampGain_legal (g : Fmt) (h : Fp.isNaN g = false) : legalGain (clampGain g) = true := by
  unfold clampGain
  split
  · decide
  · split
    · decide
    · rename_i h1 h2
      simp [legalGain, le_of_not_lt h (by decide) (Bool.eq_false_iff.2 h2),
        le_of_not_lt (by decide) h (Bool.eq_false_iff.2 h1)]

/-- R206: a stored threshold is legal. -/
theorem clampThr_legal (x : Fmt) (h : Fp.isNaN x = false) : legalThr (clampThr x) = true := by
  unfold clampThr
  split
  · decide
  · rename_i h1; exact le_of_not_lt h (by decide) (Bool.eq_false_iff.2 h1)

/-- R206: a stored ratio is legal. -/
theorem clampRatio_legal (x : Fmt) (h : Fp.isNaN x = false) : legalRatio (clampRatio x) = true := by
  unfold clampRatio
  split
  · decide
  · rename_i h1; exact le_of_not_lt h (by decide) (Bool.eq_false_iff.2 h1)

/-- R206: a stored ceiling is legal. -/
theorem clampCeil_legal (x : Fmt) (h : Fp.isNaN x = false) : legalCeil (clampCeil x) = true := by
  unfold clampCeil
  split
  · decide
  · split
    · decide
    · rename_i h1 h2
      simp [legalCeil, le_of_not_lt h (by decide) (Bool.eq_false_iff.2 h2),
        le_of_not_lt (by decide) h (Bool.eq_false_iff.2 h1)]

/-- Over all band gains, by value or by index. -/
theorem forall_mem_eqg (s : State) (P : Fmt → Prop) : (∀ g ∈ s.eqg.toList, P g) ↔ ∀ i < 31, P (s.eqGain i) := by
  constructor
  · intro h i hi
    apply h; simp [State.eqGain, hi]
  · intro h g hg
    obtain ⟨i, hi, rfl⟩ := List.mem_iff_getElem.1 hg
    simp at hi
    simpa [State.eqGain, hi] using h i hi

/-- Over all band gains, for a test of the EQ (R114). -/
theorem someGain_eq_false (g : Vector Fmt 31) :
    someGain g = false ↔ ∀ i < 31, Fp.isZero (g[i]?.getD 0#32) = true := by
  unfold someGain
  constructor
  · intro h i hi
    have := List.any_eq_false.1 h g[i] (by simp)
    simpa [hi] using this
  · intro h
    refine List.any_eq_false.2 fun x hx => ?_
    obtain ⟨i, hi, rfl⟩ := List.mem_iff_getElem.1 hx
    simp at hi
    simpa [hi] using h i hi

/-- R29, R44: a channel word after reset. -/
theorem reset_chWord (c p : Nat) (hc : c < 6) (hp : p < 8) : State.reset.chWord c p = chAfterReset c p := by
  simp only [State.chWord, State.reset, getElem?_vecOf, hc, if_true, Option.bind_some, hp, Option.getD_some]

end Sys2Proof.Machine
end

