-- ==== Sys2Proof/Laws/PerInstr.lean ====
section
/-! SUPPORT. Statements about every instruction, one lemma per constructor. -/

/-- The fixed bits of a command's word are those of its row in spec/opcode_table.json: the mask is the `op` field, the
match its value (R86). -/
def Sys2Proof.Laws.TableRow.Statement (i : Sys2Proof.Instr) : Prop :=
  Sys2Proof.encode i &&& 0xFF00000000000000#64 = i.opcode ++ 0#56 ∧
    Sys2Proof.fieldOp (Sys2Proof.encode i) = i.opcode

namespace Sys2Proof.Laws.TableRow

/-- The mask of the table keeps the `op` field of a packed word. -/
theorem pack_masked (op a b fl : BitVec 8) (v : Word) :
    pack op a b fl v &&& 0xFF00000000000000#64 = op ++ 0#56 ∧ fieldOp (pack op a b fl v) = op := by
  have hm : (0xFF00000000000000#64 : Cmd) = 0xFF#8 ++ 0#56 := by decide
  constructor
  · apply BitVec.eq_of_getLsbD_eq; intro i hi
    have hones : ∀ j < 8, (0xFF#8).getLsbD j = true := by decide
    rw [hm, BitVec.getLsbD_and]
    simp only [pack, BitVec.getLsbD_append]
    by_cases h : i < 56
    · simp [h]
    · have h1 := hones (i - 56) (by omega)
      rw [if_neg h, if_neg h, h1, Bool.and_true]
      rw [if_neg (by omega), if_neg (by omega), if_neg (by omega), if_neg (by omega)]
      congr 1
  · apply BitVec.eq_of_getLsbD_eq; intro i hi
    simp [fieldOp, pack, hi]; grind

theorem nop : Statement .nop := pack_masked ..
theorem start : Statement .start := pack_masked ..
theorem stop : Statement .stop := pack_masked ..
theorem process (n sr : Nat) : Statement (.process n sr) := pack_masked ..
theorem seteq (i : Nat) (g : Word) : Statement (.seteq i g) := pack_masked ..
theorem setch (ch par : Nat) (val : Word) : Statement (.setch ch par val) := pack_masked ..
theorem setdyn (comp lim : Bool) : Statement (.setdyn comp lim) := pack_masked ..
theorem setbass (g : Word) : Statement (.setbass g) := pack_masked ..
theorem setdynp (sel : Nat) (val : Word) : Statement (.setdynp sel val) := pack_masked ..
theorem getsnap : Statement .getsnap := pack_masked ..
theorem getlevels : Statement .getlevels := pack_masked ..
theorem gethist (sel : Nat) : Statement (.gethist sel) := pack_masked ..
theorem getstat : Statement .getstat := pack_masked ..
theorem cfgsave : Statement .cfgsave := pack_masked ..
theorem cfgload : Statement .cfgload := pack_masked ..

end Sys2Proof.Laws.TableRow
end

