-- ==== Sys2Proof/Laws/Reference.lean ====
section
/-! SUPPORT. The real-valued reference of each class T operation (R15, R17, R111, R157), what it means for a
`Numerics` record to agree with them, and those of the properties P1 to P9 of 93_implementation_defined.md that the
wrappers of Machine/Numeric.lean rely on, proved of the references. No definition of the machine reads this file. -/

namespace Sys2Proof.Reference

open Sys2Proof.Machine

/-- The real number a finite FMT value stands for. -/
noncomputable def value (x : Fmt) : ℝ := (Fp.sunits x : ℝ) / 2 ^ 149

/-- The complex number a bin stands for. -/
noncomputable def cvalue (z : Cplx) : ℂ := ⟨value z.re, value z.im⟩

/-- `10^x`. -/
noncomputable def pow10 (x : ℝ) : ℝ := (10 : ℝ) ^ x

/-- `log10 x`, for `x > 0`. -/
noncomputable def log10 (x : ℝ) : ℝ := Real.logb 10 x

/-- The arithmetic mean. -/
noncomputable def mean (xs : List ℝ) : ℝ := xs.sum / xs.length

/-- `sqrt (mean x^2)` (R171). -/
noncomputable def rms (xs : List ℝ) : ℝ := Real.sqrt (mean (xs.map fun x => x ^ 2))

/-- The symmetric Hann window of length 512 (R157). -/
noncomputable def hann (n : ℕ) : ℝ := 1 / 2 - 1 / 2 * Real.cos (2 * Real.pi * n / 511)

/-- `exp (2 pi i m / 512)`. -/
noncomputable def root (m : ℤ) : ℂ := Complex.exp (2 * Real.pi * Complex.I * m / 512)

/-- The forward transform (R111). -/
noncomputable def dft (u : ℕ → ℝ) (k : ℕ) : ℂ := ∑ n ∈ Finset.range 512, (u n : ℂ) * root (-(k * n))

/-- The inverse transform (R111). -/
noncomputable def idft (bins : ℕ → ℂ) (n : ℕ) : ℂ := (1 / 512) * ∑ k ∈ Finset.range 512, bins k * root (k * n)

/-- A record agrees with the references within `tol`, wherever operands and results are finite. The source bounds
the difference by "numeric tolerance" and gives no number (R16), so `tol` is a parameter. -/
structure Conforms (tol : ℝ) (num : Config.Numerics) : Prop where
  pow10 : ∀ x, Fp.finite x = true → Fp.finite (num.pow10 x) = true → |value (num.pow10 x) - pow10 (value x)| ≤ tol
  log10 : ∀ x, Fp.finite x = true → 0 < value x → |value (num.log10p x) - log10 (value x)| ≤ tol
  rms : ∀ xs, xs.all Fp.finite = true → Fp.finite (num.rms xs) = true → |value (num.rms xs) - rms (xs.map value)| ≤ tol
  mean : ∀ xs, xs.all Fp.finite = true → Fp.finite (num.mean xs) = true →
    |value (num.mean xs) - mean (xs.map value)| ≤ tol
  hann : ∀ n < 512, |value (num.hann n) - hann n| ≤ tol
  dft : ∀ (u : List Fmt) (k : ℕ), u.length = 512 → u.all Fp.finite = true → k < 512 →
    Fp.finite (num.dft512 u k).re = true → Fp.finite (num.dft512 u k).im = true →
    ‖cvalue (num.dft512 u k) - dft (fun n => value (u.getD n 0#32)) k‖ ≤ tol
  idft : ∀ (bins : List Cplx) (n : ℕ), bins.length = 512 → n < 512 →
    Fp.finite (num.idft512 bins n).re = true → Fp.finite (num.idft512 bins n).im = true →
    ‖cvalue (num.idft512 bins n) - idft (fun k => cvalue (bins.getD k ⟨0#32, 0#32⟩)) n‖ ≤ tol
  cabs : ∀ z, Fp.finite z.re = true → Fp.finite z.im = true → Fp.finite (num.cabs z) = true →
    |value (num.cabs z) - ‖cvalue z‖| ≤ tol

/-! Properties of the references. -/

/-- P9: the window is zero at both ends. -/
theorem hann_ends : hann 0 = 0 ∧ hann 511 = 0 := by
  constructor
  · simp [hann]
  · have : (2 * Real.pi * (511 : ℕ) / 511 : ℝ) = 2 * Real.pi := by push_cast; ring
    rw [hann, this, Real.cos_two_pi]; norm_num

/-- P9: the window lies in [0, 1]. -/
theorem hann_mem (n : ℕ) : 0 ≤ hann n ∧ hann n ≤ 1 := by
  have h1 := Real.cos_le_one (2 * Real.pi * n / 511)
  have h2 := Real.neg_one_le_cos (2 * Real.pi * n / 511)
  unfold hann
  constructor <;> linarith

/-- P9: the window is its own mirror image. -/
theorem hann_mirror (n : ℕ) (h : n ≤ 511) : hann (511 - n) = hann n := by
  have : (2 * Real.pi * ((511 - n : ℕ) : ℝ) / 511) = 2 * Real.pi - 2 * Real.pi * n / 511 := by
    rw [Nat.cast_sub h]; push_cast; ring
  rw [hann, this, Real.cos_two_pi_sub, hann]

/-- P4: the transform of silence is zero. -/
theorem dft_zero (k : ℕ) : dft (fun _ => 0) k = 0 := by simp [dft]

/-- P7: the RMS of a block is not negative, and zero for silence. -/
theorem rms_nonneg (xs : List ℝ) : 0 ≤ rms xs := Real.sqrt_nonneg _

theorem rms_zeros (n : ℕ) : rms (List.replicate n 0) = 0 := by simp [rms, mean]

/-- P8: the mean of values that are not negative is not negative. -/
theorem mean_nonneg (xs : List ℝ) (h : ∀ x ∈ xs, 0 ≤ x) : 0 ≤ mean xs :=
  div_nonneg (List.sum_nonneg h) (by positivity)

/-- P5: `10^0 = 1`, and `10^x` is positive and strictly increasing. -/
theorem pow10_facts : pow10 0 = 1 ∧ (∀ x, 0 < pow10 x) ∧ StrictMono pow10 := by
  refine ⟨by simp [pow10], fun x => by unfold pow10; positivity, fun x y h => ?_⟩
  exact Real.rpow_lt_rpow_of_exponent_lt (by norm_num) h

/-- From exponent 39 on `10^x` is above the largest finite FMT value, `(2^24 - 1) * 2^104` (R15). -/
theorem pow10_overflows (x : ℝ) (h : 39 ≤ x) : ((2 : ℝ) ^ 24 - 1) * 2 ^ 104 < pow10 x := by
  have h1 : pow10 39 ≤ pow10 x := pow10_facts.2.2.monotone h
  have h2 : pow10 39 = 10 ^ 39 := by
    have := Real.rpow_natCast (10 : ℝ) 39
    unfold pow10; exact_mod_cast this
  rw [h2] at h1
  have h3 : ((2 : ℝ) ^ 24 - 1) * 2 ^ 104 < 10 ^ 39 := by norm_num
  linarith

theorem root_add (a b : ℤ) : root (a + b) = root a * root b := by
  unfold root
  rw [← Complex.exp_add]
  congr 1
  push_cast; ring

theorem root_period (a : ℤ) : root (512 * a) = 1 := by
  have : (2 * Real.pi * Complex.I * ((512 * a : ℤ) : ℂ) / 512 : ℂ) = a * (2 * Real.pi * Complex.I) := by
    push_cast; ring
  rw [root, this, Complex.exp_int_mul_two_pi_mul_I]

theorem root_conj (a : ℤ) : (starRingEnd ℂ) (root a) = root (-a) := by
  unfold root
  rw [← Complex.exp_conj]
  congr 1
  rw [map_div₀]
  simp only [map_mul, map_intCast, map_ofNat, Complex.conj_ofReal, Complex.conj_I]
  push_cast; ring

/-- P2: for a real block the counterpart bin is the complex conjugate. -/
theorem dft_counterpart (u : ℕ → ℝ) (k : ℕ) (h : k ≤ 512) : dft u (512 - k) = (starRingEnd ℂ) (dft u k) := by
  unfold dft
  rw [map_sum]
  refine Finset.sum_congr rfl fun n _ => ?_
  rw [map_mul, Complex.conj_ofReal, root_conj]
  congr 1
  have : (-(((512 - k : ℕ) : ℤ) * n) : ℤ) = 512 * (-n) + (k * n) := by
    rw [Nat.cast_sub h]; push_cast; ring
  rw [this, root_add, root_period, one_mul, neg_neg]

/-- P3: bins that are conjugate to their counterparts come from a real block: taking the real part (R118) discards
nothing. -/
theorem idft_real (bins : ℕ → ℂ) (h0 : (bins 0).im = 0)
    (h : ∀ k, 1 ≤ k → k < 512 → bins (512 - k) = (starRingEnd ℂ) (bins k)) (n : ℕ) : (idft bins n).im = 0 := by
  have key : (starRingEnd ℂ) (∑ k ∈ Finset.range 512, bins k * root (k * n)) =
      ∑ k ∈ Finset.range 512, bins k * root (k * n) := by
    have h512 : (0 : ℕ) ∈ Finset.range 512 := Finset.mem_range.2 (by norm_num)
    rw [map_sum, ← Finset.add_sum_erase _ _ h512, ← Finset.add_sum_erase _ (fun k => bins k * root (k * n)) h512]
    refine congrArg₂ (· + ·) ?_ ?_
    · rw [map_mul, root_conj, Complex.conj_eq_iff_im.2 h0]; simp
    · refine Finset.sum_nbij' (fun k => 512 - k) (fun k => 512 - k) ?_ ?_ ?_ ?_ ?_ <;>
        simp only [Finset.mem_erase, Finset.mem_range]
      · intro k hk; omega
      · intro k hk; omega
      · intro k hk; omega
      · intro k hk; omega
      · intro k hk
        rw [map_mul, root_conj, h k (by omega) hk.2]
        congr 1
        have : (((512 - k : ℕ) : ℤ) * n : ℤ) = 512 * n + -(k * n) := by
          rw [Nat.cast_sub (by omega)]; push_cast; ring
        rw [this, root_add, root_period, one_mul]
  have hr := Complex.conj_eq_iff_im.1 key
  unfold idft
  rw [Complex.mul_im, hr]
  norm_num

end Sys2Proof.Reference
end

