-- ==== Sys2Proof/Laws/Streams.lean ====
section
/-! SUPPORT. What a command does to the streams of the ports, said once (R61, R82, R83): it takes words from DIN of
its own port and appends words to DOUT of its own port, and every other stream stays. -/

namespace Sys2Proof.Machine

variable {s t u : State}

/-- The inputs and the arbiter, but for the fault draw. -/
structure SameArbiter (s t : State) : Prop where
  rst : t.rst = s.rst
  turn : t.turn = s.turn
  due : ∀ p, (t.port p).due = (s.port p).due

theorem dinDrop_zero_port (s : State) (p : Port) : (s.dinDrop 0).port p = s.port p := by
  rw [dinDrop_port]; split <;> simp_all

/-- Data words taken and nothing answered. -/
theorem streamed_dinDrop (n : Nat) (hc : t.cur = s.cur) (h : ∀ p, t.port p = (s.dinDrop n).port p) :
    Streamed s t n [] := by
  constructor
  · exact hc
  all_goals intro p; by_cases hp : p = s.cur <;> simp [h, hp]

/-- No stream changes when no port does. -/
theorem streamed_of_ports (hc : t.cur = s.cur) (h : ∀ p, t.port p = s.port p) : Streamed s t 0 [] :=
  streamed_dinDrop 0 hc fun p => (h p).trans (dinDrop_zero_port s p).symm

/-- A response appended after `n` data words were taken. -/
theorem streamed_respond (op st : BitVec 8) (n : Nat) (ws : List Word) (hc : u.cur = s.cur)
    (h : ∀ p, u.port p = (s.dinDrop n).port p) :
    Streamed s (u.respond op st ws) n (header op st ws.length :: ws) := by
  constructor
  · simp [hc]
  all_goals intro p; by_cases hp : p = s.cur <;> simp [hc, h, hp]

/-- A response by itself. -/
theorem streamed_respond_self (s : State) (op st : BitVec 8) (ws : List Word) :
    Streamed s (s.respond op st ws) 0 (header op st ws.length :: ws) :=
  streamed_respond op st 0 ws rfl fun p => (dinDrop_zero_port s p).symm

theorem sameArbiter_dinDrop (n : Nat) (h : ∀ p, t.port p = (s.dinDrop n).port p) (hr : t.rst = s.rst)
    (ht : t.turn = s.turn) : SameArbiter s t := by
  refine ⟨hr, ht, fun p => ?_⟩
  by_cases hp : p = s.cur <;> simp [h, hp]

theorem sameArbiter_respond (op st : BitVec 8) (n : Nat) (ws : List Word) (hc : u.cur = s.cur)
    (h : ∀ p, u.port p = (s.dinDrop n).port p) (hr : u.rst = s.rst) (ht : u.turn = s.turn) :
    SameArbiter s (u.respond op st ws) := by
  refine ⟨by simp [hr], by simp [ht], fun p => ?_⟩
  by_cases hp : p = s.cur <;> simp [hc, h, hp]

theorem commitBlock_port (num : Config.Numerics) (xf : BitVec 6) (x : List Fmt) (sr : Nat) (s : State) (p : Port) :
    (commitBlock num xf x sr s).port p = s.port p := by cases p <;> rfl

theorem redraw_streamed {n : Nat} {ws : List Word} (h : Streamed s t n ws) : Streamed s t.redraw n ws := by
  constructor
  · exact h.cur
  · simpa using h.cmd
  · simpa using h.din
  · simpa using h.dout

/-- PROCESS in Active: the words it takes and the response it appends (R183, R189). -/
theorem streamed_process (num : Config.Numerics) (xf : BitVec 6) (x : List Fmt) (sr n : Nat) (s : State) :
    Streamed s (processActive num xf x sr (s.dinDrop n)).redraw n
      (header 0x03#8 (ranStatus (stageFailures num xf x sr (s.dinDrop n)))
        (audioChain num xf (s.dinDrop n) x sr).block.length :: (audioChain num xf (s.dinDrop n) x sr).block) :=
  redraw_streamed (streamed_respond _ _ n _ (by simp [commitBlock]) fun p => commitBlock_port ..)

/-- CFGLOAD: the words it takes (R207). -/
theorem loadFields_streamed (m r : List Word) (js : List Nat) (n : Nat) (s : State) :
    Streamed s (js.foldl (State.loadField m r) (s.dinDrop n)) n [] := by
  refine streamed_dinDrop n ?_ (fun p => loadFields_port ..)
  have h := congrArg State.cur (loadFields_restore (s.dinDrop n) m r js)
  simpa using h

/-- Every command waits with nothing changed, or answers a next state in which it has taken words from its own DIN
and appended words to its own DOUT. -/
theorem exec_streams (i : Instr) (s : State) :
    exec i s = .next s ∨
    ∃ t n ws, exec i s = .next t ∧ Streamed s t n ws ∧ SameArbiter s t := by
  have quiet : ∀ u : State, u.cur = s.cur → (∀ p, u.port p = s.port p) → u.rst = s.rst → u.turn = s.turn →
      ∃ t n ws, (.next u : Outcome) = .next t ∧ Streamed s t n ws ∧ SameArbiter s t := fun u hc hp hr ht =>
    ⟨u, 0, [], rfl, streamed_of_ports hc hp, sameArbiter_dinDrop 0 (fun p => (hp p).trans (dinDrop_zero_port s p).symm) hr ht⟩
  have answer : ∀ op st ws, ∃ t n ws', (.next (s.respond op st ws) : Outcome) = .next t ∧ Streamed s t n ws' ∧
      SameArbiter s t := fun op st ws =>
    ⟨_, 0, _, rfl, streamed_respond_self s op st ws,
      sameArbiter_respond op st 0 ws rfl (fun p => (dinDrop_zero_port s p).symm) rfl rfl⟩
  cases i
  case nop => exact .inl rfl
  case getsnap => exact .inr (answer _ _ _)
  case getlevels => exact .inr (answer _ _ _)
  case gethist => exact .inr (answer _ _ _)
  case getstat => exact .inr (answer _ _ _)
  case cfgsave => exact .inr (answer _ _ _)
  case start => exact .inr (quiet _ rfl (fun p => by cases p <;> rfl) rfl rfl)
  case stop => exact .inr (quiet _ rfl (fun p => by cases p <;> rfl) rfl rfl)
  case setdyn => exact .inr (quiet _ rfl (fun p => by cases p <;> rfl) rfl rfl)
  case seteq => exact .inr (quiet _ (by simp) (fun p => by simp) (by simp) (by simp))
  case setch => exact .inr (quiet _ (by simp) (fun p => by simp) (by simp) (by simp))
  case setbass =>
    right
    simp only [exec, execSetbass]
    split <;> exact quiet _ rfl (fun p => by cases p <;> rfl) rfl rfl
  case setdynp =>
    right
    simp only [exec, execSetdynp]
    (repeat' split) <;> exact quiet _ rfl (fun p => by cases p <;> rfl) rfl rfl
  case process n sr =>
    cases hd : s.dinHolds n
    · exact .inl (execProcess_waits hd)
    · right
      cases he : s.eng
      · exact ⟨_, n, _, execProcess_idle hd he, streamed_respond _ _ n _ (by simp) fun _ => rfl,
          sameArbiter_respond _ _ n _ (by simp) (fun _ => rfl) (by simp) (by simp)⟩
      · refine ⟨_, n, _, execProcess_active hd he, streamed_process .., ?_⟩
        have h := sameArbiter_respond (s := s) (u := commitBlock Config.numerics s.xf (s.dinWords n) sr (s.dinDrop n))
          0x03#8 (ranStatus (stageFailures Config.numerics s.xf (s.dinWords n) sr (s.dinDrop n))) n
          (audioChain Config.numerics s.xf (s.dinDrop n) (s.dinWords n) sr).block
          (by simp [commitBlock]) (fun p => commitBlock_port ..) (by simp [commitBlock]) (by simp [commitBlock])
        exact ⟨h.rst, h.turn, fun p => by simpa [processActive] using h.due p⟩
  case cfgload =>
    cases hd : s.dinHolds 82
    · exact .inl (by simp [exec, execCfgload, hd])
    · right
      refine ⟨_, 82, [], by simp only [exec, execCfgload, hd, if_true]; rfl, loadFields_streamed .., ?_⟩
      refine sameArbiter_dinDrop 82 (fun p => loadFields_port ..) ?_ ?_
      · simpa using congrArg State.rst (loadFields_restore (s.dinDrop 82) ((s.dinWords 82).take 3)
          ((s.dinWords 82).drop 3) (List.range Config.nrecord))
      · simpa using congrArg State.turn (loadFields_restore (s.dinDrop 82) ((s.dinWords 82).take 3)
          ((s.dinWords 82).drop 3) (List.range Config.nrecord))

/-- The same for any command word, a reserved one included. -/
theorem execWord_streams (w : Cmd) (s : State) :
    ∃ t n ws, execWord w s = .next t ∧ Streamed s t n ws ∧ SameArbiter s t := by
  have still : Streamed s s 0 [] := streamed_of_ports rfl fun _ => rfl
  cases hd : decode w with
  | ok i =>
    rw [execWord_ok hd]
    rcases exec_streams i s with h | h
    · exact ⟨s, 0, [], h, still, rfl, rfl, fun _ => rfl⟩
    · exact h
  | error e =>
    rw [execWord_error hd]
    exact ⟨_, 0, [], rfl, streamed_of_ports rfl fun p => by cases p <;> rfl, rfl, rfl, fun p => by cases p <;> rfl⟩

/-- A step that serves port `q` leaves the other ports, and puts `q` behind every port whose `due` is not above the
turn count (log 10). -/
theorem step_served {s : State} {q : Port} (hr : s.rst = false) (hq : s.pick = some q) :
    ∃ t, step s = .next t ∧ t.rst = false ∧ t.turn = s.turn + 1 ∧ s.turn + 1 ≤ (t.port q).due ∧
      ∀ r, r ≠ q → t.port r = s.port r := by
  obtain ⟨t, n, ws, h1, h2, h3⟩ := execWord_streams (s.headWord q) (s.take q)
  refine ⟨t, by simp [step, hr, hq, h1], by rw [h3.rst]; simp [hr], by rw [h3.turn]; rfl, ?_, ?_⟩
  · rw [h3.due]; simp
  · intro r hne
    have e1 := h2.cmd r
    have e2 := h2.din r
    have e3 := h2.dout r
    have e4 := h3.due r
    simp only [take_cur, take_port, hne, if_false] at e1 e2 e3 e4
    cases hx : t.port r
    cases hy : s.port r
    simp_all

end Sys2Proof.Machine
end

