-- ==== Sys2Proof/Machine/Asm.lean ====
section
/-! DEFINITION. The assembler text form (R100) and the names DSPAPP uses for the commands (R101): one line of text
to a command or a directive. It belongs to tools, not to the engine (log 26). -/

namespace Sys2Proof.Machine.Asm

/-- What a line says: a command, the port of the following commands, data words for DIN of that port, or nothing. -/
inductive Item where
  | command (i : Instr)
  | port (p : Port)
  | din (ws : List Word)
  | blank
deriving DecidableEq, Repr

/-- A blank character. -/
def isBlank (c : Char) : Bool := c == ' ' || c == '\t'

/-- Blanks removed from both ends. -/
def trim (cs : List Char) : List Char := ((cs.dropWhile isBlank).reverse.dropWhile isBlank).reverse

/-- The pieces between separators. -/
def splitAtChar (sep : Char) : List Char → List (List Char)
  | [] => [[]]
  | c :: cs =>
    match splitAtChar sep cs with
    | [] => [[c]]
    | p :: ps => if c == sep then [] :: p :: ps else (c :: p) :: ps

/-- The value of a digit in base 16. -/
def digit (c : Char) : Option Nat :=
  if '0' ≤ c ∧ c ≤ '9' then some (c.toNat - '0'.toNat)
  else if 'a' ≤ c ∧ c ≤ 'f' then some (c.toNat - 'a'.toNat + 10)
  else if 'A' ≤ c ∧ c ≤ 'F' then some (c.toNat - 'A'.toNat + 10)
  else none

/-- Digits in a base, read after `acc`. -/
def digitsFrom (base : Nat) (acc : Nat) : List Char → Option Nat
  | [] => some acc
  | c :: cs =>
    match digit c with
    | some d => if d < base then digitsFrom base (acc * base + d) cs else none
    | none => none

/-- A non-empty run of digits. -/
def digits (base : Nat) (cs : List Char) : Option Nat := if cs.isEmpty then none else digitsFrom base 0 cs

/-- A number: decimal, or hexadecimal after `0x`. -/
def number (cs : List Char) : Option Nat :=
  match cs with
  | '0' :: 'x' :: hs => digits 16 hs
  | _ => digits 10 cs

/-- An unsigned decimal real, rounded with `rnd` (R15). -/
def decimal (negative : Bool) (cs : List Char) : Option Word :=
  match splitAtChar '.' cs with
  | [whole] => (digits 10 whole).map fun n => Fp.rnd negative n 1
  | [whole, frac] =>
    match digits 10 whole, digits 10 frac with
    | some n, some f => some (Fp.rnd negative (n * 10 ^ frac.length + f) (10 ^ frac.length))
    | _, _ => none
  | _ => none

/-- A value operand: `0x` and eight digits for the raw word, else a decimal real. -/
def value (cs : List Char) : Option Word :=
  match cs with
  | '0' :: 'x' :: hs => if hs.length = 8 then (digits 16 hs).map (BitVec.ofNat 32) else none
  | '-' :: ds => decimal true ds
  | '+' :: ds => decimal false ds
  | _ => decimal false cs

/-- A name from a list of names, or a number: names count from 0. -/
def named (names : List String) (cs : List Char) : Option Nat :=
  match names.findIdx? (fun n => n.toList == cs) with
  | some k => some k
  | none => number cs

/-- Channel names (R24). -/
def channelNames : List String := ["FL", "FR", "RL", "RR", "SUB", "CTR"]
/-- Parameter names (R25). -/
def paramNames : List String := ["gain", "volume", "highpass", "lowpass", "delay", "phase", "mute", "bypass"]
/-- SETDYNP selector names (R90). -/
def dynNames : List String := ["THR", "RATIO", "CEIL"]
/-- GETHIST selector names (R91). -/
def histNames : List String := ["RMS", "PEAK"]

/-- A data word: a number below 2^32. -/
def dataWord (cs : List Char) : Option Word :=
  match number cs with
  | some n => if n < 2 ^ 32 then some (BitVec.ofNat 32 n) else none
  | none => none

/-- A flag operand, 0 or 1. -/
def flag (cs : List Char) : Option Bool :=
  match number cs with
  | some 0 => some false
  | some 1 => some true
  | _ => none

/-- The value of SETCH: a word for mute and bypass (R92), else a value operand. -/
def channelOperand (par : Nat) (cs : List Char) : Option Word :=
  if par = 6 ∨ par = 7 then dataWord cs else value cs

/-- A command from its mnemonic and operands, before the range check. -/
def commandOf (mnemonic : String) (ops : List (List Char)) : Option Instr :=
  match mnemonic, ops with
  | "NOP", [] => some .nop
  | "START", [] => some .start
  | "STOP", [] => some .stop
  | "PROCESS", [n, sr] => (number n).bind fun n => (number sr).map fun sr => .process n sr
  | "SETEQ", [i, g] => (number i).bind fun i => (value g).map fun g => .seteq i g
  | "SETCH", [c, p, v] =>
    (named channelNames c).bind fun c => (named paramNames p).bind fun p => (channelOperand p v).map fun v => .setch c p v
  | "SETDYN", [c, l] => (flag c).bind fun c => (flag l).map fun l => .setdyn c l
  | "SETBASS", [g] => (value g).map fun g => .setbass g
  | "SETDYNP", [s, v] => (named dynNames s).bind fun s => (value v).map fun v => .setdynp s v
  | "GETSNAP", [] => some .getsnap
  | "GETLEVELS", [] => some .getlevels
  | "GETHIST", [s] => (named histNames s).map fun s => .gethist s
  | "GETSTAT", [] => some .getstat
  | "CFGSAVE", [] => some .cfgsave
  | "CFGLOAD", [] => some .cfgload
  | _, _ => none

/-- A line from its first word and the operands after it. -/
def itemOf (head : String) (ops : List (List Char)) : Option Item :=
  match head, ops with
  | ".port", [p] =>
    if p == ['P'] then some (.port .P) else if p == ['C'] then some (.port .C)
    else if p == ['D'] then some (.port .D) else none
  | ".din", ws => (ws.mapM dataWord).map .din
  | m, ops => (commandOf m ops).bind fun i => if i.wf then some (.command i) else none

/-- One line of text (R100): `;` starts a comment, operands are separated by commas. -/
def line (text : String) : Option Item :=
  let cs := trim (text.toList.takeWhile (· != ';'))
  let head := cs.takeWhile fun c => !isBlank c
  let rest := trim (cs.drop head.length)
  if head.isEmpty then some .blank
  else itemOf (String.ofList head) (if rest.isEmpty then [] else (splitAtChar ',' rest).map trim)

/-- The names of DSPAPP and the mnemonic of each (R101; C7). -/
def dspappNames : List (String × String) :=
  [("process", "PROCESS"), ("start", "START"), ("stop", "STOP"), ("setEqBand", "SETEQ"), ("setBandGain", "SETEQ"),
   ("setChannel", "SETCH"), ("setChannelParameter", "SETCH"), ("setDynamics", "SETDYN"),
   ("setBassBoost", "SETBASS"), ("getAnalysisSnapshot", "GETSNAP"), ("getLevels", "GETLEVELS")]

end Sys2Proof.Machine.Asm
end

