-- ==== Sys2Proof/Tests/Slice0.lean ====
section
/-! SUPPORT. The model's own tests: ill-formed commands, the words of the spec's tables, its worked examples (expected
values from spec/95_test_vectors.md and the examples of the stage files), and for every obligation with hypotheses a
concrete state and operands that meet them. -/

namespace Sys2Proof.Tests

open Sys2Proof.Machine

/-! A small state, and a small `Numerics` record for the class T values the examples name. -/

/-- A port with nothing on it. -/
def quiet : PortState := { cmd := [], din := [], dout := [], due := 0 }

/-- The values the spec gives for reset, zero where it gives none. -/
def base : State :=
  { eqg := Vector.replicate 31 0#32, ch := Vector.replicate 6 (Vector.replicate 8 0#32)
    compEn := false, limEn := false, thr := 0x3F333333#32, ratio := 0x40800000#32, ceil := 0x3F733333#32
    bass := 0#32, attackTc := 0#32, releaseTc := 0#32, eng := .idle, sr := 0#32, flt := 0#7
    spec := Vector.replicate 256 0#32, blev := Vector.replicate 31 0#32, hrms := [], hpeak := []
    portP := quiet, portC := quiet, portD := quiet, rst := false, xf := 0#6, draws := 0, turn := 0, cur := .P }

/-- The same with a command and data words on port P. -/
def withP (cmd : List Cmd) (din : List Word) : State := { base with portP := { quiet with cmd := cmd, din := din } }

/-- The same, Active, with data words on port P. -/
def active (din : List Word) : State := { base with eng := .active, portP := { quiet with din := din } }

/-- The state after a command, the state itself if there is none. -/
def after (o : Outcome) (s : State) : State :=
  match o with
  | .next t => t
  | .fault _ => s
  | .refused _ => s

/-- `exec` from `base`, then what port P answered. -/
def answer (i : Instr) (s : State) : List Word := (after (exec i s) s).portP.dout

/-- A record with the class T values of the examples: `10^1`, `10^2`, and the RMS of samples of one magnitude. -/
def num : Config.Numerics :=
  { pow10 := fun x => if x = 0x3F800000#32 then 0x41200000#32 else if x = 0x40000000#32 then 0x42C80000#32 else 0x3F800000#32
    log10p := fun x => x
    rms := fun xs => xs.headD 0#32
    mean := fun xs => xs.headD 0#32
    hann := fun _ => 0x3F000000#32
    dft512 := fun u k => { re := u.getD k 0#32, im := 0#32 }
    idft512 := fun bins n => bins.getD n { re := 0#32, im := 0#32 }
    cabs := fun z => z.re }

/-- The same with transforms that answer 1.0 everywhere, which the kernel evaluates at once. -/
def flat : Config.Numerics :=
  { num with dft512 := fun _ _ => { re := 0x3F800000#32, im := 0#32 }
             idft512 := fun _ _ => { re := 0x3F800000#32, im := 0#32 } }

/-! WellFormed refuses an ill-formed term for each of its checks (R100). -/

theorem test_wf_process_length : Instr.wf (.process 65536 44100) = false := by decide
theorem test_wf_process_rate : Instr.wf (.process 512 (2 ^ 32)) = false := by decide
theorem test_wf_seteq_index : Instr.wf (.seteq 256 0#32) = false := by decide
theorem test_wf_setch_channel : Instr.wf (.setch 256 0 0#32) = false := by decide
theorem test_wf_setch_parameter : Instr.wf (.setch 0 256 0#32) = false := by decide
theorem test_wf_setdynp_selector : Instr.wf (.setdynp 256 0#32) = false := by decide
theorem test_wf_gethist_selector : Instr.wf (.gethist 256) = false := by decide

/-! Decoding: words written out from R80, R81, R86 (95_test_vectors.md section 2, R103). -/

theorem test_decode_nop : decode 0x0000000000000000#64 = .ok .nop := rfl
theorem test_decode_start : decode 0x0100000000000000#64 = .ok .start := rfl
theorem test_decode_stop : decode 0x0200000000000000#64 = .ok .stop := rfl
theorem test_decode_process : decode 0x030200000000AC44#64 = .ok (.process 512 44100) := rfl
theorem test_decode_process_largest : decode 0x03FFFF00FFFFFFFF#64 = .ok (.process 65535 4294967295) := rfl
theorem test_decode_seteq : decode 0x101E0000C1400000#64 = .ok (.seteq 30 0xC1400000#32) := rfl
theorem test_decode_setch : decode 0x11000600FFFFFFFF#64 = .ok (.setch 0 6 0xFFFFFFFF#32) := rfl
theorem test_decode_setch_ctr : decode 0x1105070000000002#64 = .ok (.setch 5 7 2#32) := rfl
theorem test_decode_setdyn : decode 0x1200000200000000#64 = .ok (.setdyn false true) := rfl
theorem test_decode_setdyn_reserved : decode 0x120000FC00000000#64 = .ok (.setdyn false false) := rfl
theorem test_decode_setbass : decode 0x1300000041A00000#64 = .ok (.setbass 0x41A00000#32) := rfl
theorem test_decode_setdynp : decode 0x140001003F000000#64 = .ok (.setdynp 1 0x3F000000#32) := rfl
theorem test_decode_getsnap : decode 0x2000000000000000#64 = .ok .getsnap := rfl
theorem test_decode_getlevels : decode 0x2100000000000000#64 = .ok .getlevels := rfl
theorem test_decode_gethist : decode 0x2202000000000000#64 = .ok (.gethist 2) := rfl
theorem test_decode_getstat : decode 0x2300000000000000#64 = .ok .getstat := rfl
theorem test_decode_cfgsave : decode 0x3000000000000000#64 = .ok .cfgsave := rfl
theorem test_decode_cfgload : decode 0x3100000000000000#64 = .ok .cfgload := rfl
theorem test_decode_reserved_04 : decode 0x0400000000000000#64 = .error (.reservedOpcode 0x04#8) := rfl
theorem test_decode_reserved_ff : decode 0xFF00000000000000#64 = .error (.reservedOpcode 0xFF#8) := rfl

/-- The encoder writes the same words (R103). -/
theorem test_encode : encode (.process 512 44100) = 0x030200000000AC44#64 ∧
    encode (.setch 4 1 0x3F000000#32) = 0x110401003F000000#64 ∧ encode (.setdyn true true) = 0x1200000300000000#64 ∧
    encode (.setdynp 2 0x3F733333#32) = 0x140002003F733333#64 ∧ encode (.gethist 1) = 0x2201000000000000#64 := by
  decide

/-- R64: a command over a byte stream, least significant byte first. -/
theorem test_decodeBytes : decodeBytes [0x44#8, 0xAC#8, 0#8, 0#8, 0#8, 0#8, 0x02#8, 0x03#8, 0x99#8] =
    .ok (.process 512 44100, [0x99#8]) ∧ decodeBytes [0#8, 0#8] = .error .truncated := ⟨rfl, rfl⟩

/-- R82: the data words a command word announces. -/
theorem test_wordsNeeded : wordsNeeded 0x030200000000AC44#64 = 512 ∧ wordsNeeded 0x3100000000000000#64 = 82 ∧
    wordsNeeded 0x0400000000000000#64 = 0 := by decide

/-! The text form (R100; lines of 95_test_vectors.md section 4). -/

theorem test_asm_process : Asm.line "PROCESS 512, 44100" = some (.command (.process 512 44100)) := by decide
theorem test_asm_seteq : Asm.line "  SETEQ 5, 15.0 ; clamped" = some (.command (.seteq 5 0x41700000#32)) := by decide
theorem test_asm_setch : Asm.line "SETCH SUB, volume, 0.5" = some (.command (.setch 4 1 0x3F000000#32)) := by decide
theorem test_asm_setch_word : Asm.line "SETCH FL, mute, 0xFFFFFFFF" = some (.command (.setch 0 6 0xFFFFFFFF#32)) := by
  decide
theorem test_asm_directives : Asm.line ".port D" = some (.port .D) ∧ Asm.line ".din 0x1, 2" = some (.din [1#32, 2#32]) ∧
    Asm.line "; nothing" = some .blank ∧ Asm.line "SETEQ 256, 1.0" = none := by decide
theorem test_asm_gethist : Asm.line "GETHIST PEAK" = some (.command (.gethist 1)) := by decide

/-! FMT arithmetic (R18, R132). -/

/-- R18: the constants are the roundings of their decimals. -/
theorem test_constants : Fp.rnd false 7 10 = Config.thrDefault ∧ Fp.rnd false 95 100 = Config.ceilDefault ∧
    Fp.rnd false 1 10 = Config.bassCoef ∧ Fp.rnd false 1 (10 ^ 10) = Config.dbEps ∧ Fp.rnd true 60 1 = Config.dbFloor ∧
    Fp.rnd true 12 1 = Config.gainMin := by decide

/-- R15: an overflow rounds to infinity, the largest value stays, a tie goes to even. -/
theorem test_rounding_edges : Fp.mul 0x7F7FFFFF#32 0x40000000#32 = 0x7F800000#32 ∧
    Fp.add 0x7F7FFFFF#32 0x72800000#32 = 0x7F7FFFFF#32 ∧ Fp.add 0x7F7FFFFF#32 0x73000000#32 = 0x7F800000#32 ∧
    Fp.div 0x00000001#32 0x40000000#32 = 0#32 ∧ Fp.div 0x00000003#32 0x40000000#32 = 2#32 := by decide

/-! NearestBin (R113, 95_test_vectors.md section 3.1). -/

theorem test_nearestBin_44100 : (List.range 31).map (fun i => nearestBin (Config.band i) 44100) =
    [0, 0, 0, 0, 1, 1, 1, 1, 1, 2, 2, 3, 4, 5, 6, 7, 9, 12, 15, 19, 23, 29, 37, 46, 58, 73, 93, 116, 145, 186, 232] := by
  decide
theorem test_nearestBin_8000 : (List.range 31).map (fun i => nearestBin (Config.band i) 8000) =
    [1, 2, 2, 3, 3, 4, 5, 6, 8, 10, 13, 16, 20, 26, 32, 40, 51, 64, 80, 102, 128, 160, 202, 255, 255, 255, 255, 255,
     255, 255, 255] := by decide
theorem test_nearestBin_single : nearestBin 1000 48000 = 11 ∧ nearestBin 20000 40156 = 255 ∧ nearestBin 25 1024 = 12 ∧
    nearestBin 20 4294967295 = 0 ∧ nearestBin 20000 1 = 255 := by decide

/-! The stages (95_test_vectors.md sections 3.1 to 3.5). -/

/-- E1: all gains zero, a NaN, an infinity, `sr = 0`: out as in. -/
theorem test_eq_fast_path : eqStage num true [0x7FC00000#32, 0x7F800000#32, 0x80000000#32] (Vector.replicate 31 0#32) 0 =
    completed [0x7FC00000#32, 0x7F800000#32, 0x80000000#32] := by decide

/-- K1 to K8. -/
theorem test_compressor :
    [0x3F000000#32, 0x3F333333#32, 0x3F333334#32, 0x3F4CCCCD#32, 0x3F800000#32, 0xBF800000#32, 0xBF400000#32,
      0x40000000#32].map (compSample 0x3F333333#32 0x40800000#32) =
    [0x3F000000#32, 0x3F333333#32, 0x3F333333#32, 0x3F39999A#32, 0x3F466666#32, 0xBF466666#32, 0xBF366666#32,
      0x3F833333#32] := by decide

/-- R138, and an infinite ratio; and log 22: ratio 1 and the largest finite sample reach infinity. -/
theorem test_compressor_ratios :
    [0x3E800000#32, 0xBF000000#32, 0x3F400000#32, 0xBF800000#32].map (compSample 0x3F000000#32 0x40000000#32) =
      [0x3E800000#32, 0xBF000000#32, 0x3F200000#32, 0xBF400000#32] ∧
    compSample 0x3F000000#32 0x7F800000#32 0x3F400000#32 = 0x3F000000#32 ∧
    compSample 0x73C00000#32 0x3F800000#32 0x7F7FFFFF#32 = 0x7F800000#32 := by decide

/-- L1 to L7, and the corner case `C = 0` of R141. -/
theorem test_limiter :
    [0x3F800000#32, 0xBF800000#32, 0x3F000000#32, 0x3F733333#32, 0x3F75C28F#32, 0xC0400000#32, 0x7F800000#32,
      0xFF800000#32, 0x80000000#32].map (limSample 0x3F733333#32) =
    [0x3F733333#32, 0xBF733333#32, 0x3F000000#32, 0x3F733333#32, 0x3F733333#32, 0xBF733333#32, 0x3F733333#32,
      0xBF733333#32, 0x80000000#32] ∧
    [0x3F800000#32, 0xBF800000#32, 0#32, 0x80000000#32].map (limSample 0#32) =
      [0#32, 0x80000000#32, 0#32, 0x80000000#32] ∧
    limStage false [0x7FC00000#32] 0x3F733333#32 = softFail [0x7FC00000#32] := by decide

/-- B1, B2, B3, B6. -/
theorem test_bass : bassStage num true [0x3F000000#32] 0xC0400000#32 = completed [0x3F000000#32] ∧
    bassStage num false [0x3F000000#32] 0x41A00000#32 = completed [0x3F800000#32] ∧
    bassStage num false [0x3F000000#32] 0x42200000#32 = completed [0x40B00000#32] ∧
    bassStage num false [0x3F000000#32] 0x7F800000#32 = softFail [0x3F000000#32] ∧
    bassStage num false [0x3F000000#32] 0x44480000#32 = softFail [0x3F000000#32] := by decide

/-- M1 (short), M4's peak, M7, M8. -/
theorem test_meter : metStage num false [0#32, 0x80000000#32] ⟨[], []⟩ = completed ⟨[0#32], [0#32]⟩ ∧
    (metStage num false [0x3E99999A#32, 0xBECCCCCD#32] ⟨[], []⟩).value.hpeak = [0x3ECCCCCD#32] ∧
    metStage num false [] ⟨[], []⟩ = softFail ⟨[], []⟩ ∧
    metStage num false [0x3F800000#32, 0x7FC00000#32] ⟨[], []⟩ = softFail ⟨[], []⟩ := by decide

/-- R173: the hundred-and-first entry drops the oldest. -/
theorem test_history_full : histAppend ((List.range 100).map (BitVec.ofNat 32)) 0x64#32 =
    (List.range 100).map fun i => BitVec.ofNat 32 (i + 1) := by decide +kernel

/-- A1, R168: the levels of a silent spectrum at 44100 Hz: eight skipped bands and band 30 keep their values. -/
theorem test_silent_levels :
    (List.range 31).map (newLevel num 44100 (List.replicate 256 0#32) (Vector.replicate 31 0#32)) =
      (List.range 31).map fun i => if i ∈ [0, 1, 2, 4, 5, 6, 7, 9, 30] then 0#32 else 0xC2700000#32 := by
  decide +kernel

/-- R194 (limiter; the peak is the input's), G9 and G10 (compressor, and its injected failure), and command 8 of
program 4.2 (compressor, limiter, bass). -/
theorem test_process_active :
    (let t := processActive num 0#6 [0x3F800000#32, 0xBF800000#32, 0x3F800000#32, 0xBF800000#32] 44100
      { base with eng := .active, limEn := true }
     t.portP.dout = [0x03000004#32, 0x3F733333#32, 0xBF733333#32, 0x3F733333#32, 0xBF733333#32] ∧
     t.hpeak = [0x3F800000#32] ∧ t.hrms = [0x3F800000#32]) ∧
    (processActive num 0#6 [0x3F800000#32] 44100 { base with eng := .active, compEn := true }).portP.dout =
      [0x03000001#32, 0x3F466666#32] ∧
    (let t := processActive num 0b000010#6 [0x3F800000#32] 44100 { base with eng := .active, compEn := true }
     t.portP.dout = [0x03020001#32, 0x3F800000#32] ∧ t.flt = 0b0000010#7) ∧
    (processActive num 0#6 [0x40000000#32, 0xC0000000#32] 48000
      { base with eng := .active, compEn := true, limEn := true, bass := 0x41A00000#32 }).portP.dout =
      [0x03000002#32, 0x3FF33333#32, 0xBFF33333#32] := by decide +kernel

/-! One step of each command (95_test_vectors.md sections 3.6 and 4). -/

theorem test_nop : exec .nop base = .next base := rfl
theorem test_start : (after (exec .start base) base).eng = .active := rfl
theorem test_stop : (after (exec .stop (active [])) base).eng = .idle := rfl

/-- Section 2, G6: clamped gains; an index of 31 and a NaN do nothing. -/
theorem test_seteq : ((after (exec (.seteq 5 0x41700000#32) base) base).eqGain 5 = 0x41400000#32) ∧
    (after (exec (.seteq 6 0xC1A00000#32) base) base).eqGain 6 = 0xC1400000#32 ∧
    (after (exec (.seteq 30 0x7F800000#32) base) base).eqGain 30 = 0x41400000#32 := by decide
theorem test_seteq_ignored : exec (.seteq 31 0x40A00000#32) base = .next base ∧
    exec (.seteq 5 0x7FC00000#32) base = .next base := ⟨rfl, rfl⟩

theorem test_setch : (after (exec (.setch 0 6 0xFFFFFFFF#32) base) base).chWord 0 6 = 1#32 ∧
    (after (exec (.setch 5 7 2#32) base) base).chWord 5 7 = 0#32 ∧
    (after (exec (.setch 4 1 0x3F000000#32) base) base).chWord 4 1 = 0x3F000000#32 := by decide
theorem test_setch_ignored : exec (.setch 6 0 0#32) base = .next base ∧ exec (.setch 0 8 0#32) base = .next base ∧
    exec (.setch 0 0 0x7FC00000#32) base = .next base := ⟨rfl, rfl, rfl⟩

theorem test_setdyn : (after (exec (.setdyn true false) base) base).compEn = true ∧
    (after (exec (.setdyn true false) { base with limEn := true }) base).limEn = false := ⟨rfl, rfl⟩
theorem test_setbass : (after (exec (.setbass 0xC0400000#32) base) base).bass = 0xC0400000#32 ∧
    exec (.setbass 0x7FC00000#32) base = .next base := ⟨rfl, rfl⟩
theorem test_setdynp : (after (exec (.setdynp 0 0xBF800000#32) base) base).thr = 0#32 ∧
    (after (exec (.setdynp 1 0x3F000000#32) base) base).ratio = 0x3F800000#32 ∧
    (after (exec (.setdynp 2 0x40000000#32) base) base).ceil = 0x3F800000#32 ∧
    exec (.setdynp 3 0#32) base = .next base := ⟨rfl, rfl, rfl, rfl⟩

/-- G2 and R222. -/
theorem test_getlevels : answer .getlevels base = [0x21000002#32, 0#32, 0#32] ∧
    answer .getlevels { base with hrms := [1#32, 2#32], hpeak := [3#32, 4#32] } = [0x21000002#32, 2#32, 4#32] :=
  ⟨rfl, rfl⟩
/-- G3, section 2, and program 4.2. -/
theorem test_gethist : answer (.gethist 0) base = [0x22000000#32] ∧ answer (.gethist 2) base = [0x22000000#32] ∧
    answer (.gethist 1) { base with hrms := [1#32, 2#32], hpeak := [0x3F800000#32, 0x40000000#32] } =
      [0x22000002#32, 0x3F800000#32, 0x40000000#32] := by decide
/-- G1, and the status word of program 4.3. -/
theorem test_getstat : answer .getstat base =
      [0x23000007#32, 0#32, 0#32, 0x3F333333#32, 0x40800000#32, 0x3F733333#32, 0#32, 0#32] ∧
    (answer .getstat { base with eng := .active, flt := 0b0110001#7 })[1]? = some 0x00003101#32 ∧
    (answer .getstat { base with eng := .active, compEn := true, limEn := true })[1]? = some 7#32 := by decide
theorem test_getsnap : answer .getsnap { base with blev := base.blev.set 3 0xC2700000#32 } =
    0x2000011F#32 :: List.replicate 259 0#32 ++ [0xC2700000#32] ++ List.replicate 27 0#32 := by decide +kernel
theorem test_cfgsave : answer .cfgsave
      ((base.setEqGain 0 0xC1400000#32).setEqGain 5 0x41400000#32 |>.setChWord 0 6 1#32 |>.setChWord 4 1 0x3F400000#32) =
    0x3000004F#32 :: [0xC1400000#32] ++ List.replicate 4 0#32 ++ [0x41400000#32] ++ List.replicate 31 0#32 ++ [1#32] ++
      List.replicate 26 0#32 ++ [0x3F400000#32] ++ List.replicate 14 0#32 := by decide +kernel

/-- The CFGLOAD of program 4.3: 82 words, of which fields 0, 5 and 64 are present. -/
def loadWords : List Word :=
  [0x21#32, 0#32, 1#32] ++ [0xC1A00000#32] ++ List.replicate 4 9#32 ++ [0x7FC00000#32] ++ List.replicate 58 9#32 ++
    [0x3F400000#32] ++ List.replicate 14 9#32

/-- Program 4.3, commands 4 and 5. -/
theorem test_cfgload :
    let t := after (exec .cfgload ((withP [] (loadWords ++ [7#32])).setEqGain 5 0x41400000#32)) base
    t.eqg = (base.eqg.set 0 0xC1400000#32).set 5 0x41400000#32 ∧ t.chWord 4 1 = 0x3F400000#32 ∧
    t.chWord 4 2 = 0#32 ∧ t.portP.din = [7#32] ∧ t.portP.dout = [] := by decide +kernel

/-- G4 (Idle), G8 (no samples), and command 7 of program 4.3 (EQ, analyzer and meter fail on a NaN). -/
theorem test_process :
    exec (.process 2 44100) (withP [] [0x3F800000#32, 0x3F800000#32, 7#32]) =
      .next { withP [] [7#32] with portP := { quiet with din := [7#32], dout := [0x03800000#32] } } ∧
    (let t := after (exec (.process 0 48000) (active [])) base
     t.portP.dout = [0x03200000#32] ∧ t.sr = 48000#32 ∧ t.flt = 0b0100000#7) ∧
    (let x := [0#32, 0#32, 0#32, 0x7FC00000#32] ++ List.replicate 508 0#32
     let t := after (exec (.process 512 44100) ((active x).setEqGain 0 0xC1400000#32)) base
     t.portP.dout = 0x03310200#32 :: x ∧ t.flt = 0b0110001#7 ∧ t.sr = 44100#32 ∧ t.hrms = []) :=
  ⟨rfl, by decide +kernel, by decide +kernel⟩

/-- R93, G7: a reserved opcode. -/
theorem test_reserved : execWord 0x0400000000000000#64 base = .next { base with flt := 0x40#7 } := rfl

/-! A step, and the fixed names. -/

/-- One step takes START from port C and runs it. -/
theorem test_step : let s := { base with portC := { quiet with cmd := [0x0100000000000000#64, 5#64] } }
    (after (step s) base).eng = .active ∧ (after (step s) base).portC.cmd = [5#64] ∧
    (after (step s) base).cur = .C := by decide +kernel
/-- The word `withFetchWord` places is the one the next step runs, from reset. -/
theorem test_withFetchWord_start : (after (step (State.reset.withFetchWord 64 0x0100000000000000)) base).eng = .active := rfl
theorem test_withFetchWord_process :
    (after (step (State.reset.withFetchWord 64 0x0300020000000000)) base).portP.dout = [0x03800000#32] := rfl
theorem test_decodeTableWord : decodeTableWord 64 0x1200000200000000 = some (.setdyn false true) ∧
    decodeTableWord 64 0x3200000000000000 = none := by decide

/-! Witnesses: for every obligation with hypotheses, values that meet them all, each clause at a boundary. -/

theorem mem_vector_replicate {n : Nat} {a b : Fmt} (h : b ∈ (Vector.replicate n a).toList) : b = a := by
  rw [Vector.toList_replicate] at h; exact List.eq_of_mem_replicate h

theorem base_inv : base.Inv := by
  constructor
  · intro g h; rw [mem_vector_replicate h]; decide
  · decide
  · decide
  · decide
  · decide
  · decide
  · intro g h; rw [mem_vector_replicate h]; decide
  · intro g h; rw [mem_vector_replicate h]; decide
  · decide
  · rfl
  · decide
  · exact fun v h => absurd h List.not_mem_nil
  · exact fun v h => absurd h List.not_mem_nil

/-- A state with full histories and every register at a limit of its range. -/
def edge : State :=
  { base with
    eqg := (base.eqg.set 0 0xC1400000#32).set 30 0x41400000#32
    ch := base.ch.set 5 ((Vector.replicate 8 0x7FC00000#32).set 6 1#32 |>.set 7 0#32)
    thr := 0x80000000#32, ratio := 0x7F800000#32, ceil := 0x3F800000#32, bass := 0xFF800000#32
    hrms := List.replicate 100 0x7F7FFFFF#32, hpeak := List.replicate 100 0#32, eng := .active }

theorem edge_inv : edge.Inv := by
  constructor
  · intro g hg
    have : g = 0#32 ∨ g = 0xC1400000#32 ∨ g = 0x41400000#32 := by
      have h := List.mem_iff_getElem.1 hg
      obtain ⟨i, hi, rfl⟩ := h
      simp [edge, base, Vector.getElem_set]; grind
    rcases this with rfl | rfl | rfl <;> decide
  · decide +kernel
  · decide
  · decide
  · decide
  · decide
  · intro g h; rw [mem_vector_replicate h]; decide
  · intro g h; rw [mem_vector_replicate h]; decide
  · decide
  · decide
  · decide
  · intro v h; rw [List.eq_of_mem_replicate h]; decide
  · intro v h; rw [List.eq_of_mem_replicate h]; decide

/-- DecodeEncodeRoundTrip, ByteStreamRoundTrip: well-formed commands with every field at its largest value. -/
theorem witness_wf : Instr.wf (.process 65535 (2 ^ 32 - 1)) = true ∧ Instr.wf (.seteq 255 0xFFFFFFFF#32) = true ∧
    Instr.wf (.setch 255 255 0#32) = true ∧ Instr.wf (.setdynp 255 0#32) = true ∧ Instr.wf (.gethist 255) = true ∧
    Instr.wf (.setdyn true false) = true ∧ Instr.wf (.setbass 0x7FC00000#32) = true := by decide

/-- DecodeTotalAndReservedExact, ReservedFieldsIgnored, ReservedOpcodeSetsBadCmd: both sides of every edge of R93. -/
theorem witness_reservedOp :
    [0x04#8, 0x0F#8, 0x15#8, 0x1F#8, 0x24#8, 0x2F#8, 0x32#8, 0xFF#8].all reservedOp = true ∧
    [0x00#8, 0x03#8, 0x10#8, 0x14#8, 0x20#8, 0x23#8, 0x30#8, 0x31#8].any reservedOp = false := by decide

/-- ReservedFieldsIgnored, EncodeOfDecode: a word with every unused bit set, which decodes. -/
theorem witness_unused_fields : reservedOp (fieldOp 0x12FFFFFDFFFFFFFF#64) = false ∧
    decode 0x12FFFFFDFFFFFFFF#64 = .ok (.setdyn true false) ∧
    0x12FFFFFDFFFFFFFF#64 &&& usedMask 0x12#8 = 0x1200000100000000#64 := ⟨by decide, rfl, by decide⟩

/-- StepRunsDecoded: a START at the head of port P. -/
theorem witness_step : (withP [0x0100000000000000#64] []).rst = false ∧
    (withP [0x0100000000000000#64] []).pick = some .P ∧
    decode ((withP [0x0100000000000000#64] []).headWord .P) = .ok .start := ⟨rfl, by decide, rfl⟩

/-- ReservedOpcodeSetsBadCmd: a reserved word at the head of port P. -/
theorem witness_reserved_step : (withP [0x3200000000000000#64, 1#64] [5#32]).rst = false ∧
    (withP [0x3200000000000000#64, 1#64] [5#32]).pick = some .P ∧
    reservedOp (fieldOp ((withP [0x3200000000000000#64, 1#64] [5#32]).headWord .P)) = true := ⟨rfl, by decide, by decide⟩

/-- EngineNeverStops, ArbiterMayPickAnyReadyPort, FairArbitration, StarvedPortHolds: a PROCESS 2 with its two words is
ready and can be picked; with one word it is not, and nothing is. -/
theorem witness_ready : ((withP [0x0300020000000001#64] [1#32, 2#32]).port .P).ready = true ∧
    (withP [0x0300020000000001#64] [1#32, 2#32]).pick = some .P ∧
    ((withP [0x0300020000000001#64] [1#32]).port .P).ready = false ∧
    (withP [0x0300020000000001#64] [1#32]).pick = none ∧
    ((withP [0x0300020000000001#64] [1#32]).port .P).din.length < wordsNeeded 0x0300020000000001#64 ∧
    (withP [0x0300020000000001#64] [1#32]).rst = false := by decide

/-- ArbiterMayPickAnyReadyPort, FairArbitration: three ready ports, and the tie goes to P. -/
theorem witness_three_ready :
    let q := { quiet with cmd := [0#64] }
    let s := { base with portP := q, portC := q, portD := q }
    (s.port .P).ready = true ∧ (s.port .C).ready = true ∧ (s.port .D).ready = true ∧ s.pick = some .P ∧
    (s.withDues 1 1 0).pick = some .D := by decide

/-- StarvedPortHolds, second part: PROCESS 1 and CFGLOAD one word short. -/
theorem witness_starved_exec : base.here.din.length < (Instr.process 1 0).dataWords ∧
    (withP [] (List.replicate 81 0#32)).here.din.length < Instr.cfgload.dataWords := by decide

/-- TwoPortRace, AnyPortSameEffect: SETEQ on port C against a PROCESS 1 on port P; two ports with the same data. -/
theorem witness_race :
    let s := { withP [0x030001000000AC44#64] [1#32] with portC := { quiet with cmd := [0x1000000040C00000#64] } }
    s.rst = false ∧ s.portP.cmd = [0x030001000000AC44#64] ∧ s.portC.cmd = [0x1000000040C00000#64] ∧
    s.portD.cmd = [] ∧ wordsNeeded 0x030001000000AC44#64 ≤ s.portP.din.length ∧
    wordsNeeded 0x1000000040C00000#64 ≤ s.portC.din.length ∧ (s.port .C).din = (s.port .D).din := by decide

/-- StepKeepsInvariant: a state that meets the invariant and steps; both ends of the ranges. -/
theorem witness_invariant_step : base.Inv ∧ edge.Inv ∧ ∃ t, step edge = .next t :=
  ⟨base_inv, edge_inv, ⟨edge, by rfl⟩⟩

/-- ReachableInvariant: a reachable state beyond reset. -/
theorem witness_reachable : Reachable (EnvAction.apply (.issue .D 0x0100000000000000#64) State.reset) :=
  .env _ .reset

/-- EngChangedOnlyByStartStop: a word for each clause. -/
theorem witness_engine_words : decode 0x01000000000000FF#64 = .ok .start ∧ decode 0x0200000000000000#64 = .ok .stop ∧
    decode 0#64 ≠ .ok .start ∧ decode 0#64 ≠ .ok .stop := ⟨rfl, rfl, nofun, nofun⟩

/-- FltSticky: bits set and clear before, a PROCESS that runs and sets bit 5, a reserved word that sets bit 6. -/
theorem witness_flt : ({ base with flt := 0x7F#7 }).flt.getLsbD 6 = true ∧ base.flt.getLsbD 6 = false ∧
    base.flt.getLsbD 5 = false ∧ (after (exec (.process 0 1) (active [])) base).flt.getLsbD 5 = true ∧
    runsBlock 0x0300000000000001#64 (active []) ∧ reservedOp (fieldOp 0x0400000000000000#64) = true :=
  ⟨by decide, by decide, by decide, by decide +kernel, ⟨⟨0, 1, rfl⟩, rfl⟩, by decide⟩

/-- TelemetryWrittenOnlyByProcess: no block runs for a PROCESS in Idle, nor for a NOP in Active. -/
theorem witness_no_block : ¬ runsBlock 0x0300000000000001#64 base ∧ ¬ runsBlock 0#64 (active []) :=
  ⟨fun h => (nomatch h.2), fun h => by obtain ⟨⟨_, _, h⟩, _⟩ := h; cases h⟩

/-- ParametersWrittenOnlyByTheirCommands: each register does change under its command. -/
theorem witness_parameters_change :
    (after (exec (.seteq 30 0x3F800000#32) base) base).eqg ≠ base.eqg ∧
    (after (exec (.setch 5 7 1#32) base) base).ch ≠ base.ch ∧
    (after (exec (.setdyn true false) base) base).compEn ≠ base.compEn ∧
    (after (exec (.setdyn false true) base) base).limEn ≠ base.limEn ∧
    (after (exec (.setdynp 0 0#32) base) base).thr ≠ base.thr ∧
    (after (exec (.setdynp 1 0x3F800000#32) base) base).ratio ≠ base.ratio ∧
    (after (exec (.setdynp 2 0x3F800000#32) base) base).ceil ≠ base.ceil ∧
    (after (exec (.setbass 1#32) base) base).bass ≠ base.bass := by decide +kernel

/-- CommandStreams: a responding and a silent command, and a PROCESS that takes all the words of its port. -/
theorem witness_streams : Instr.wf (.process 2 0) = true ∧ base.Inv ∧
    (Instr.process 2 0).dataWords ≤ (withP [] [1#32, 2#32]).here.din.length ∧ responds (.process 2 0) = true ∧
    responds .cfgload = false ∧ accessor .cfgsave = true ∧ (withP [] [1#32, 2#32]).Inv :=
  ⟨by decide, base_inv, by decide, rfl, rfl, rfl,
    ⟨base_inv.gains, base_inv.booleans, base_inv.threshold, base_inv.ratio, base_inv.ceiling, base_inv.bass,
      base_inv.spectrum, base_inv.levels, base_inv.lastBand, base_inv.sameLength, base_inv.bounded,
      base_inv.rmsEntries, base_inv.peakEntries⟩⟩

/-- AccessorsWriteNothing: the accessors. -/
theorem witness_accessors : [Instr.getsnap, .getlevels, .gethist 2, .getstat, .cfgsave].all accessor = true := by decide

/-- GetsnapResponse, GethistResponse (selectors 0, 1, 2), GetlevelsResponse (both cases). -/
theorem witness_histories : base.Inv ∧ edge.Inv ∧ base.hrms = [] ∧
    edge.hrms = List.replicate 99 0x7F7FFFFF#32 ++ [0x7F7FFFFF#32] ∧ edge.hpeak = List.replicate 99 0#32 ++ [0#32] :=
  ⟨base_inv, edge_inv, rfl, rfl, rfl⟩

/-- SeteqResult: an index above 30, a NaN, and gains on and beyond the limits. -/
theorem witness_seteq : Fp.isNaN 0x7F800001#32 = true ∧ Fp.isNaN 0x7F800000#32 = false ∧
    Fp.lt 0x41400000#32 0x41400001#32 = true ∧ Fp.lt 0x41400000#32 0x41400000#32 = false ∧
    Fp.lt 0xC1400001#32 0xC1400000#32 = true ∧ Fp.lt 0xC1400000#32 0xC1400000#32 = false := by decide

/-- SetchResult: the last channel and parameter of each kind, a NaN, and the first unknown ones. -/
theorem witness_setch : (∃ t, exec (.setch 5 5 0x7FC00000#32) base = .next t) ∧ Fp.isNaN 0x7FC00000#32 = true ∧
    Fp.isNaN 0xFF800000#32 = false ∧ isBooleanParam 5 = false ∧ isBooleanParam 6 = true :=
  ⟨⟨_, rfl⟩, by decide, by decide, by decide, by decide⟩

/-- SetdynpResult: each selector with a value to clamp and one to keep. -/
theorem witness_setdynp : Fp.isNaN 0x80000001#32 = false ∧ Fp.lt 0x80000001#32 0#32 = true ∧
    Fp.lt 0x80000000#32 0#32 = false ∧ Fp.lt 0x3F7FFFFF#32 0x3F800000#32 = true ∧
    Fp.lt 0x3F800000#32 0x3F800001#32 = true ∧ Fp.isNaN 0xFFC00000#32 = true := by decide

/-- CfgloadResult: the 82 words of program 4.3 and one more. -/
theorem witness_cfgload : (loadWords.take 3).length = 3 ∧ (loadWords.drop 3).length = 79 ∧
    (withP [] (loadWords ++ [7#32])).here.din = loadWords.take 3 ++ loadWords.drop 3 ++ [7#32] ∧
    ((loadWords.take 3).getD (64 / 32) 0#32).getLsbD (64 % 32) = true ∧
    ((loadWords.take 3).getD (30 / 32) 0#32).getLsbD (30 % 32) = false := by decide

/-- SaveLoadRestores: the record of a state at the edges, all mask bits set. -/
theorem witness_saveLoad : edge.Inv ∧
    (∀ j < 79, ([0xFFFFFFFF#32, 0xFFFFFFFF#32, 0x00007FFF#32].getD (j / 32) 0#32).getLsbD (j % 32) = true) ∧
    (withP [] ([0xFFFFFFFF#32, 0xFFFFFFFF#32, 0x00007FFF#32] ++ edge.record ++ [])).here.din =
      [0xFFFFFFFF#32, 0xFFFFFFFF#32, 0x00007FFF#32] ++ edge.record ++ [] ∧
    Fp.isNaN (edge.chWord 5 5) = true ∧ Fp.isNaN (edge.chWord 4 5) = false :=
  ⟨edge_inv, by decide, rfl, by decide, by decide⟩

/-- MutatorsIdempotent: the commands it speaks of. -/
theorem witness_idempotent : [Instr.nop, .start, .stop, .seteq 31 0#32, .setch 0 0 0#32, .setdyn true true, .setbass 0#32,
    .setdynp 2 0#32].all idempotent = true ∧ idempotent .cfgload = false := by decide

/-- ProcessIgnoredInIdle, ProcessRunsAndCommits: the longest rate, the words exactly there. -/
theorem witness_process : (withP [] [1#32]).eng = .idle ∧ (active [1#32]).eng = .active ∧
    1 ≤ (active [1#32]).here.din.length ∧ 1 ≤ (withP [] [1#32]).here.din.length ∧ (1 : Nat) ≤ 65535 ∧
    (2 ^ 32 - 1 : Nat) < 2 ^ 32 := by decide

/-- DefaultParametersPassThrough: gains of both zero signs, a bass gain of -0. -/
theorem witness_default : (∀ i < 31, Fp.isZero (((active [1#32]).setEqGain 30 0x80000000#32).eqGain i) = true) ∧
    (active [1#32]).compEn = false ∧ (active [1#32]).limEn = false ∧ Fp.lt 0#32 0x80000000#32 = false ∧
    (active [1#32]).eng = .active ∧ 1 ≤ (active [1#32]).here.din.length := by decide

/-- TelemetryIgnoresParameters: two states that differ in the band gains. -/
theorem witness_telemetry : (active [1#32]).eng = .active ∧
    ((active [1#32]).setEqGain 0 0x3F800000#32).eng = .active ∧
    (active [1#32]).here.din.take 1 = ((active [1#32]).setEqGain 0 0x3F800000#32).here.din.take 1 ∧
    SameTelemetry (active [1#32]) ((active [1#32]).setEqGain 0 0x3F800000#32) ∧
    ((active [1#32]).setEqGain 0 0x3F800000#32).xf = (active [1#32]).xf ∧
    1 ≤ (active [1#32]).here.din.length :=
  ⟨rfl, rfl, rfl, ⟨rfl, rfl, rfl, rfl, rfl⟩, rfl, by decide⟩

/-- ResponseIgnoresChannelsAndRate: two states that differ in a channel word, the rate and the log. -/
theorem witness_response :
    let s := active [1#32]
    let u := { (active [1#32]).setChWord 0 0 5#32 with sr := 44100#32, flt := 0x7F#7 }
    s.eng = .active ∧ u.eng = .active ∧ 1 ≤ s.here.din.length ∧ 1 ≤ u.here.din.length ∧
    s.here.din.take 1 = u.here.din.take 1 ∧ u.xf = s.xf ∧ u.eqg = s.eqg ∧ u.compEn = s.compEn ∧ u.limEn = s.limEn ∧
    u.thr = s.thr ∧ u.ratio = s.ratio ∧ u.ceil = s.ceil ∧ u.bass = s.bass ∧ u.spec = s.spec ∧ u.blev = s.blev ∧
    u.hrms = s.hrms ∧ u.hpeak = s.hpeak :=
  ⟨rfl, rfl, by decide, by decide, rfl, rfl, rfl, rfl, rfl, rfl, rfl, rfl, rfl, rfl, rfl, rfl, rfl⟩

/-- AllSixStagesCanFail: a block of 512 whose last sample is a NaN. -/
theorem witness_all_fail :
    let s := { (active (List.replicate 511 0#32 ++ [0x7FC00000#32])).setEqGain 30 0x3F800000#32 with
      compEn := true, limEn := true, bass := 1#32 }
    s.eng = .active ∧ 512 ≤ s.here.din.length ∧ (s.here.din.take 512).any Fp.isNaN = true ∧
    Fp.isZero (s.eqGain 30) = false ∧ s.compEn = true ∧ s.limEn = true ∧ Fp.lt 0#32 s.bass = true := by decide +kernel

/-- NoBlockZeroTelemetry: the state of no block, with BADCMD set, and a word that runs none. -/
theorem witness_noBlock : ({ base with flt := 0x40#7 }).NoBlock ∧ ¬ runsBlock 0x0400000000000000#64 base :=
  ⟨⟨rfl, rfl, rfl, rfl, rfl, by decide⟩, fun h => (nomatch h.2)⟩

/-- EqPassThroughAndFailures, EqShapesFirst512Only, EqScalesBinAndCounterpart: gains all zero, or just one not; blocks
of 511 and of 512 samples, one of them infinite. -/
theorem witness_eq : (∀ b < 31, Fp.isZero ((Vector.replicate 31 0x80000000#32 : Vector Fmt 31)[b]?.getD 0#32) = true) ∧
    (∃ b < 31, Fp.isZero (edge.eqg[b]?.getD 0#32) = false) ∧
    Fp.isZero ((base.eqg.set 30 1#32)[30]?.getD 0#32) = false ∧
    (∀ c < 31, c ≠ 30 → Fp.isZero ((base.eqg.set 30 1#32)[c]?.getD 0#32) = true) ∧
    (List.replicate 511 0#32).length < 512 ∧
    ((List.replicate 511 0#32 ++ [0x7F800000#32]).take 512).all Fp.finite = false :=
  ⟨by decide, ⟨30, by decide, by decide⟩, by decide, by decide, by rw [List.length_replicate]; omega, by decide +kernel⟩

/-- EqScalesBinAndCounterpart: a band on bin 0, which has no counterpart, and one on bin 255. -/
theorem witness_eq_bins : nearestBin (Config.band 0) 44100 = 0 ∧ nearestBin (Config.band 30) 1 = 255 := by decide

/-- The last clause of EqShapesFirst512Only: a slow path that completes. EqScalesBinAndCounterpart: two non-zero gains
on one bin (bands 4 and 5 on bin 1 at 44100 Hz, R119), which multiply there, and on its counterpart, in band order; the
record's `pow10` answers 1.0 for both. -/
theorem witness_eq_completes :
    (let g := (base.eqg.set 4 0x40C00000#32).set 5 0xC0C00000#32
     (eqStage flat false (List.replicate 512 0x3F000000#32) g 44100).failed = false ∧
     [0, 1, 2, 510, 511].map (fun j => (List.range 31).filter (eqActs g 44100 j)) = [[], [4, 5], [], [], [4, 5]]) := by
  decide +kernel

/-- NearestBinMinimises, RoundingIsNearestEven: the smallest operands, and both sides of the overflow. -/
theorem witness_numbers : (1 : Nat) ≤ 1 ∧ nearestBin 1 1 = 255 ∧
    Fp.finite (Fp.roundUnits false ((2 ^ 25 - 1) * 2 ^ 252 - 1) 1) = true ∧
    Fp.isInf (Fp.roundUnits false ((2 ^ 25 - 1) * 2 ^ 252) 1) = true := by decide +kernel

/-- CompressorResult: each clause, and each cause of a failure (the overflow is that of log 22). -/
theorem witness_compressor : [0x7F800000#32].all Fp.finite = false ∧
    (compStage false [0x3F333333#32, 0xBF800000#32] 0x3F333333#32 0x40800000#32).failed = false ∧
    (compStage true [0x3F333333#32] 0x3F333333#32 0x40800000#32).failed = true ∧
    (compStage false [0x7F7FFFFF#32] 0x73C00000#32 0x3F800000#32).failed = true ∧
    Fp.lt 0x3F333333#32 (Fp.abs 0x3F333333#32) = false ∧ Fp.lt 0x3F333333#32 (Fp.abs 0xBF800000#32) = true := by decide

/-- CompressorStaysAboveThreshold: the least ratio above 1 with the largest sample; ratio 1 with the next one. -/
theorem witness_compressor_legal : legalThr 0x80000000#32 = true ∧ legalRatio 0x3F800001#32 = true ∧
    legalRatio 0x3F800000#32 = true ∧ Fp.finite 0x7F7FFFFF#32 = true ∧
    Fp.lt 0x80000000#32 (Fp.abs 0x7F7FFFFF#32) = true ∧ Fp.lt 0x3F800000#32 0x3F800001#32 = true ∧
    Fp.abs 0xFF7FFFFE#32 ≠ 0x7F7FFFFF#32 ∧ [0x7F7FFFFF#32].all Fp.finite = true := by decide

/-- LimiterBounded: the ceilings 0, -0 and 1, a failing and a limited block. -/
theorem witness_limiter : legalCeil 0#32 = true ∧ legalCeil 0x80000000#32 = true ∧ legalCeil 0x3F800000#32 = true ∧
    (limStage false [0x7FC00000#32] 0#32).failed = true ∧ (limStage false [0x7F800000#32] 0#32).failed = false := by
  decide

/-- BassResult: each clause, a factor that is not finite and a product that is not finite. -/
theorem witness_bass : Fp.isNaN 0x80000000#32 = false ∧ Fp.le 0x80000000#32 0#32 = true ∧ Fp.le 1#32 0#32 = false ∧
    Fp.isInf 0x7F800000#32 = true ∧ (bassStage num false [1#32] 0x41A00000#32).failed = false ∧
    (bassStage num true [1#32] 0x41A00000#32).failed = true ∧
    Fp.le 0x7F800000#32 0#32 = false ∧ (bassStage num false [1#32] 0x7F800000#32).failed = true ∧
    (bassStage num false [0x7F7FFFFF#32] 0x41A00000#32).failed = true := by decide

/-- AnalyzerKeepsOrReplacesWhole, AnalyzerSilentBlock: a short block, a silent block of 512 of both zero signs, an
empty and a non-empty bin range, and finite old levels. -/
theorem witness_analyzer : (List.replicate 511 0#32).length < 512 ∧
    512 ≤ (List.replicate 512 0x80000000#32).length ∧
    ((List.replicate 512 0x80000000#32).take 512).all Fp.isZero = true ∧
    (anaStage num true (List.replicate 512 0#32) 1 ⟨base.spec, base.blev⟩).failed = true ∧
    base.blev.toList.all Fp.finite = true ∧ (bandBins 44100 9).2 ≤ (bandBins 44100 9).1 ∧
    (bandBins 44100 10).1 < (bandBins 44100 10).2 := by decide +kernel

/-- AnalyzerKeepsOrReplacesWhole: an analysis of a block that is not silent completes; it fails when a magnitude, or a
level, is not finite. -/
theorem witness_analysis :
    (let x := List.replicate 512 0x3F800000#32
     let old : Snapshot := ⟨base.spec, base.blev⟩
     (anaStage flat false x 44100 old).failed = false ∧
     (anaStage { flat with cabs := fun _ => 0x7F800000#32 } false x 44100 old).failed = true ∧
     (anaStage { flat with log10p := fun _ => 0x7F7FFFFF#32 } false x 44100 old).failed = true) := by decide +kernel

/-- MeterAppendsOneEach: histories of 99 and 100 entries, an empty block, a silent one, one that is not silent, and an
RMS that is not finite. -/
theorem witness_meter : (List.replicate 100 0#32).length ≤ 100 ∧ edge.hpeak.length = edge.hrms.length ∧
    (metStage num false [] ⟨edge.hrms, edge.hpeak⟩).failed = true ∧
    (metStage num false [0x80000000#32] ⟨edge.hrms, edge.hpeak⟩).failed = false ∧
    (metStage num false [0xBF800000#32] ⟨edge.hrms, edge.hpeak⟩).failed = false ∧
    (metStage { num with rms := fun _ => 0x7F800000#32 } false [1#32] ⟨edge.hrms, edge.hpeak⟩).failed = true ∧
    [0x80000000#32].all Fp.isZero = true ∧ [0x80000000#32] ≠ [] := by decide +kernel

/-- RingRefinesHistory: a ring at both ends of its write index, one entry short of full; and an
empty ring that is not the model's. -/
theorem witness_ring : (HistoryRing.mk (Vector.replicate 100 0#32) 99 99).legal = true ∧
    (HistoryRing.mk (Vector.replicate 100 0#32) 0 100).legal = true ∧
    (HistoryRing.mk (Vector.replicate 100 1#32) 57 0).hc = 0 := by decide

end Sys2Proof.Tests
end

section
/-! PROOFS, family 00_scope. The rounding of class R results (R15): to nearest, ties to even, and infinite exactly from
half a step above the largest finite value. -/

namespace Sys2Proof.Machine.Fp

/-- A number less than half a step above the integer `m` is not rounded beyond it. -/
theorem nearestEven_le_of_lt_half {n d m : Nat} (h : 2 * n < (2 * m + 1) * d) : nearestEven n d ≤ m := by
  have hn : d * (n / d) + n % d = n := Nat.div_add_mod n d
  have hq : n / d ≤ m := by
    exact Nat.lt_succ_iff.1 (Nat.div_lt_of_lt_mul (by nlinarith))
  rcases Nat.lt_or_eq_of_le hq with hlt | heq
  · exact (nearestEven_bounds n d).2.trans hlt
  · have hr : 2 * (n % d) < d := by rw [heq] at hn; nlinarith
    simp [nearestEven, hr, heq]

/-! Nearest values. The rounded value is `steps n d` whole steps of the spacing; a value that is no multiple of the
spacing lies below all of its binade, so the binade's least value `2^23` steps is nearer than it. -/

/-- The least value of the binade is at most the number rounded. -/
theorem binade_le {n d : Nat} (h : 0 < spacing n d) : 2 ^ 23 * 2 ^ spacing n d * d ≤ n := by
  rw [← Nat.pow_add]
  exact (Nat.mul_le_mul_right d ((spacing_bounds n d).1 h)).trans (Nat.div_mul_le_self n d)

/-- Against another multiple of the spacing, the rounded steps are at least as near, and even when tied. -/
theorem steps_nearest_multiple (n d k : Nat) (hd : 0 < d) :
    (((steps n d * 2 ^ spacing n d : Nat) * d : Int) - n).natAbs ≤
      (((k * 2 ^ spacing n d : Nat) * d : Int) - n).natAbs ∧
    ((((steps n d * 2 ^ spacing n d : Nat) * d : Int) - n).natAbs =
      (((k * 2 ^ spacing n d : Nat) * d : Int) - n).natAbs → steps n d ≠ k → steps n d % 2 = 0) := by
  have scale (j : Nat) : ((j * 2 ^ spacing n d : Nat) * d : Int) = j * (d * 2 ^ spacing n d : Nat) := by
    push_cast; ring
  rw [scale, scale]
  exact nearestEven_nearest n (d * 2 ^ spacing n d) k (Nat.mul_pos hd (Nat.two_pow_pos _))

/-- Against a value that is no multiple of the spacing, the rounded steps are strictly nearer. -/
theorem steps_nearer_of_not_dvd (n d : Nat) (z : Fmt) (hd : 0 < d) (hz : ¬ 2 ^ spacing n d ∣ units z) :
    (((steps n d * 2 ^ spacing n d : Nat) * d : Int) - n).natAbs < ((units z * d : Int) - n).natAbs := by
  have hs : 0 < spacing n d := Nat.pos_of_ne_zero fun h0 => hz (by rw [h0]; exact Nat.one_dvd _)
  have hlt : units z < 2 ^ 23 * 2 ^ spacing n d := by
    rw [← Nat.pow_add]; exact Nat.lt_of_not_le fun h => hz (units_dvd z _ h)
  have hzd : units z * d < 2 ^ 23 * 2 ^ spacing n d * d := Nat.mul_lt_mul_of_pos_right hlt hd
  have hle := binade_le hs
  have hnear := (steps_nearest_multiple n d (2 ^ 23) hd).1
  generalize 2 ^ 23 * 2 ^ spacing n d = b at hzd hle hnear
  zify at hzd hle
  omega

/-- No FMT value is nearer than the rounded one, and of two different ones equally near it is the even one. -/
theorem roundUnits_nearest (b : Bool) (n d : Nat) (z : Fmt) (hd : 0 < d) (hf : finite (roundUnits b n d) = true) :
    ((units (roundUnits b n d) * d : Int) - n).natAbs ≤ ((units z * d : Int) - n).natAbs ∧
    (((units (roundUnits b n d) * d : Int) - n).natAbs = ((units z * d : Int) - n).natAbs →
      units (roundUnits b n d) ≠ units z → (roundUnits b n d).getLsbD 0 = false) := by
  rw [units_roundUnits b n d hf, lsb_roundUnits b n d hf]
  by_cases hz : 2 ^ spacing n d ∣ units z
  · obtain ⟨k, hk⟩ := hz
    rw [Nat.mul_comm] at hk
    rw [hk]
    obtain ⟨hle, heven⟩ := steps_nearest_multiple n d k hd
    exact ⟨hle, fun htie hne => by simp [heven htie fun h => hne (by rw [h])]⟩
  · have hlt := steps_nearer_of_not_dvd n d z hd hz
    exact ⟨hlt.le, fun htie => absurd htie hlt.ne⟩

/-! Overflow. The largest finite value is `2^24 - 1` steps of spacing `2^253`; half a step above it is
`(2^25 - 1) * 2^252`. -/

/-- Half a step above the largest finite value rounds to infinity's encoding: the tie goes to the even `2^24`. -/
theorem encoding_overflow : encoding ((2 ^ 25 - 1) * 2 ^ 252) 1 = 0x7F800000 := by decide +kernel

/-- Below half a step above the largest finite value the encoding stays below infinity's. -/
theorem encoding_lt_of_lt_overflow {n d : Nat} (h : n < d * ((2 ^ 25 - 1) * 2 ^ 252)) :
    encoding n d < 0x7F800000 := by
  have hs : spacing n d ≤ 253 := by
    by_contra hs
    have hpow : 2 ^ 254 ≤ 2 ^ spacing n d := Nat.pow_le_pow_right Nat.two_pos (by omega)
    have hbig : 2 ^ 23 * 2 ^ 254 * d ≤ n :=
      (Nat.mul_le_mul_right d (Nat.mul_le_mul_left _ hpow)).trans (binade_le (by omega))
    omega
  have hm := (steps_bounds n d).2
  unfold encoding
  rcases Nat.lt_or_eq_of_le hs with hlt | heq
  · omega
  · have : steps n d ≤ 2 ^ 24 - 1 := by
      unfold steps; rw [heq]; exact nearestEven_le_of_lt_half (by omega)
    omega

/-- The rounded value is infinite exactly from half a step above the largest finite value on. -/
theorem isInf_roundUnits_iff (b : Bool) (n d : Nat) (hd : 0 < d) :
    isInf (roundUnits b n d) = true ↔ d * ((2 ^ 25 - 1) * 2 ^ 252) ≤ n := by
  rw [isInf_roundUnits]
  constructor
  · intro h
    exact Nat.le_of_not_lt fun hlt => absurd h (Nat.not_le.2 (encoding_lt_of_lt_overflow hlt))
  · intro h
    rw [← encoding_overflow]
    exact encoding_mono Nat.one_pos hd (by rw [Nat.mul_one, Nat.mul_comm]; exact h)

end Sys2Proof.Machine.Fp

namespace Sys2Proof.Proofs

open Sys2Proof.Machine

/-- Settles O51: the rounded value is a whole number of steps of the spacing, so multiples of the spacing are compared
by `nearestEven`, other values lie below the binade, and the overflow is a comparison of encodings. -/
theorem roundingIsNearestEven : Obligations.RoundingIsNearestEven := by
  intro neg n d _ hd
  exact ⟨Fp.sign_roundUnits neg n d, Fp.isNaN_roundUnits neg n d, Fp.isInf_roundUnits_iff neg n d hd,
    fun hf z _ => Fp.roundUnits_nearest neg n d z hd hf⟩

end Sys2Proof.Proofs
end

section
/-! PROOFS, family 10_state. What a command word can do to the registers, said once, and what follows from it: the
invariant of the registers and the telemetry, and which commands write which register. -/

namespace Sys2Proof.Machine

/-! Registers: everything but the streams, the inputs and the arbiter. -/

/-- The same registers: parameters, telemetry, engine state and failure log. -/
structure SameRegisters (s t : State) : Prop extends SameParams s t, SameTelemetry s t, SameControl s t

variable {s t u : State}

theorem SameRegisters.refl (s : State) : SameRegisters s s := by
  constructor <;> constructor <;> rfl

theorem SameRegisters.trans (h : SameRegisters s t) (h' : SameRegisters t u) : SameRegisters s u where
  eqg := h'.eqg.trans h.eqg
  ch := h'.ch.trans h.ch
  compEn := h'.compEn.trans h.compEn
  limEn := h'.limEn.trans h.limEn
  thr := h'.thr.trans h.thr
  ratio := h'.ratio.trans h.ratio
  ceil := h'.ceil.trans h.ceil
  bass := h'.bass.trans h.bass
  attackTc := h'.attackTc.trans h.attackTc
  releaseTc := h'.releaseTc.trans h.releaseTc
  spec := h'.spec.trans h.spec
  blev := h'.blev.trans h.blev
  hrms := h'.hrms.trans h.hrms
  hpeak := h'.hpeak.trans h.hpeak
  sr := h'.sr.trans h.sr
  eng := h'.eng.trans h.eng
  flt := h'.flt.trans h.flt

theorem sameRegisters_setPort (s : State) (p : Port) (q : PortState) : SameRegisters s (s.setPort p q) := by
  constructor <;> constructor <;> simp

theorem sameRegisters_dinDrop (s : State) (n : Nat) : SameRegisters s (s.dinDrop n) :=
  sameRegisters_setPort ..

theorem sameRegisters_respond (s : State) (op st : BitVec 8) (ws : List Word) :
    SameRegisters s (s.respond op st ws) :=
  sameRegisters_setPort ..

theorem sameRegisters_take (s : State) (p : Port) : SameRegisters s (s.take p) := by
  constructor <;> constructor <;> simp

theorem sameRegisters_redraw (s : State) : SameRegisters s s.redraw := by
  constructor <;> constructor <;> rfl

/-! What a command word does to the registers. -/

/-- What a command word, by its decoding, can do to the registers of `s`: one constructor per way of writing them. -/
inductive Effect (s : State) : Except DecodeError Instr → State → Prop
  /-- Nothing but the streams: NOP, the accessors, a PROCESS in Idle, an ignored operand (R201, R206), missing data. -/
  | quiet {i t} (hstart : i ≠ .start) (hstop : i ≠ .stop) (h : SameRegisters s t) : Effect s (.ok i) t
  /-- START (R181). -/
  | started : Effect s (.ok .start) { s with eng := .active }
  /-- STOP (R182). -/
  | stopped : Effect s (.ok .stop) { s with eng := .idle }
  /-- A PROCESS that runs commits its block (R185, R190). -/
  | committed {n sr t} (hactive : s.eng = .active) (hdata : s.dinHolds n = true)
      (ht : SameRegisters (commitBlock Config.numerics s.xf (s.dinWords n) sr (s.dinDrop n)) t) :
      Effect s (.ok (.process n sr)) t
  /-- SETEQ (R202). -/
  | gainSet {i g} : Effect s (.ok (.seteq i g)) (s.applyEqGain i g)
  /-- SETCH (R203). -/
  | channelSet {c p v} : Effect s (.ok (.setch c p v)) (s.applyChannel c p v)
  /-- SETDYN (R204). -/
  | flagsSet {comp lim} : Effect s (.ok (.setdyn comp lim)) { s with compEn := comp, limEn := lim }
  /-- SETBASS of a value that is no NaN (R205). -/
  | bassSet {g} (h : Fp.isNaN g = false) : Effect s (.ok (.setbass g)) { s with bass := g }
  /-- SETDYNP of a threshold (R206). -/
  | thresholdSet {v} (h : Fp.isNaN v = false) : Effect s (.ok (.setdynp 0 v)) { s with thr := clampThr v }
  /-- SETDYNP of a ratio (R206). -/
  | ratioSet {v} (h : Fp.isNaN v = false) : Effect s (.ok (.setdynp 1 v)) { s with ratio := clampRatio v }
  /-- SETDYNP of a ceiling (R206). -/
  | ceilingSet {v} (h : Fp.isNaN v = false) : Effect s (.ok (.setdynp 2 v)) { s with ceil := clampCeil v }
  /-- A CFGLOAD that has its data words stores the present fields (R207). -/
  | loaded (hdata : s.dinHolds 82 = true) : Effect s (.ok .cfgload)
      ((List.range Config.nrecord).foldl (State.loadField ((s.dinWords 82).take 3) ((s.dinWords 82).drop 3))
        (s.dinDrop 82))
  /-- A reserved opcode (R93). -/
  | badCommand {e} : Effect s (.error e) { s with flt := logBadCmd s.flt }

/-- PROCESS: it waits or is ignored, or it runs and commits (R183, R184, R190). -/
theorem execProcess_effect {n sr : Nat} (h : execProcess n sr s = .next t) : Effect s (.ok (.process n sr)) t := by
  have quiet {t} (h : SameRegisters s t) : Effect s (.ok (.process n sr)) t := .quiet nofun nofun h
  cases hd : s.dinHolds n with
  | false =>
    rw [execProcess_waits hd] at h; cases h
    exact quiet (.refl s)
  | true =>
    cases he : s.eng with
    | idle =>
      rw [execProcess_idle hd he] at h; cases h
      exact quiet ((sameRegisters_dinDrop s n).trans (sameRegisters_respond ..))
    | active =>
      rw [execProcess_active hd he] at h; cases h
      exact .committed he hd ((sameRegisters_respond ..).trans (sameRegisters_redraw _))

/-- SETDYNP: an ignored operand, or the register its selector names (R206). -/
theorem execSetdynp_effect {sel : Nat} {v : Word} (h : execSetdynp sel v s = .next t) :
    Effect s (.ok (.setdynp sel v)) t := by
  unfold execSetdynp at h
  cases hv : Fp.isNaN v with
  | true => rw [hv] at h; cases h; exact .quiet nofun nofun (.refl s)
  | false =>
    rw [hv] at h
    match sel with
    | 0 => cases h; exact .thresholdSet hv
    | 1 => cases h; exact .ratioSet hv
    | 2 => cases h; exact .ceilingSet hv
    | _ + 3 => cases h; exact .quiet nofun nofun (.refl s)

/-- SETBASS: a NaN is ignored, else the register is written (R201, R205). -/
theorem execSetbass_effect {g : Word} (h : execSetbass g s = .next t) : Effect s (.ok (.setbass g)) t := by
  unfold execSetbass at h
  cases hg : Fp.isNaN g <;> rw [hg] at h <;> cases h
  · exact .bassSet hg
  · exact .quiet nofun nofun (.refl s)

/-- CFGLOAD: it waits, or it stores the present fields (R207; log 12). -/
theorem execCfgload_effect (h : execCfgload s = .next t) : Effect s (.ok .cfgload) t := by
  unfold execCfgload at h
  cases hd : s.dinHolds 82 <;> rw [hd] at h <;> cases h
  · exact .quiet nofun nofun (.refl s)
  · exact .loaded hd

/-- Every command has one of the effects. -/
theorem exec_effect {i : Instr} (h : exec i s = .next t) : Effect s (.ok i) t := by
  cases i
  case start => cases h; exact .started
  case stop => cases h; exact .stopped
  case process => exact execProcess_effect h
  case seteq => cases h; exact .gainSet
  case setch => cases h; exact .channelSet
  case setdyn => cases h; exact .flagsSet
  case setbass => exact execSetbass_effect h
  case setdynp => exact execSetdynp_effect h
  case cfgload => exact execCfgload_effect h
  case nop => cases h; exact .quiet nofun nofun (.refl s)
  case getsnap | getlevels | gethist | getstat | cfgsave =>
    cases h; exact .quiet nofun nofun (sameRegisters_respond ..)

/-- Every command word has one of the effects, by its decoding. -/
theorem execWord_effect (w : Cmd) (s : State) : ∃ t, execWord w s = .next t ∧ Effect s (decode w) t := by
  obtain ⟨t, ht⟩ := execWord_next w s
  refine ⟨t, ht, ?_⟩
  cases hw : decode w with
  | ok i => rw [execWord_ok hw] at ht; exact exec_effect ht
  | error e => rw [execWord_error hw] at ht; cases ht; exact .badCommand

end Sys2Proof.Machine
end

section
/-! PROOFS, family 10_state. The invariant of the registers and the telemetry: at reset, and kept by every effect. -/

namespace Sys2Proof.Machine

variable {s t : State}

/-- The invariant holds at reset (R44). -/
theorem reset_inv : State.reset.Inv where
  gains := (forall_mem_eqg _ _).2 fun i hi => by simp [State.reset, State.eqGain, hi]; decide
  booleans c hc := by
    rw [reset_chWord c 6 hc (by decide), reset_chWord c 7 hc (by decide)]
    exact ⟨legalBoolean_booleanWord _, legalBoolean_booleanWord _⟩
  threshold := by decide
  ratio := by decide
  ceiling := by decide
  bass := by decide
  spectrum m hm := by rw [(List.mem_replicate.1 hm).2]; decide
  levels l hl := by rw [(List.mem_replicate.1 hl).2]; decide
  lastBand := by decide
  sameLength := rfl
  bounded := Nat.zero_le _
  rmsEntries := nofun
  peakEntries := nofun

/-- The invariant looks at the registers only. -/
theorem State.Inv.of_sameRegisters (h : s.Inv) (hst : SameRegisters s t) : t.Inv where
  gains := hst.eqg ▸ h.gains
  booleans := by simpa only [State.chWord, hst.ch] using h.booleans
  threshold := hst.thr ▸ h.threshold
  ratio := hst.ratio ▸ h.ratio
  ceiling := hst.ceil ▸ h.ceiling
  bass := hst.bass ▸ h.bass
  spectrum := hst.spec ▸ h.spectrum
  levels := hst.blev ▸ h.levels
  lastBand := hst.blev ▸ h.lastBand
  sameLength := hst.hrms ▸ hst.hpeak ▸ h.sameLength
  bounded := hst.hrms ▸ h.bounded
  rmsEntries := hst.hrms ▸ h.rmsEntries
  peakEntries := hst.hpeak ▸ h.peakEntries

/-! The mutators. -/

/-- SETEQ stores clamped gains (R22, R202). -/
theorem State.Inv.applyEqGain (h : s.Inv) (i : Nat) (g : Fmt) : (s.applyEqGain i g).Inv := by
  have hgains : ∀ x ∈ (s.applyEqGain i g).eqg.toList, legalGain x = true := by
    rw [forall_mem_eqg]
    intro j hj
    rw [eqGain_applyEqGain]
    split
    · next hstored => exact clampGain_legal g hstored.2.2
    · exact (forall_mem_eqg s _).1 h.gains j hj
  rw [← applyEqGain_restore s i g] at h
  exact { h with gains := hgains }

/-- What SETCH stores for mute or bypass is 0 or 1 (R25, R203). -/
theorem channelValue_boolean {p : Nat} (hp : 6 ≤ p) (v old : Word) :
    legalBoolean ((channelValue p v).getD old) = true := by
  simpa [channelValue, isBooleanParam, hp, booleanWord] using legalBoolean_booleanWord v

/-- SETCH stores boolean words for mute and bypass (R25, R203). -/
theorem State.Inv.applyChannel (h : s.Inv) (c p : Nat) (v : Word) : (s.applyChannel c p v).Inv := by
  have hword : ∀ c' p', 6 ≤ p' → legalBoolean (s.chWord c' p') = true →
      legalBoolean ((s.applyChannel c p v).chWord c' p') = true := by
    intro c' p' hp' hold
    rw [chWord_applyChannel]
    split
    · next hstored => exact channelValue_boolean (hstored.2.1 ▸ hp') v _
    · exact hold
  have hbool : ∀ c' < 6, legalBoolean ((s.applyChannel c p v).chWord c' 6) = true ∧
      legalBoolean ((s.applyChannel c p v).chWord c' 7) = true := fun c' hc' =>
    have ⟨hmute, hbypass⟩ := h.booleans c' hc'
    ⟨hword c' 6 le_rfl hmute, hword c' 7 (by decide) hbypass⟩
  rw [← applyChannel_restore s c p v] at h
  exact { h with booleans := hbool }

/-- One field of a CFGLOAD is a SETEQ or a SETCH (R207). -/
theorem State.Inv.loadField (h : s.Inv) (masks record : List Word) (j : Nat) :
    (State.loadField masks record s j).Inv := by
  unfold State.loadField
  split
  · split
    · exact h.applyEqGain _ _
    · exact h.applyChannel _ _ _
  · exact h

/-- So the fields of a CFGLOAD keep the invariant (R207). -/
theorem State.Inv.loadFields (h : s.Inv) (masks record : List Word) (js : List Nat) :
    (js.foldl (State.loadField masks record) s).Inv := by
  induction js generalizing s with
  | nil => exact h
  | cons j js ih => exact ih (h.loadField masks record j)

/-! PROCESS: the snapshot and the histories it commits. -/

/-- The part of the invariant that speaks of the snapshot. -/
structure Snapshot.Legal (a : Snapshot) : Prop where
  spectrum : ∀ m ∈ a.spec.toList, legalMagnitude m = true
  levels : ∀ l ∈ a.blev.toList, Fp.finite l = true
  lastBand : a.blev[30]?.getD 0#32 = 0#32

/-- The part of the invariant that speaks of the histories. -/
structure Levels.Legal (l : Levels) : Prop where
  sameLength : l.hrms.length = l.hpeak.length
  bounded : l.hrms.length ≤ Config.histcap
  rmsEntries : ∀ v ∈ l.hrms, legalMagnitude v = true
  peakEntries : ∀ v ∈ l.hpeak, legalMagnitude v = true

variable (num : Config.Numerics)

/-- A magnitude spectrum that is finite is legal: magnitudes are of sign + (R38, R158). -/
theorem magnitudes_legal {v : List Fmt} (h : (magnitudes num v).all Fp.finite = true) :
    ∀ m ∈ magnitudes num v, legalMagnitude m = true := by
  intro m hm
  have hfinite : Fp.finite m = true := List.all_eq_true.1 h m hm
  obtain ⟨k, -, rfl⟩ := List.mem_map.1 hm
  simp [legalMagnitude, hfinite, sign_tCabs]

/-- A vector built from a list is that list. -/
theorem toList_vecOf_getD {n : Nat} {l : List Fmt} (h : l.length = n) :
    (vecOf n fun i => l.getD i 0#32).toList = l := by
  rw [toList_vecOf]
  refine List.ext_getElem (by simp [h]) fun i hi hi' => ?_
  simp [hi']

/-- The analyzer keeps the snapshot legal (R38, R164, R165). -/
theorem Snapshot.Legal.anaStage {a : Snapshot} (h : a.Legal) (xf : Bool) (x : List Fmt) (sr : Nat) :
    (anaStage num xf x sr a).value.Legal := by
  rcases anaStage_cases num xf x sr a with hold | ⟨hnew, -, -, -, -, hmags, hlevels⟩
  · rw [hold]; exact h
  · rw [hnew, completed_value]
    constructor
    · rw [newSnapshot, toList_vecOf_getD (magnitudes_length num _)]
      exact magnitudes_legal num hmags
    · rw [newSnapshot, toList_vecOf_getD (by simp)]
      exact List.all_eq_true.1 hlevels
    · rw [newSnapshot, getElem?_vecOf]; exact h.lastBand

/-- Appending one legal entry to each history keeps the histories legal (R40, R173). -/
theorem Levels.Legal.append {l : Levels} (h : l.Legal) {r p : Fmt} (hr : legalMagnitude r = true)
    (hp : legalMagnitude p = true) : Levels.Legal ⟨histAppend l.hrms r, histAppend l.hpeak p⟩ where
  sameLength := histAppend_length_eq r p h.sameLength
  bounded := histAppend_length_le l.hrms r
  rmsEntries v hv := (mem_histAppend hv).elim (h.rmsEntries v) (· ▸ hr)
  peakEntries v hv := (mem_histAppend hv).elim (h.peakEntries v) (· ▸ hp)

/-- The peak of finite samples is a legal level (R172). -/
theorem peakOf_legal {x : List Fmt} (hx : x.all Fp.finite = true) : legalMagnitude (peakOf x) = true := by
  obtain ⟨hsign, hfinite⟩ := peak_fold x 0#32 (by decide) hx
  simp [legalMagnitude, peakOf, hsign, hfinite]

/-- The meter keeps the histories legal (R40, R171, R172, R174). -/
theorem Levels.Legal.metStage {l : Levels} (h : l.Legal) (xf : Bool) (x : List Fmt) :
    (metStage num xf x l).value.Legal := by
  rcases metStage_cases num xf x l with hfail | ⟨hnew, -, -, hx, hrms⟩
  · rw [hfail]; exact h
  · rw [hnew]
    exact h.append (by simp [legalMagnitude, hrms, sign_tRms]) (peakOf_legal hx)

/-- The commit of a PROCESS keeps the invariant (R190). -/
theorem State.Inv.commitBlock (h : s.Inv) (xf : BitVec 6) (x : List Fmt) (sr : Nat) :
    (commitBlock num xf x sr s).Inv := by
  have hsnap : (analyzed num xf x sr s).value.Legal :=
    Snapshot.Legal.anaStage num ⟨h.spectrum, h.levels, h.lastBand⟩ _ x sr
  have hlev : (metered num xf x s).value.Legal :=
    Levels.Legal.metStage num ⟨h.sameLength, h.bounded, h.rmsEntries, h.peakEntries⟩ _ x
  exact { hsnap, hlev, h with }

/-! Every step, and what the environment does. -/

/-- Every effect of a command word keeps the invariant. -/
theorem State.Inv.effect {r : Except DecodeError Instr} (h : s.Inv) (he : Effect s r t) : t.Inv := by
  cases he with
  | quiet _ _ hsame => exact h.of_sameRegisters hsame
  | started | stopped | flagsSet | badCommand => exact { h with }
  | committed _ _ ht =>
    exact ((h.of_sameRegisters (sameRegisters_dinDrop ..)).commitBlock ..).of_sameRegisters ht
  | gainSet => exact h.applyEqGain ..
  | channelSet => exact h.applyChannel ..
  | bassSet hg => exact { h with bass := hg }
  | thresholdSet hv => exact { h with threshold := clampThr_legal _ hv }
  | ratioSet hv => exact { h with ratio := clampRatio_legal _ hv }
  | ceilingSet hv => exact { h with ceiling := clampCeil_legal _ hv }
  | loaded _ => exact (h.of_sameRegisters (sameRegisters_dinDrop ..)).loadFields ..

/-- Every step keeps the invariant: it resets, waits, or takes a word and has its effect. -/
theorem State.Inv.step (h : s.Inv) (hstep : step s = .next t) : t.Inv := by
  rcases step_cases s with ⟨-, hs⟩ | ⟨-, -, hs⟩ | ⟨p, -, -, hs⟩
  · cases hs.symm.trans hstep
    exact { reset_inv with }
  · cases hs.symm.trans hstep
    exact h
  · obtain ⟨t', ht', he⟩ := execWord_effect (s.headWord p) (s.take p)
    cases (hs.trans ht').symm.trans hstep
    exact (h.of_sameRegisters (sameRegisters_take s p)).effect he

/-- Every action of the environment keeps the invariant: it touches streams and inputs, or resets. -/
theorem State.Inv.env (h : s.Inv) (a : EnvAction) : (a.apply s).Inv := by
  have hport : ∀ p q, (s.setPort p q).Inv := fun p q => h.of_sameRegisters (sameRegisters_setPort s p q)
  cases a with
  | issue p w | supply p ws =>
    simp only [EnvAction.apply]
    split
    · exact h
    · exact hport ..
  | takeDout p n => exact hport ..
  | drawXf v | releaseReset => exact { h with }
  | assertReset => exact { reset_inv with }

/-- Every reachable state meets the invariant. -/
theorem Reachable.inv (h : Reachable s) : s.Inv := by
  induction h with
  | reset => exact reset_inv
  | step _ hstep ih => exact ih.step hstep
  | env a _ ih => exact ih.env a

end Sys2Proof.Machine

namespace Sys2Proof.Proofs

open Sys2Proof.Machine

/-- Settles O18: a step resets, waits, or has the effect of the word it takes, and each effect keeps the invariant. -/
theorem stepKeepsInvariant : Obligations.StepKeepsInvariant := fun _ _ h hstep => h.step hstep

/-- Settles O19, by induction on how the state was reached. -/
theorem reachableInvariant : Obligations.ReachableInvariant := fun _ h => h.inv

/-- Settles O17: every register has the value of the reset table, by index. -/
theorem resetSatisfiesInvariant : Obligations.ResetSatisfiesInvariant := reset_inv

end Sys2Proof.Proofs
end

section
/-! PROOFS, family 10_state. Which commands write which register, read off the effects (R30 to R40). -/

namespace Sys2Proof.Machine

variable {s t : State} {r : Except DecodeError Instr}

/-! A CFGLOAD writes the gains and the channel words and no other register (R207). -/

section
variable (u : State) (masks record : List Word) (js : List Nat)

@[simp] theorem loadFields_compEn : (js.foldl (State.loadField masks record) u).compEn = u.compEn :=
  loadFields_other u State.compEn (fun _ _ _ => rfl) ..
@[simp] theorem loadFields_limEn : (js.foldl (State.loadField masks record) u).limEn = u.limEn :=
  loadFields_other u State.limEn (fun _ _ _ => rfl) ..
@[simp] theorem loadFields_thr : (js.foldl (State.loadField masks record) u).thr = u.thr :=
  loadFields_other u State.thr (fun _ _ _ => rfl) ..
@[simp] theorem loadFields_ratio : (js.foldl (State.loadField masks record) u).ratio = u.ratio :=
  loadFields_other u State.ratio (fun _ _ _ => rfl) ..
@[simp] theorem loadFields_ceil : (js.foldl (State.loadField masks record) u).ceil = u.ceil :=
  loadFields_other u State.ceil (fun _ _ _ => rfl) ..
@[simp] theorem loadFields_bass : (js.foldl (State.loadField masks record) u).bass = u.bass :=
  loadFields_other u State.bass (fun _ _ _ => rfl) ..
@[simp] theorem loadFields_attackTc : (js.foldl (State.loadField masks record) u).attackTc = u.attackTc :=
  loadFields_other u State.attackTc (fun _ _ _ => rfl) ..
@[simp] theorem loadFields_releaseTc : (js.foldl (State.loadField masks record) u).releaseTc = u.releaseTc :=
  loadFields_other u State.releaseTc (fun _ _ _ => rfl) ..
@[simp] theorem loadFields_eng : (js.foldl (State.loadField masks record) u).eng = u.eng :=
  loadFields_other u State.eng (fun _ _ _ => rfl) ..
@[simp] theorem loadFields_sr : (js.foldl (State.loadField masks record) u).sr = u.sr :=
  loadFields_other u State.sr (fun _ _ _ => rfl) ..
@[simp] theorem loadFields_flt : (js.foldl (State.loadField masks record) u).flt = u.flt :=
  loadFields_other u State.flt (fun _ _ _ => rfl) ..
@[simp] theorem loadFields_spec : (js.foldl (State.loadField masks record) u).spec = u.spec :=
  loadFields_other u State.spec (fun _ _ _ => rfl) ..
@[simp] theorem loadFields_blev : (js.foldl (State.loadField masks record) u).blev = u.blev :=
  loadFields_other u State.blev (fun _ _ _ => rfl) ..
@[simp] theorem loadFields_hrms : (js.foldl (State.loadField masks record) u).hrms = u.hrms :=
  loadFields_other u State.hrms (fun _ _ _ => rfl) ..
@[simp] theorem loadFields_hpeak : (js.foldl (State.loadField masks record) u).hpeak = u.hpeak :=
  loadFields_other u State.hpeak (fun _ _ _ => rfl) ..

end

/-- ENG is written by START and STOP only (R31, R180). -/
theorem Effect.eng (h : Effect s r t) : (r = .ok .start → t.eng = .active) ∧ (r = .ok .stop → t.eng = .idle) ∧
    (r ≠ .ok .start → r ≠ .ok .stop → t.eng = s.eng) := by
  cases h with
  | quiet hstart hstop h => simp [hstart, hstop, h.eng]
  | committed _ _ ht => simp [ht.eng, commitBlock]
  | _ => simp

/-- Telemetry is written by a PROCESS that runs only (R33, R38 to R40). -/
theorem Effect.sameTelemetry (h : Effect s r t) (hruns : ¬ ((∃ n sr, r = .ok (.process n sr)) ∧ s.eng = .active)) :
    SameTelemetry s t := by
  cases h with
  | quiet _ _ h => exact h.toSameTelemetry
  | committed hactive => exact absurd ⟨⟨_, _, rfl⟩, hactive⟩ hruns
  | _ => constructor <;> simp

/-- Each parameter register is written by the commands named for it only (R30). -/
theorem Effect.parameters (h : Effect s r t) :
    (t.eqg ≠ s.eqg → r = .ok .cfgload ∨ ∃ i g, r = .ok (.seteq i g)) ∧
    (t.ch ≠ s.ch → r = .ok .cfgload ∨ ∃ c p v, r = .ok (.setch c p v)) ∧
    (t.compEn ≠ s.compEn ∨ t.limEn ≠ s.limEn → ∃ c l, r = .ok (.setdyn c l)) ∧
    (t.thr ≠ s.thr → ∃ v, r = .ok (.setdynp 0 v)) ∧
    (t.ratio ≠ s.ratio → ∃ v, r = .ok (.setdynp 1 v)) ∧
    (t.ceil ≠ s.ceil → ∃ v, r = .ok (.setdynp 2 v)) ∧
    (t.bass ≠ s.bass → ∃ g, r = .ok (.setbass g)) ∧
    t.attackTc = s.attackTc ∧ t.releaseTc = s.releaseTc := by
  cases h with
  | quiet _ _ h =>
    simp [h.eqg, h.ch, h.compEn, h.limEn, h.thr, h.ratio, h.ceil, h.bass, h.attackTc, h.releaseTc]
  | committed _ _ h =>
    simp [h.eqg, h.ch, h.compEn, h.limEn, h.thr, h.ratio, h.ceil, h.bass, h.attackTc, h.releaseTc, commitBlock]
  | _ => simp

/-! The failure log (R34). -/

@[simp] theorem getLsbD_logFailures (flt : BitVec 7) (f : BitVec 6) (k : Nat) :
    (logFailures flt f).getLsbD k = (flt.getLsbD k || f.getLsbD k) := by
  have hf : (0#1 ++ f).getLsbD k = f.getLsbD k := by
    rw [BitVec.getLsbD_append]
    split
    · rfl
    · rw [BitVec.getLsbD_zero, BitVec.getLsbD_of_ge f k (by omega)]
  rw [logFailures, BitVec.getLsbD_or, hf]

@[simp] theorem getLsbD_logBadCmd (flt : BitVec 7) (k : Nat) :
    (logBadCmd flt).getLsbD k = (flt.getLsbD k || decide (k = 6)) := by
  have hbit : (0x40#7).getLsbD k = decide (k = 6) := by
    change (BitVec.twoPow 7 6).getLsbD k = _
    simp [BitVec.getLsbD_twoPow, eq_comm]
  rw [logBadCmd, BitVec.getLsbD_or, hbit]

/-- FLT is kept, or joined with the failures of a PROCESS that runs, or with BADCMD (R34, R190, R93). -/
theorem Effect.flt_cases (h : Effect s r t) :
    ((∃ i, r = .ok i) ∧ t.flt = s.flt) ∨
    (((∃ n sr, r = .ok (.process n sr)) ∧ s.eng = .active) ∧ ∃ f, t.flt = logFailures s.flt f) ∨
    ((∃ e, r = .error e) ∧ t.flt = logBadCmd s.flt) := by
  cases h with
  | quiet _ _ h => exact .inl ⟨⟨_, rfl⟩, h.flt⟩
  | committed hactive _ ht =>
    exact .inr (.inl ⟨⟨⟨_, _, rfl⟩, hactive⟩, _, ht.flt.trans (congrArg (logFailures · _) (dinDrop_flt ..))⟩)
  | badCommand => exact .inr (.inr ⟨⟨_, rfl⟩, rfl⟩)
  | _ => exact .inl ⟨⟨_, rfl⟩, by simp⟩

/-- A command word is rejected exactly for a reserved opcode (R93). -/
theorem decode_error_iff (w : Cmd) : (∃ e, decode w = .error e) ↔ reservedOp (fieldOp w) = true := by
  unfold decode
  dsimp only
  split
  case h_16 =>
    have hreserved : reservedOp (fieldOp w) = true := by
      simp only [imp_false, BitVec.toNat_eq, BitVec.toNat_ofNat, reservedOp, decide_eq_true_eq] at *
      omega
    simp [hreserved]
  all_goals next hop => simp [hop, reservedOp]

end Sys2Proof.Machine

namespace Sys2Proof.Proofs

open Sys2Proof.Machine

/-- Settles O20: of the effects only those of START and STOP write ENG. -/
theorem engChangedOnlyByStartStop : Obligations.EngChangedOnlyByStartStop := fun w s =>
  have ⟨t, ht, he⟩ := execWord_effect w s
  ⟨t, ht, he.eng⟩

/-- Settles O21: FLT is kept, or joined with stage failures or with BADCMD, so each bit is kept or set. -/
theorem fltSticky : Obligations.FltSticky := by
  intro w s
  obtain ⟨t, ht, he⟩ := execWord_effect w s
  refine ⟨t, ht, ?_⟩
  rw [← decode_error_iff]
  rcases he.flt_cases with ⟨⟨i, hi⟩, hflt⟩ | ⟨hruns, f, hflt⟩ | ⟨⟨e, hw⟩, hflt⟩
  · simp +contextual [hflt, hi]
  · have ⟨⟨n, sr, hp⟩, _⟩ := hruns
    refine ⟨by simp +contextual [hflt], fun _ _ _ _ => hruns, fun hclear => ?_⟩
    rw [hflt, getLsbD_logFailures, hclear, BitVec.getLsbD_of_ge f 6 le_rfl]
    simp [hp]
  · refine ⟨by simp +contextual [hflt], fun k hk => ?_, by simp [hflt, hw]⟩
    simp +contextual [hflt, hk.ne]

/-- Settles O22: of the effects only the commit of a PROCESS that runs writes telemetry. -/
theorem telemetryWrittenOnlyByProcess : Obligations.TelemetryWrittenOnlyByProcess := fun w s hruns =>
  have ⟨t, ht, he⟩ := execWord_effect w s
  ⟨t, ht, he.sameTelemetry hruns⟩

/-- Settles O23: effect by effect, the registers it writes are those its command is named for. -/
theorem parametersWrittenOnlyByTheirCommands : Obligations.ParametersWrittenOnlyByTheirCommands := fun w s =>
  have ⟨t, ht, he⟩ := execWord_effect w s
  ⟨t, ht, he.parameters⟩

end Sys2Proof.Proofs
end

section
/-! PROOFS, family 10_state. The reset table (R44), what the response to a PROCESS depends on, and the circular buffer
of R41. -/

namespace Sys2Proof.Machine

/-! The response to a PROCESS. -/

/-- The stage failures depend on the parameters of the chain, the snapshot and the histories (R186, R187, R189). -/
theorem stageFailures_congr (num : Config.Numerics) (xf : BitVec 6) {s t : State} (x : List Fmt) (sr : Nat)
    (hchain : audioChain num xf t x sr = audioChain num xf s x sr) (hspec : t.spec = s.spec) (hblev : t.blev = s.blev)
    (hhrms : t.hrms = s.hrms) (hhpeak : t.hpeak = s.hpeak) :
    stageFailures num xf x sr t = stageFailures num xf x sr s := by
  simp only [stageFailures, analyzed, metered, hchain, hspec, hblev, hhrms, hhpeak]

/-! The circular buffer of R41. -/

namespace HistoryRing

variable (r : HistoryRing) (v : Fmt)

/-- The entry of age position `i` (R41). -/
def entry (i : Nat) : Fmt := r.mem[r.place i]?.getD 0#32

/-- How many of the oldest entries an append drops: one when the ring is full. -/
def dropped : Nat := if r.hc < 100 then 0 else 1

theorem contents_eq_map_entry : r.contents = (List.range r.hc).map r.entry := rfl

theorem legal_iff : r.legal = true ↔ r.hw < 100 ∧ r.hc ≤ 100 := by simp [legal]

variable {r} (h : r.legal = true)

theorem push_legal : (r.push v).legal = true := by
  rw [legal_iff]
  exact ⟨Nat.mod_lt _ (by decide), Nat.min_le_right ..⟩

include h

theorem push_hc : (r.push v).hc = r.hc - r.dropped + 1 := by
  obtain ⟨-, hcount⟩ := (legal_iff r).1 h
  simp only [push, dropped, Nat.min_def]
  split <;> split <;> omega

/-- An append moves every age position back by the entries it drops. -/
theorem push_place (i : Nat) : (r.push v).place i = r.place (i + r.dropped) := by
  obtain ⟨hwrite, hcount⟩ := (legal_iff r).1 h
  simp only [place, push, dropped, Nat.min_def]
  split <;> split <;> omega

/-- Of the places an append keeps or fills, the write index is the one after the newest entry. -/
theorem place_eq_hw_iff {i : Nat} (hi : i ≤ r.hc - r.dropped) :
    r.place (i + r.dropped) = r.hw ↔ i = r.hc - r.dropped := by
  obtain ⟨hwrite, hcount⟩ := (legal_iff r).1 h
  unfold dropped place at *
  by_cases hroom : r.hc < 100
  · simp only [if_pos hroom] at *
    omega
  · simp only [if_neg hroom] at *
    omega

/-- The newest entry after an append is the value appended. -/
theorem push_entry_newest : (r.push v).entry (r.hc - r.dropped) = v := by
  rw [entry, push_place v h, (place_eq_hw_iff h le_rfl).2 rfl]
  simp [push, ((legal_iff r).1 h).1]

/-- Every older entry after an append is an entry from before it. -/
theorem push_entry_older {i : Nat} (hi : i < r.hc - r.dropped) : (r.push v).entry i = r.entry (i + r.dropped) := by
  have hne : r.hw ≠ r.place (i + r.dropped) := fun heq => hi.ne ((place_eq_hw_iff h hi.le).1 heq.symm)
  rw [entry, push_place v h, entry, push, Vector.getElem?_setIfInBounds_ne hne]

/-- The history append, on the entries of a legal ring in age order (R173). -/
theorem histAppend_contents : histAppend r.contents v = r.contents.drop r.dropped ++ [v] := by
  have hlen : r.contents.length = r.hc := by simp [contents]
  unfold histAppend dropped
  rw [hlen]
  split
  · rfl
  · rw [List.take_of_length_le]
    simpa [hlen] using ((legal_iff r).1 h).2

/-- Appending to a legal ring is the history append on its entries in age order (R41, R173). -/
theorem push_contents : (r.push v).contents = histAppend r.contents v := by
  have holder : (List.range (r.hc - r.dropped)).map (r.push v).entry = r.contents.drop r.dropped := by
    refine List.ext_getElem (by simp [contents_eq_map_entry]) fun i hi _ => ?_
    rw [List.length_map, List.length_range] at hi
    simp [contents_eq_map_entry, push_entry_older v h hi, Nat.add_comm]
  rw [contents_eq_map_entry, push_hc v h, List.range_succ, List.map_append, holder, List.map_singleton,
    push_entry_newest v h, histAppend_contents v h]

end HistoryRing

end Sys2Proof.Machine

namespace Sys2Proof.Proofs

open Sys2Proof.Machine

/-- Settles O7: the reset value by its definition, but for the channel words, of which only R29's limit is known. -/
theorem resetState : Obligations.ResetState := by
  refine ⟨rfl, fun i hi => ?_, reset_inv.booleans, rfl, rfl, rfl, rfl, rfl, rfl, rfl, rfl, rfl, fun k hk => ?_,
    fun i hi => ?_, rfl, rfl, fun p => by cases p <;> exact ⟨rfl, rfl⟩⟩
  all_goals simp [State.eqGain, State.reset, *]

/-- Settles O44: the chain reads the parameters only, and the failure bits the snapshot and histories besides. -/
theorem responseIgnoresChannelsAndRate : Obligations.ResponseIgnoresChannelsAndRate := by
  intro s u n sr hs hu hns hnu hx hxf heqg hcomp hlim hthr hratio hceil hbass hspec hblev hhrms hhpeak
  have hchain : audioChain Config.numerics s.xf (u.dinDrop n) (s.dinWords n) sr =
      audioChain Config.numerics s.xf (s.dinDrop n) (s.dinWords n) sr :=
    audioChain_congr _ _ _ _ (by simpa) (by simpa) (by simpa) (by simpa) (by simpa) (by simpa) (by simpa)
  have hfail : stageFailures Config.numerics s.xf (s.dinWords n) sr (u.dinDrop n) =
      stageFailures Config.numerics s.xf (s.dinWords n) sr (s.dinDrop n) :=
    stageFailures_congr _ _ _ _ hchain (by simpa) (by simpa) (by simpa) (by simpa)
  have hwords : u.dinWords n = s.dinWords n := hx.symm
  refine ⟨_, _, _, execProcess_active (by simpa [State.dinHolds]) hs,
    execProcess_active (by simpa [State.dinHolds]) hu, streamed_process .., ?_⟩
  rw [hxf, hwords, ← hchain, ← hfail]
  exact streamed_process ..

/-- Settles O59: by age positions, an append shifts a full ring by one and writes the newest entry. -/
theorem ringRefinesHistory : Obligations.RingRefinesHistory :=
  ⟨by decide, rfl, fun r h => by simp [HistoryRing.contents, h],
    fun _ v h => ⟨HistoryRing.push_legal v, HistoryRing.push_contents v h⟩⟩

end Sys2Proof.Proofs
end

section
/-! PROOFS, family 20_memory. A command read back from its word, and its word from a byte stream (R64, R80). -/

namespace Sys2Proof

/-- Decoding the word of a well-formed command gives the command back (R80, R81). -/
theorem decode_encode {i : Instr} (h : i.wf = true) : decode (encode i) = .ok i := by
  cases i
  case process n sr =>
    simp only [Instr.wf, Config.nmax, Bool.and_eq_true, decide_eq_true_eq] at h
    simp [decode, encode, Instr.opcode]
    omega
  case setdyn comp lim =>
    cases comp <;> cases lim <;> simp [decode, encode, Instr.opcode]
  case seteq | setch | setdynp | gethist =>
    simp only [Instr.wf, Bool.and_eq_true, decide_eq_true_eq] at h
    simp [decode, encode, Instr.opcode]
    omega
  all_goals simp [decode, encode, Instr.opcode]

/-- The eight bytes of a command word, read back (R64). -/
theorem ofBytesLE_toBytesLE (w : Cmd) : ofBytesLE 64 (toBytesLE 8 w.toNat) = w := by
  rw [ofBytesLE, foldr_toBytesLE, Nat.mod_eq_of_lt (by exact w.isLt), BitVec.ofNat_toNat, BitVec.setWidth_eq]

/-- The next command of a byte stream that begins with the bytes of a word is the word's (R64). -/
theorem decodeBytes_toBytesLE (w : Cmd) (rest : List Byte) :
    decodeBytes (toBytesLE 8 w.toNat ++ rest) = (decode w).map fun i => (i, rest) := by
  have hlen := length_toBytesLE 8 w.toNat
  rw [decodeBytes, if_neg (by simp [hlen]), List.take_left' hlen, List.drop_left' hlen, ofBytesLE_toBytesLE]

end Sys2Proof

namespace Sys2Proof.Proofs

open Sys2Proof.Machine

/-- Settles O3: the bytes give the word back, and the word its command. -/
theorem byteStreamRoundTrip : Obligations.ByteStreamRoundTrip := by
  intro i rest h
  rw [encodeBytes, decodeBytes_toBytesLE, decode_encode h]
  rfl

end Sys2Proof.Proofs
end

section
/-! PROOFS, family 20_memory. The step and the arbiter (R70, R71, R78): what taking a word leaves alone, which port is
picked, and how long a ready port waits. -/

namespace Sys2Proof.Machine

variable {s t : State} {p q : Port} {w : Cmd}

/-! Taking the picked word and running it. -/

/-- The step runs the head word of the picked port on the state with the word taken (R70, R98). -/
theorem step_of_pick (hr : s.rst = false) (hp : s.pick = some p) : step s = execWord (s.headWord p) (s.take p) := by
  simp [step, hr, hp]

theorem headWord_of_cmd {rest : List Cmd} (h : (s.port p).cmd = w :: rest) : s.headWord p = w := by
  simp [State.headWord, h]

/-- The word taken from a ready port is the head of its command stream (R61). -/
theorem cmd_eq_headWord_cons_take (h : (s.port p).ready = true) :
    (s.port p).cmd = s.headWord p :: ((s.take p).port p).cmd := by
  obtain ⟨w, rest, hcmd, -⟩ := (ready_iff _).1 h
  simp [headWord_of_cmd hcmd, hcmd]

/-! Which port is picked (R71). -/

/-- A ready port that is due before every other ready one is picked. -/
theorem pick_of_soonest (hp : (s.port p).ready = true)
    (h : ∀ q, q ≠ p → (s.port q).ready = true → (s.port p).due < (s.port q).due) : s.pick = some p := by
  cases hpick : s.pick with
  | none => simp [(pick_none s).1 hpick p] at hp
  | some q =>
    by_contra hne
    exact Nat.not_lt.2 (pick_least s hpick hp) (h q (by simpa using hne) (pick_ready s hpick))

/-- The choices of the arbiter that put port `p` before the others. -/
def dueFirst (p q : Port) : Nat := if q = p then 0 else 1

/-- Choices set by `withDues`, port by port. -/
theorem withDues_port (f : Port → Nat) (q : Port) :
    (s.withDues (f .P) (f .C) (f .D)).port q = { s.port q with due := f q } := by
  cases q <;> rfl

/-! Waiting (R78; log 10). A port `p` is served after at most as many steps as the turn count lags behind its `due`,
and one for every other port that is due no later. -/

/-- 1 when port `q` is another port than `p` and due no later, so that it may be served before `p`. -/
def State.ahead (s : State) (p q : Port) : Nat := if q ≠ p ∧ (s.port q).due ≤ (s.port p).due then 1 else 0

/-- The bound on the steps that port `p` waits. -/
def State.waiting (s : State) (p : Port) : Nat :=
  (s.port p).due - s.turn + (s.ahead p .P + s.ahead p .C + s.ahead p .D)

theorem ahead_self (s : State) (p : Port) : s.ahead p p = 0 := by simp [State.ahead]

theorem ahead_le_one (s : State) (p q : Port) : s.ahead p q ≤ 1 := by
  unfold State.ahead; split <;> decide

/-- The wait stays within the bound of log 10: there are two other ports. -/
theorem waiting_le (s : State) (p : Port) : s.waiting p ≤ (s.port p).due - s.turn + 2 := by
  have hself := ahead_self s p
  have hle := ahead_le_one s p
  have hP := hle .P
  have hC := hle .C
  have hD := hle .D
  unfold State.waiting
  cases p <;> omega

/-- A step that serves another port shortens the wait: the port served is ahead no longer, unless `p` is due after the
new turn count, which has come nearer. -/
theorem waiting_lt_of_served (hp : (s.port p).ready = true) (hq : s.pick = some q) (hqp : q ≠ p)
    (hturn : t.turn = s.turn + 1) (hdue : s.turn + 1 ≤ (t.port q).due) (hports : ∀ r, r ≠ q → t.port r = s.port r) :
    t.waiting p < s.waiting p := by
  have hpt : t.port p = s.port p := hports p hqp.symm
  have hothers (r : Port) (hr : r ≠ q) : t.ahead p r = s.ahead p r := by simp [State.ahead, hpt, hports r hr]
  have hserved : t.ahead p q + ((s.port p).due - t.turn) < s.ahead p q + ((s.port p).due - s.turn) := by
    have hwas : s.ahead p q = 1 := if_pos ⟨hqp, pick_least s hq hp⟩
    rw [hwas, State.ahead, hpt, hturn]
    split <;> omega
  rw [State.waiting, State.waiting, hpt]
  cases q <;> simp [hothers] <;> omega

/-- One more step at the front of a run. -/
theorem run_succ (k : Nat) (h : step s = .next t) :
    Host.Core.run Sys2Proof.core (k + 1) s = Host.Core.run Sys2Proof.core k t := by
  simp only [Host.Core.run, Sys2Proof.core, h]

/-- A ready port is picked, with the same head word, after at most the steps it waits (R78). -/
theorem picked_within_waiting (s : State) (p : Port) (hr : s.rst = false) (hp : (s.port p).ready = true) :
    ∃ k ≤ s.waiting p, ∃ t, Host.Core.run Sys2Proof.core k s = .next t ∧
      t.pick = some p ∧ t.headWord p = s.headWord p := by
  cases hpick : s.pick with
  | none => simp [(pick_none s).1 hpick p] at hp
  | some q =>
    by_cases hqp : q = p
    · exact ⟨0, Nat.zero_le _, s, rfl, hqp ▸ hpick, rfl⟩
    · obtain ⟨t, hstep, hrt, hturn, hdue, hports⟩ := step_served hr hpick
      have hpt : t.port p = s.port p := hports p (Ne.symm hqp)
      have hlt : t.waiting p < s.waiting p := waiting_lt_of_served hp hpick hqp hturn hdue hports
      obtain ⟨k, hk, u, hrun, hpicku, hhead⟩ := picked_within_waiting t p hrt (hpt ▸ hp)
      exact ⟨k + 1, by omega, u, (run_succ k hstep).trans hrun, hpicku, by rw [hhead, State.headWord, hpt]; rfl⟩
termination_by s.waiting p

/-! A command that lacks data words (R78, R290; log 12). -/

/-- Executing a command whose data words are not all there changes nothing. -/
theorem exec_waits {i : Instr} (h : s.here.din.length < i.dataWords) : exec i s = .next s := by
  have hmissing : s.dinHolds i.dataWords = false := decide_eq_false (Nat.not_le.2 h)
  cases i
  case process => exact execProcess_waits hmissing
  case cfgload => exact if_neg (Bool.eq_false_iff.1 hmissing)
  all_goals exact absurd h (Nat.not_lt_zero _)

/-! Two racing commands (R73, R79). -/

/-- A port without commands is not ready. -/
theorem not_ready_of_cmd_nil {q : PortState} (h : q.cmd = []) : q.ready = false := by
  simp [PortState.ready, h]

/-- When `p` is picked while only `p` and `q` have a command, one each, two steps execute that of `p`, then that of
`q`. -/
theorem run_two_of_pick {w' : Cmd} (hr : s.rst = false) (hpick : s.pick = some p) (hqp : q ≠ p)
    (hp : (s.port p).cmd = [w]) (hq : (s.port q).cmd = [w']) (hdata : wordsNeeded w' ≤ (s.port q).din.length)
    (hothers : ∀ r, r ≠ p → r ≠ q → (s.port r).cmd = []) :
    ∃ t, Host.Core.run Sys2Proof.core 2 s = .next t ∧
      ∃ a, execWord w (s.take p) = .next a ∧ execWord w' (a.take q) = .next t := by
  obtain ⟨a, hstep, hra, -, -, hports⟩ := step_served hr hpick
  obtain ⟨_, _, _, hexec, hstreams, -⟩ := execWord_streams w (s.take p)
  have hfirst : step s = execWord w (s.take p) := by rw [step_of_pick hr hpick, headWord_of_cmd hp]
  cases hexec.symm.trans (hfirst.symm.trans hstep)
  have hqa : a.port q = s.port q := hports q hqp
  have hempty (r : Port) (hrq : r ≠ q) : (a.port r).cmd = [] := by
    by_cases hrp : r = p
    · simp [hstreams.cmd, hrp, hp]
    · rw [hports r hrp, hothers r hrp hrq]
  have hpicka : a.pick = some q := pick_of_soonest (hqa ▸ (ready_iff _).2 ⟨w', [], hq, hdata⟩)
    fun r hrq hready => by simp [not_ready_of_cmd_nil (hempty r hrq)] at hready
  have hsecond : step a = execWord w' (a.take q) := by
    rw [step_of_pick hra hpicka, headWord_of_cmd (hqa ▸ hq)]
  obtain ⟨t, ht⟩ := execWord_next w' (a.take q)
  exact ⟨t, by rw [run_succ 1 hstep, run_succ 0 (hsecond.trans ht)]; rfl, a, hexec, ht⟩

end Sys2Proof.Machine

namespace Sys2Proof.Proofs

open Sys2Proof.Machine

/-- Settles O9: the step runs the head word of the picked port; the rest is what taking a word changes. -/
theorem stepRunsDecoded : Obligations.StepRunsDecoded := by
  intro s p i hr hp hi
  have hregs := sameRegisters_take s p
  refine ⟨by rw [step_of_pick hr hp, execWord_ok hi], rfl, cmd_eq_headWord_cons_take (pick_ready s hp), by simp,
    by simp, fun q hq => by simp [hq], hregs.toSameParams, hregs.toSameTelemetry, hregs.toSameControl, by simp [hr], by simp,
    by simp, rfl⟩

/-- Settles O12: the pick is a ready port of least `due`; choices that make a ready port due alone first pick it. -/
theorem arbiterMayPickAnyReadyPort : Obligations.ArbiterMayPickAnyReadyPort := by
  refine ⟨fun s p => pick_ready s, fun s hnone => ⟨(pick_none s).1 hnone, fun hr => by simp [step, hr, hnone]⟩, ?_⟩
  intro s p hp
  refine ⟨dueFirst p .P, dueFirst p .C, dueFirst p .D, pick_of_soonest ?_ fun q hq _ => ?_⟩
  · rw [withDues_port]; exact hp
  · rw [withDues_port, withDues_port]; simp [dueFirst, hq]

/-- Settles O13: each step that serves another port brings the ready port nearer to its turn. -/
theorem fairArbitration : Obligations.FairArbitration := by
  intro s p hr hp
  obtain ⟨k, hk, hpicked⟩ := picked_within_waiting s p hr hp
  exact ⟨k, hk.trans (waiting_le s p), hpicked⟩

/-- Settles O14: a port that lacks data words is not ready, so the step waits or serves another port. -/
theorem starvedPortHolds : Obligations.StarvedPortHolds := by
  refine ⟨fun s t p w rest hr hcmd hlacks hstep => ?_, fun s i => exec_waits⟩
  rcases step_cases s with ⟨hrst, -⟩ | ⟨-, -, hwait⟩ | ⟨q, -, hq, -⟩
  · simp [hr] at hrst
  · cases hwait.symm.trans hstep
    rfl
  · have hne : p ≠ q := by
      rintro rfl
      obtain ⟨w', rest', hcmd', hdata⟩ := (ready_iff _).1 (pick_ready s hq)
      cases hcmd.symm.trans hcmd'
      omega
    obtain ⟨t', ht', -, -, -, hports⟩ := step_served hr hq
    cases ht'.symm.trans hstep
    exact hports p hne

/-- Settles O15: whichever of the two ports is picked first, the other is the only ready one left. -/
theorem twoPortRace : Obligations.TwoPortRace := by
  intro s w1 w2 hr hP hC hD hneeds1 hneeds2
  cases hpick : s.pick with
  | none =>
    exact absurd ((ready_iff _).2 ⟨w1, [], hP, hneeds1⟩) (Bool.eq_false_iff.1 ((pick_none s).1 hpick .P))
  | some p =>
    cases p with
    | P =>
      obtain ⟨t, hrun, hexec⟩ := run_two_of_pick (q := .C) hr hpick nofun hP hC hneeds2
        fun | .P, h, _ => absurd rfl h | .C, _, h => absurd rfl h | .D, _, _ => hD
      exact ⟨t, hrun, .inl hexec⟩
    | C =>
      obtain ⟨t, hrun, hexec⟩ := run_two_of_pick (q := .P) hr hpick nofun hC hP hneeds1
        fun | .P, _, h => absurd rfl h | .C, h, _ => absurd rfl h | .D, _, _ => hD
      exact ⟨t, hrun, .inr hexec⟩
    | D => exact absurd (pick_ready s hpick) (Bool.eq_false_iff.1 (not_ready_of_cmd_nil hD))

end Sys2Proof.Proofs
end

section
/-! PROOFS, family 20_memory. What commands read and write: an accessor reads registers and appends its response, a
mutator without data updates registers whatever the inputs, and so every command has the same effect on every port
(R63, R68, R220). -/

namespace Sys2Proof.Machine

variable {s t u : State}

/-! States that agree in their registers. -/

/-- The registers of `s` with the streams, the inputs and the arbiter of `u`. -/
def State.withInputs (s u : State) : State :=
  { s with portP := u.portP, portC := u.portC, portD := u.portD, rst := u.rst, xf := u.xf, draws := u.draws,
           turn := u.turn, cur := u.cur }

@[simp] theorem withInputs_cur : (s.withInputs u).cur = u.cur := rfl

@[simp] theorem withInputs_port (p : Port) : (s.withInputs u).port p = u.port p := by cases p <;> rfl

theorem sameRegisters_withInputs (s u : State) : SameRegisters s (s.withInputs u) := by
  constructor <;> constructor <;> rfl

/-- Two states with the same registers differ in their inputs only. -/
theorem SameRegisters.eq_withInputs (h : SameRegisters s u) : u = s.withInputs u := by
  obtain ⟨⟨⟩, ⟨⟩, ⟨⟩⟩ := h
  cases s; cases u
  simp_all [State.withInputs]

/-- What reads registers only is the same for the same registers. -/
theorem SameRegisters.read {α : Type} (f : State → α) (hf : ∀ s u : State, f (s.withInputs u) = f s)
    (h : SameRegisters s u) : f u = f s := by
  rw [h.eq_withInputs, hf]

theorem SameRegisters.symm (h : SameRegisters s u) : SameRegisters u s := by
  constructor <;> constructor <;> exact (h.read _ fun _ _ => rfl).symm

/-! Updates of registers. -/

/-- An update of registers that neither reads nor writes streams, inputs or the arbiter. -/
def KeepsInputs (g : State → State) : Prop := ∀ s u : State, g (s.withInputs u) = (g s).withInputs u

theorem KeepsInputs.apply_eq {g : State → State} (hg : KeepsInputs g) (s : State) : g s = (g s).withInputs s := hg s s

theorem KeepsInputs.sameRegisters {g : State → State} (hg : KeepsInputs g) (h : SameRegisters s u) :
    SameRegisters (g s) (g u) := by
  rw [h.eq_withInputs, hg]
  exact sameRegisters_withInputs ..

theorem KeepsInputs.port {g : State → State} (hg : KeepsInputs g) (s : State) (p : Port) :
    (g s).port p = s.port p := by
  rw [hg.apply_eq]; simp

theorem KeepsInputs.cur {g : State → State} (hg : KeepsInputs g) (s : State) : (g s).cur = s.cur := by
  rw [hg.apply_eq]; simp

theorem applyEqGain_keepsInputs (i : Nat) (g : Fmt) : KeepsInputs fun s => s.applyEqGain i g := by
  intro s u; dsimp only [State.applyEqGain]; split <;> rfl

theorem applyChannel_keepsInputs (c p : Nat) (v : Word) : KeepsInputs fun s => s.applyChannel c p v := by
  intro s u; dsimp only [State.applyChannel]; (repeat' split) <;> rfl

theorem loadField_keepsInputs (m r : List Word) (j : Nat) : KeepsInputs fun s => State.loadField m r s j := by
  intro s u
  dsimp only [State.loadField]
  split
  · split
    · exact applyEqGain_keepsInputs _ _ s u
    · exact applyChannel_keepsInputs _ _ _ s u
  · rfl

theorem loadFields_keepsInputs (m r : List Word) (js : List Nat) :
    KeepsInputs fun s => js.foldl (State.loadField m r) s := by
  intro s u
  induction js generalizing s with
  | nil => rfl
  | cons j js ih => exact (congrArg (js.foldl _) (loadField_keepsInputs m r j s u)).trans (ih _)

theorem commitBlock_keepsInputs (num : Config.Numerics) (xf : BitVec 6) (x : List Fmt) (sr : Nat) :
    KeepsInputs (commitBlock num xf x sr) := fun _ _ => rfl

/-! Accessors (R68, R220). -/

/-- An accessor appends a response whose payload reads registers only. -/
theorem exec_accessor {i : Instr} (h : accessor i = true) : ∃ (op : BitVec 8) (payload : State → List Word),
    (∀ s, exec i s = .next (s.respond op 0#8 (payload s))) ∧ ∀ s u : State, payload (s.withInputs u) = payload s := by
  cases i
  case getsnap | getlevels | gethist | getstat | cfgsave => exact ⟨_, _, fun _ => rfl, fun _ _ => rfl⟩
  all_goals simp [accessor, responds] at h

theorem sameInputs_respond (s : State) (op st : BitVec 8) (ws : List Word) : SameInputs s (s.respond op st ws) := by
  refine ⟨by simp, by simp, by simp, by simp, fun p => ?_⟩
  by_cases hp : p = s.cur <;> simp [hp]

/-! Mutators without data (R68). -/

@[simp] theorem setEqGain_setEqGain (s : State) (i : Nat) (g : Fmt) :
    (s.setEqGain i g).setEqGain i g = s.setEqGain i g := by
  simp [State.setEqGain]

@[simp] theorem setChWord_setChWord (s : State) (c p : Nat) (v : Word) :
    (s.setChWord c p v).setChWord c p v = s.setChWord c p v := by
  by_cases hc : c < 6 <;> simp [State.setChWord, hc]

theorem applyEqGain_twice (s : State) (i : Nat) (g : Fmt) :
    (s.applyEqGain i g).applyEqGain i g = s.applyEqGain i g := by
  by_cases h : 30 < i ∨ Fp.isNaN g = true <;> simp [State.applyEqGain, h]

theorem applyChannel_twice (s : State) (c p : Nat) (v : Word) :
    (s.applyChannel c p v).applyChannel c p v = s.applyChannel c p v := by
  by_cases h : 5 < c ∨ 7 < p
  · simp [State.applyChannel, h]
  · cases hv : channelValue p v <;> simp [State.applyChannel, h, hv]

/-- A mutator without data, or NOP, is an update of registers that done twice is done once. -/
theorem exec_idempotent {i : Instr} (h : idempotent i = true) : ∃ g : State → State,
    (∀ s, exec i s = .next (g s)) ∧ KeepsInputs g ∧ ∀ s, g (g s) = g s := by
  cases i
  case nop | start | stop | setdyn => exact ⟨_, fun _ => rfl, fun _ _ => rfl, fun _ => rfl⟩
  case seteq i g => exact ⟨_, fun _ => rfl, applyEqGain_keepsInputs i g, fun s => applyEqGain_twice s i g⟩
  case setch c p v => exact ⟨_, fun _ => rfl, applyChannel_keepsInputs c p v, fun s => applyChannel_twice s c p v⟩
  case setbass g =>
    refine ⟨_, fun _ => rfl, ?_⟩
    cases Fp.isNaN g <;> exact ⟨fun _ _ => rfl, fun _ => rfl⟩
  case setdynp sel v =>
    refine ⟨_, fun _ => rfl, ?_⟩
    cases Fp.isNaN v
    · match sel with
      | 0 | 1 | 2 | _ + 3 => exact ⟨fun _ _ => rfl, fun _ => rfl⟩
    · exact ⟨fun _ _ => rfl, fun _ => rfl⟩
  all_goals simp [idempotent, responds] at h

/-! Stream operations on states with the same registers or the same data-in words. -/

theorem dinDrop_zero (s : State) : s.dinDrop 0 = s := setPort_port ..

theorem SameRegisters.dinDrop (h : SameRegisters s u) (n : Nat) : SameRegisters (s.dinDrop n) (u.dinDrop n) :=
  ((sameRegisters_dinDrop s n).symm.trans h).trans (sameRegisters_dinDrop u n)

theorem SameRegisters.respond (h : SameRegisters s u) (op st : BitVec 8) (ws : List Word) :
    SameRegisters (s.respond op st ws) (u.respond op st ws) :=
  ((sameRegisters_respond s op st ws).symm.trans h).trans (sameRegisters_respond u op st ws)

theorem dinHolds_congr (hdin : u.here.din = s.here.din) (n : Nat) : u.dinHolds n = s.dinHolds n := by
  rw [State.dinHolds, State.dinHolds, hdin]

theorem dinWords_congr (hdin : u.here.din = s.here.din) (n : Nat) : u.dinWords n = s.dinWords n := by
  rw [State.dinWords, State.dinWords, hdin]

/-! The same effect on states whose registers and data-in words are the same (R63, R255). -/

/-- The two outcomes leave the same registers, each with as many data words taken from its own executing port and the
same words answered there. -/
def SameEffect (s u : State) (o o' : Outcome) : Prop :=
  ∃ t t' n ws, o = .next t ∧ o' = .next t' ∧ SameRegisters t t' ∧ Streamed s t n ws ∧ Streamed u t' n ws

/-- An update of registers has the same effect on states with the same registers. -/
theorem sameEffect_of_keepsInputs {g : State → State} (hg : KeepsInputs g) (h : SameRegisters s u) :
    SameEffect s u (.next (g s)) (.next (g u)) :=
  ⟨g s, g u, 0, [], rfl, rfl, hg.sameRegisters h, streamed_of_ports (hg.cur s) (hg.port s),
    streamed_of_ports (hg.cur u) (hg.port u)⟩

/-- Waiting has the same effect: none. -/
theorem sameEffect_waits (h : SameRegisters s u) : SameEffect s u (.next s) (.next u) :=
  sameEffect_of_keepsInputs (g := id) (fun _ _ => rfl) h

/-- A response of the same words, after as many data words were taken, has the same effect. -/
theorem sameEffect_respond (op st : BitVec 8) (n : Nat) (ws : List Word) (h : SameRegisters s u) :
    SameEffect s u (.next ((s.dinDrop n).respond op st ws)) (.next ((u.dinDrop n).respond op st ws)) :=
  ⟨_, _, n, _, rfl, rfl, (h.dinDrop n).respond op st ws, streamed_respond op st n ws (by simp) fun _ => rfl,
    streamed_respond op st n ws (by simp) fun _ => rfl⟩

section
variable (h : SameRegisters s u) (hdin : u.here.din = s.here.din)
include h hdin

/-- PROCESS: the block, the parameters and the draw are the same, so the response and the commit are (R183 to R190). -/
theorem execProcess_sameEffect (hxf : u.xf = s.xf) (n sr : Nat) :
    SameEffect s u (execProcess n sr s) (execProcess n sr u) := by
  have hholds := dinHolds_congr hdin n
  cases hd : s.dinHolds n with
  | false =>
    rw [execProcess_waits hd, execProcess_waits (hholds.trans hd)]
    exact sameEffect_waits h
  | true =>
    cases he : s.eng with
    | idle =>
      rw [execProcess_idle hd he, execProcess_idle (hholds.trans hd) (h.eng.trans he)]
      exact sameEffect_respond 0x03#8 ignStatus n [] h
    | active =>
      have hregs := h.dinDrop n
      have hchain := hregs.read (fun a => audioChain Config.numerics s.xf a (s.dinWords n) sr) fun _ _ => rfl
      have hfail := hregs.read (stageFailures Config.numerics s.xf (s.dinWords n) sr) fun _ _ => rfl
      have hcommit := (commitBlock_keepsInputs Config.numerics s.xf (s.dinWords n) sr).sameRegisters hregs
      rw [execProcess_active hd he, execProcess_active (hholds.trans hd) (h.eng.trans he),
        dinWords_congr hdin, hxf]
      refine ⟨_, _, n, _, rfl, rfl, ?_, streamed_process .., hchain ▸ hfail ▸ streamed_process ..⟩
      rw [processActive, processActive, hchain, hfail]
      exact ((sameRegisters_redraw _).symm.trans (hcommit.respond ..)).trans (sameRegisters_redraw _)

/-- CFGLOAD: the masks and the record are the same (R207). -/
theorem execCfgload_sameEffect : SameEffect s u (execCfgload s) (execCfgload u) := by
  unfold execCfgload
  rw [dinHolds_congr hdin, dinWords_congr hdin]
  cases s.dinHolds 82 with
  | false => exact sameEffect_waits h
  | true => exact ⟨_, _, 82, [], rfl, rfl, (loadFields_keepsInputs _ _ _).sameRegisters (h.dinDrop 82),
      loadFields_streamed .., loadFields_streamed ..⟩

/-- Every command has the same effect on states with the same registers, data-in words and fault draw. -/
theorem exec_sameEffect (hxf : u.xf = s.xf) (i : Instr) : SameEffect s u (exec i s) (exec i u) := by
  cases hi : idempotent i with
  | true =>
    obtain ⟨g, hg, hkeeps, -⟩ := exec_idempotent hi
    rw [hg, hg]
    exact sameEffect_of_keepsInputs hkeeps h
  | false =>
    cases ha : accessor i with
    | true =>
      obtain ⟨op, payload, hresponds, hreads⟩ := exec_accessor ha
      rw [hresponds, hresponds, h.read payload hreads]
      simpa only [dinDrop_zero] using sameEffect_respond op 0#8 0 (payload s) h
    | false =>
      cases i
      case process n sr => exact execProcess_sameEffect h hdin hxf n sr
      case cfgload => exact execCfgload_sameEffect h hdin
      all_goals simp [idempotent, accessor, responds] at hi ha

/-- The same for every command word, a reserved one included (R93). -/
theorem execWord_sameEffect (hxf : u.xf = s.xf) (w : Cmd) : SameEffect s u (execWord w s) (execWord w u) := by
  cases hw : decode w with
  | ok i => rw [execWord_ok hw, execWord_ok hw]; exact exec_sameEffect h hdin hxf i
  | error e =>
    rw [execWord_error hw, execWord_error hw]
    exact sameEffect_of_keepsInputs (g := fun s => { s with flt := logBadCmd s.flt }) (fun _ _ => rfl) h

end

end Sys2Proof.Machine

namespace Sys2Proof.Proofs

open Sys2Proof.Machine

/-- Settles O26: the payload reads registers, which a response leaves alone, so the repeated response is the same. -/
theorem accessorsWriteNothing : Obligations.AccessorsWriteNothing := by
  intro i s h
  obtain ⟨op, payload, hresponds, hreads⟩ := exec_accessor h
  have hregs := sameRegisters_respond s op 0#8 (payload s)
  have hsame : payload (s.respond op 0#8 (payload s)) = payload s := hregs.read payload hreads
  refine ⟨_, _, _, hresponds s, hresponds _, streamed_respond_self .., ?_, hregs.toSameParams, hregs.toSameTelemetry,
    hregs.toSameControl, sameInputs_respond ..⟩
  rw [hsame]
  exact streamed_respond_self ..

/-- Settles O39: the update of registers that the mutator is, done twice, is done once. -/
theorem mutatorsIdempotent : Obligations.MutatorsIdempotent := by
  intro i s h
  obtain ⟨g, hg, -, htwice⟩ := exec_idempotent h
  exact ⟨g s, hg s, by rw [hg, htwice]⟩

/-- Settles O16: the executing port is an input, so the two states have the same registers and data-in words. -/
theorem anyPortSameEffect : Obligations.AnyPortSameEffect := by
  intro w s p q hdin
  obtain ⟨t, u, n, ws, ht, hu, hregs, hst, hsu⟩ := execWord_sameEffect (s := { s with cur := p })
    (u := { s with cur := q }) (sameRegisters_withInputs _ { s with cur := q }) hdin.symm rfl w
  exact ⟨t, u, n, ws, ht, hu, hregs.toSameParams, hregs.toSameTelemetry, hregs.toSameControl, hst, hsu⟩

end Sys2Proof.Proofs
end

section
/-! PROOFS, family 30_encoding. The decoder against the encoder (R80, R81, R86, R93, R94): a word that decodes carries
its command's opcode and operands in the bits its opcode uses, and every other word is reserved. -/

namespace Sys2Proof.Machine

variable {w : Cmd} {i : Instr}

/-! Words that are rejected (R93). -/

/-- The decoder rejects a word by its opcode, never for another reason. -/
theorem decode_error_eq {e : DecodeError} (h : decode w = .error e) : e = .reservedOpcode (fieldOp w) := by
  unfold decode at h
  dsimp only at h
  split at h <;> cases h
  rfl

theorem decode_of_reserved (h : reservedOp (fieldOp w) = true) : decode w = .error (.reservedOpcode (fieldOp w)) := by
  obtain ⟨e, he⟩ := (decode_error_iff w).2 h
  rw [he, decode_error_eq he]

theorem decode_of_not_reserved (h : reservedOp (fieldOp w) = false) : ∃ i, decode w = .ok i := by
  cases hw : decode w with
  | ok i => exact ⟨i, rfl⟩
  | error e => simp [(decode_error_iff w).1 ⟨e, hw⟩] at h

/-! Words that decode (R81, R86). -/

/-- The opcode of the command is the word's. -/
theorem opcode_of_decode (h : decode w = .ok i) : i.opcode = fieldOp w := by
  unfold decode at h
  dsimp only at h
  split at h <;> cases h
  all_goals next hop => rw [hop]; rfl

/-- Every operand lies in the range of its field. -/
theorem wf_of_decode (h : decode w = .ok i) : i.wf = true := by
  have ha : (fieldA w).toNat < 2 ^ 8 := (fieldA w).isLt
  have hb : (fieldB w).toNat < 2 ^ 8 := (fieldB w).isLt
  have hv : (fieldV w).toNat < 2 ^ 32 := (fieldV w).isLt
  unfold decode at h
  dsimp only at h
  split at h <;> cases h
  all_goals simp only [Instr.wf, Config.nmax, Bool.and_eq_true, decide_eq_true_eq]
  all_goals omega

/-- A word masked with packed fields is masked field by field. -/
theorem and_pack_fields (op a b fl : BitVec 8) (v : Word) : w &&& pack op a b fl v =
    pack (fieldOp w &&& op) (fieldA w &&& a) (fieldB w &&& b) (fieldFl w &&& fl) (fieldV w &&& v) := by
  conv_lhs => rw [← pack_fields w]
  exact and_pack ..

/-- The word less its unused bits, from the fields of the mask of its opcode (R81). -/
theorem and_usedMask {op a b fl : BitVec 8} {v : Word} (hop : fieldOp w = op)
    (hmask : usedMask op = pack 0xFF#8 a b fl v) :
    w &&& usedMask (fieldOp w) = pack op (fieldA w &&& a) (fieldB w &&& b) (fieldFl w &&& fl) (fieldV w &&& v) := by
  rw [hop, hmask, and_pack_fields, and_ones8, hop]

/-- The two halves of the block length (R81). -/
theorem ofNat_blockLength (a b : BitVec 8) :
    BitVec.ofNat 8 ((256 * a.toNat + b.toNat) / 256) = a ∧ BitVec.ofNat 8 (256 * a.toNat + b.toNat) = b := by
  have hb := b.isLt
  constructor <;> apply BitVec.eq_of_toNat_eq <;> rw [BitVec.toNat_ofNat] <;> omega

/-- The two flags of SETDYN are the bits 1:0 of `fl` (R89). -/
theorem flags_eq_and (fl : BitVec 8) : 0#6 ++ BitVec.ofBool fl[1] ++ BitVec.ofBool fl[0] = fl &&& 3#8 := by
  revert fl; decide

/-- Encoding what a word decodes to clears the bits its opcode does not use. -/
theorem encode_of_decode (h : decode w = .ok i) : encode i = w &&& usedMask (fieldOp w) := by
  unfold decode at h
  dsimp only at h
  split at h <;> cases h
  case h_4 hop => -- PROCESS
    obtain ⟨ha, hb⟩ := ofNat_blockLength (fieldA w) (fieldB w)
    rw [and_usedMask hop (rfl : _ = pack 0xFF#8 0xFF#8 0xFF#8 0#8 0xFFFFFFFF#32)]
    simp [encode, Instr.opcode, ha, hb, and_ones8, and_ones32]
  case h_5 hop => -- SETEQ
    rw [and_usedMask hop (rfl : _ = pack 0xFF#8 0xFF#8 0#8 0#8 0xFFFFFFFF#32)]
    simp [encode, Instr.opcode, and_ones8, and_ones32]
  case h_6 hop => -- SETCH
    rw [and_usedMask hop (rfl : _ = pack 0xFF#8 0xFF#8 0xFF#8 0#8 0xFFFFFFFF#32)]
    simp [encode, Instr.opcode, and_ones8, and_ones32]
  case h_7 hop => -- SETDYN
    rw [and_usedMask hop (rfl : _ = pack 0xFF#8 0#8 0#8 3#8 0#32)]
    simp [encode, Instr.opcode, flags_eq_and]
  case h_8 hop => -- SETBASS
    rw [and_usedMask hop (rfl : _ = pack 0xFF#8 0#8 0#8 0#8 0xFFFFFFFF#32)]
    simp [encode, Instr.opcode, and_ones32]
  case h_9 hop => -- SETDYNP
    rw [and_usedMask hop (rfl : _ = pack 0xFF#8 0#8 0xFF#8 0#8 0xFFFFFFFF#32)]
    simp [encode, Instr.opcode, and_ones8, and_ones32]
  case h_12 hop => -- GETHIST
    rw [and_usedMask hop (rfl : _ = pack 0xFF#8 0xFF#8 0#8 0#8 0#32)]
    simp [encode, Instr.opcode, and_ones8]
  all_goals -- the commands without operands
    next hop =>
    rw [and_usedMask hop (rfl : _ = pack 0xFF#8 0#8 0#8 0#8 0#32)]
    simp [encode, Instr.opcode]

/-- Clearing the bits a word's opcode does not use leaves its decoding. -/
theorem decode_and_usedMask (h : decode w = .ok i) : decode (w &&& usedMask (fieldOp w)) = .ok i := by
  rw [← encode_of_decode h, decode_encode (wf_of_decode h)]

/-- No command of the table writes BADCMD (R34, R94). -/
theorem Effect.badCmd_kept {s t : State} (h : Effect s (.ok i) t) : t.flt.getLsbD 6 = s.flt.getLsbD 6 := by
  rcases h.flt_cases with ⟨-, hflt⟩ | ⟨-, f, hflt⟩ | ⟨⟨e, he⟩, -⟩
  · rw [hflt]
  · rw [hflt, getLsbD_logFailures, BitVec.getLsbD_of_ge f 6 le_rfl, Bool.or_false]
  · cases he

end Sys2Proof.Machine

namespace Sys2Proof.Proofs

open Sys2Proof.Machine

/-- Settles O2, command by command. -/
theorem decodeEncodeRoundTrip : Obligations.DecodeEncodeRoundTrip := fun _ h => decode_encode h

/-- Settles O4: the decoder's last arm is met exactly for the reserved opcodes. -/
theorem decodeTotalAndReservedExact : Obligations.DecodeTotalAndReservedExact := by
  refine fun w => ⟨decode_of_reserved, fun h => ?_⟩
  obtain ⟨i, hi⟩ := decode_of_not_reserved h
  exact ⟨i, hi, wf_of_decode hi, opcode_of_decode hi⟩

/-- Settles O6, opcode by opcode: each field of the command is the word's, masked. -/
theorem encodeOfDecode : Obligations.EncodeOfDecode := fun _ _ h => encode_of_decode h

/-- Settles O5: the masked word is the encoding of the command, and decodes to it again. -/
theorem reservedFieldsIgnored : Obligations.ReservedFieldsIgnored := by
  intro w h
  obtain ⟨i, hi⟩ := decode_of_not_reserved h
  have hmasked := decode_and_usedMask hi
  refine ⟨hmasked.trans hi.symm, fun s => ?_⟩
  obtain ⟨t, ht⟩ := exec_next i s
  exact ⟨t, by rw [execWord_ok hi, ht], by rw [execWord_ok hmasked, ht], (exec_effect ht).badCmd_kept⟩

/-- Settles O1, word by word. -/
theorem workedEncodingsDecode : Obligations.WorkedEncodingsDecode := by
  unfold Obligations.WorkedEncodingsDecode
  decide

end Sys2Proof.Proofs
end

section
/-! PROOFS, family 30_encoding. What executing a command word does to the machine as a whole: it always answers, a
reserved opcode sets FLT[6] alone, and every command takes and appends the words its encoding announces (R82, R83, R84,
R93, R96). -/

namespace Sys2Proof.Machine

variable {s t : State} {w : Cmd} {i : Instr}

/-! Steps and stalls (R71, R96). -/

/-- Every step answers a next state. -/
theorem step_next (s : State) : ∃ t, step s = .next t := by
  rcases step_cases s with ⟨-, h⟩ | ⟨-, -, h⟩ | ⟨p, -, -, h⟩
  · exact ⟨_, h⟩
  · exact ⟨_, h⟩
  · rw [h]; exact execWord_next ..

/-- A port with a command at its head stalls exactly while data words are missing. -/
theorem ready_eq_false_iff {q : PortState} {rest : List Cmd} (h : q.cmd = w :: rest) :
    q.ready = false ↔ q.din.length < wordsNeeded w := by
  simp [PortState.ready, h]

/-! Reserved opcodes (R93). -/

/-- The state with BADCMD logged. -/
def State.badCmd (s : State) : State := { s with flt := logBadCmd s.flt }

@[simp] theorem badCmd_port (s : State) (p : Port) : s.badCmd.port p = s.port p := by cases p <;> rfl

theorem SameParams.badCmd (h : SameParams s t) : SameParams s t.badCmd := by
  cases h; constructor <;> assumption

theorem SameTelemetry.badCmd (h : SameTelemetry s t) : SameTelemetry s t.badCmd := by
  cases h; constructor <;> assumption

theorem execWord_reserved (h : reservedOp (fieldOp w) = true) (s : State) : execWord w s = .next s.badCmd :=
  execWord_error (decode_of_reserved h) s

theorem getLsbD_badCmd_flt (s : State) (k : Nat) :
    s.badCmd.flt.getLsbD k = if k = 6 then true else s.flt.getLsbD k := by
  rw [State.badCmd, getLsbD_logBadCmd]
  by_cases hk : k = 6 <;> simp [hk]

/-! The streams of a command (R82, R83, R84). -/

/-- Only PROCESS and CFGLOAD take data words. -/
theorem dataWords_eq_zero (h : idempotent i = true ∨ accessor i = true) : i.dataWords = 0 := by
  cases i
  case process | cfgload => simp [idempotent, accessor, responds] at h
  all_goals rfl

/-- A command without a response, its data words present: it takes them and appends nothing. -/
theorem exec_silent (h : responds i = false) (hdata : i.dataWords ≤ s.here.din.length) :
    ∃ t, exec i s = .next t ∧ Streamed s t i.dataWords [] := by
  by_cases hload : i = .cfgload
  · subst hload
    exact ⟨_, if_pos (decide_eq_true hdata), loadFields_streamed ..⟩
  · have hidem : idempotent i = true := by simp [idempotent, h, hload]
    obtain ⟨g, hg, hkeeps, -⟩ := exec_idempotent hidem
    exact ⟨g s, hg s, dataWords_eq_zero (.inl hidem) ▸ streamed_of_ports (hkeeps.cur s) (hkeeps.port s)⟩

/-- PROCESS, its data words present: it takes them, and answers with no samples in Idle, with as many as it took in
Active (R184, R189). -/
theorem execProcess_responds {n sr : Nat} (hdata : n ≤ s.here.din.length) :
    ∃ t st payload, execProcess n sr s = .next t ∧ Streamed s t n (header 0x03#8 st payload.length :: payload) ∧
      payload.length ≤ n := by
  have hd : s.dinHolds n = true := decide_eq_true hdata
  cases he : s.eng with
  | idle =>
    exact ⟨_, ignStatus, [], execProcess_idle hd he, streamed_respond _ _ n [] (by simp) fun _ => rfl,
      Nat.zero_le n⟩
  | active =>
    refine ⟨_, _, _, execProcess_active hd he, streamed_process .., ?_⟩
    rw [audioChain_length]
    exact List.length_take_le ..

/-- A history is never longer than its capacity (R40). -/
theorem State.Inv.history_length_le (h : s.Inv) (sel : Nat) : (s.history sel).length ≤ 100 :=
  match sel with
  | 0 => h.bounded
  | 1 => h.sameLength ▸ h.bounded
  | _ + 2 => Nat.zero_le 100

/-- An accessor appends one response with its own opcode, status zero and a payload that the header can count. -/
theorem exec_accessor_responds (hinv : s.Inv) (h : accessor i = true) :
    ∃ payload, exec i s = .next (s.respond i.opcode 0#8 payload) ∧ payload.length < 2 ^ 16 := by
  cases i
  case getsnap => exact ⟨_, rfl, by simp⟩
  case getlevels => exact ⟨_, rfl, by split <;> simp⟩
  case gethist sel => exact ⟨_, rfl, (hinv.history_length_le sel).trans_lt (by decide)⟩
  case getstat => exact ⟨_, rfl, by simp⟩
  case cfgsave => exact ⟨_, rfl, by simp [record_length]⟩
  all_goals simp [accessor, responds] at h

/-- A command with a response, its data words present: it takes them and appends one header with its payload. -/
theorem exec_responds (hwf : i.wf = true) (hinv : s.Inv) (hdata : i.dataWords ≤ s.here.din.length)
    (h : responds i = true) :
    ∃ t st payload, exec i s = .next t ∧ Streamed s t i.dataWords (header i.opcode st payload.length :: payload) ∧
      payload.length < 2 ^ 16 ∧ (accessor i = true → st = 0#8) := by
  cases hacc : accessor i with
  | true =>
    obtain ⟨payload, hexec, hlen⟩ := exec_accessor_responds hinv hacc
    refine ⟨_, 0#8, payload, hexec, ?_, hlen, fun _ => rfl⟩
    rw [dataWords_eq_zero (.inr hacc)]
    exact streamed_respond_self ..
  | false =>
    cases i
    case process n sr =>
      obtain ⟨t, st, payload, hexec, hstreams, hlen⟩ := execProcess_responds (sr := sr) hdata
      obtain ⟨hn, -⟩ : n ≤ 65535 ∧ sr < 2 ^ 32 := by simpa [Instr.wf] using hwf
      exact ⟨t, st, payload, hexec, hstreams, hlen.trans_lt (Nat.lt_succ_of_le hn), nofun⟩
    all_goals simp [accessor, responds] at h hacc

end Sys2Proof.Machine

namespace Sys2Proof.Proofs

open Sys2Proof.Machine

/-- Settles O10: the step takes the word and logs BADCMD, and neither writes anything else. -/
theorem reservedOpcodeSetsBadCmd : Obligations.ReservedOpcodeSetsBadCmd := by
  intro s p hr hp hreserved
  have hregs := sameRegisters_take s p
  refine ⟨(s.take p).badCmd, by rw [step_of_pick hr hp, execWord_reserved hreserved],
    fun k => by rw [getLsbD_badCmd_flt, take_flt], hregs.eng, hregs.toSameParams.badCmd, hregs.toSameTelemetry.badCmd,
    fun q hq => by simp [hq], ?_, by simp, by simp, (take_rst s p).trans hr, take_xf s p, take_draws s p⟩
  rw [badCmd_port]
  exact cmd_eq_headWord_cons_take (pick_ready s hp)

/-- Settles O11: a step resets, waits or runs a word, and each answers; a head command is ready with its data words. -/
theorem engineNeverStops : Obligations.EngineNeverStops :=
  ⟨step_next, fun _ _ _ _ hcmd => ready_eq_false_iff hcmd⟩

/-- Settles O25: silent commands, accessors and PROCESS each take the words announced; BADCMD is in no stream. -/
theorem commandStreams : Obligations.CommandStreams := by
  refine ⟨fun i s hwf hinv hdata => ?_, fun w s hreserved =>
    ⟨s.badCmd, execWord_reserved hreserved s, streamed_of_ports rfl (badCmd_port s)⟩⟩
  cases hresp : responds i with
  | false =>
    obtain ⟨t, hexec, hstreams⟩ := exec_silent hresp hdata
    exact ⟨t, [], hexec, hstreams, fun _ => rfl, nofun⟩
  | true =>
    obtain ⟨t, st, payload, hexec, hstreams, hlen, hst⟩ := exec_responds hwf hinv hdata hresp
    exact ⟨t, _, hexec, hstreams, nofun, fun _ => ⟨st, payload, rfl, hlen, hst⟩⟩

end Sys2Proof.Proofs
end

section
/-! PROOFS, family 40_equalizer. NearestBin (R113): it is above `k` exactly when the frequency is above the midpoint of
the bins `k` and `k + 1`, and everything the rules say of it is read off this comparison. -/

namespace Sys2Proof.Machine

variable {f sr k : Nat}

/-- NearestBin is above `k` exactly when `k` is not the last bin and `f` is above `(k + 1/2) * sr / 512`, the midpoint
of the bins `k` and `k + 1`, here scaled by 1024 (R113). -/
theorem lt_nearestBin_iff (hsr : 1 ≤ sr) : k < nearestBin f sr ↔ k < 255 ∧ (2 * k + 1) * sr < 1024 * f := by
  have hmid : (2 * k + 1) * sr = 2 * (k * sr) + sr := by ring
  unfold nearestBin
  split
  case isTrue h => omega
  case isFalse h =>
    have hstep : (k + 1) * (2 * sr) = 2 * (k * sr) + 2 * sr := by ring
    have hdiv : k < (1024 * f - sr + (2 * sr - 1)) / (2 * sr) ↔ (k + 1) * (2 * sr) ≤ 1024 * f - sr + (2 * sr - 1) :=
      Nat.le_div_iff_mul_le (by omega)
    refine lt_min_iff.trans (and_congr_right fun _ => hdiv.trans ?_)
    omega

/-! The least index of least distance (R113), over every integer up to 255: a negative one is never nearer. -/

/-- `f` is above the midpoint of the nearest bin and the one below it. -/
theorem midpoint_below_nearestBin_lt (hsr : 1 ≤ sr) : (2 * (nearestBin f sr : Int) - 1) * sr < 1024 * f := by
  cases hbin : nearestBin f sr with
  | zero => push_cast; omega
  | succ m =>
    have hmid := ((lt_nearestBin_iff hsr).1 (by omega : m < nearestBin f sr)).2
    calc (2 * ((m + 1 : Nat) : Int) - 1) * sr = ((2 * m + 1) * sr : Nat) := by push_cast; ring
      _ < 1024 * f := by omega

/-- `f` is not above the midpoint of the nearest bin and the one above it, when there is one. -/
theorem le_midpoint_above_nearestBin (hsr : 1 ≤ sr) (hlast : nearestBin f sr < 255) :
    (1024 * f : Int) ≤ (2 * nearestBin f sr + 1) * sr := by
  have hmid : ¬ (2 * nearestBin f sr + 1) * sr < 1024 * f := fun h =>
    lt_irrefl _ ((lt_nearestBin_iff hsr).2 ⟨hlast, h⟩)
  exact_mod_cast Nat.not_lt.1 hmid

/-- The distance of index `k` from `f`, scaled by 512 (R113). -/
def binDistance (f sr : Nat) (k : Int) : Nat := (k * sr - 512 * f).natAbs

/-- Of two indices the lower one is at least as near as the upper one exactly when `f` is not above their midpoint. -/
theorem binDistance_le_iff {i k : Int} (hsr : 1 ≤ sr) (hik : i < k) :
    binDistance f sr i ≤ binDistance f sr k ↔ 1024 * f ≤ (i + k) * sr := by
  have hlt : i * sr < k * sr := Int.mul_lt_mul_of_pos_right hik (by omega)
  unfold binDistance
  rw [Int.add_mul]
  omega

/-- An index below the nearest bin is strictly farther. -/
theorem binDistance_nearestBin_lt {k : Int} (hsr : 1 ≤ sr) (hk : k < nearestBin f sr) :
    binDistance f sr (nearestBin f sr) < binDistance f sr k := by
  rw [← Nat.not_le, binDistance_le_iff hsr hk, Int.not_le]
  exact (Int.mul_le_mul_of_nonneg_right (by omega) (by omega)).trans_lt (midpoint_below_nearestBin_lt hsr)

/-- No index up to 255 is nearer than the nearest bin. -/
theorem binDistance_nearestBin_le {k : Int} (hsr : 1 ≤ sr) (hk : k ≤ 255) :
    binDistance f sr (nearestBin f sr) ≤ binDistance f sr k := by
  rcases lt_trichotomy k (nearestBin f sr) with hlt | heq | hgt
  · exact (binDistance_nearestBin_lt hsr hlt).le
  · rw [heq]
  · exact (binDistance_le_iff hsr hgt).2
      ((le_midpoint_above_nearestBin hsr (by omega)).trans (Int.mul_le_mul_of_nonneg_right (by omega) (by omega)))

/-! The closed form, its limits, and monotonicity (R113, R160). -/

/-- NearestBin is `ceil ((1024 f - sr) / (2 sr))` kept within 0..255. -/
theorem nearestBin_eq_ceil (hsr : 1 ≤ sr) :
    (nearestBin f sr : Int) = max 0 (min 255 (-((sr - 1024 * f : Int) / (2 * sr)))) := by
  obtain ⟨c, hc⟩ := Int.eq_ofNat_of_zero_le (le_max_left 0 (min 255 (-((sr - 1024 * f : Int) / (2 * sr)))))
  rw [hc]
  refine congrArg _ (eq_of_forall_lt_iff fun k => ?_)
  have hdiv : (sr - 1024 * f : Int) / (2 * sr) < -k ↔ (sr - 1024 * f : Int) < -k * (2 * sr) :=
    Int.ediv_lt_iff_lt_mul (by omega)
  have hmid : (-k * (2 * sr) : Int) = -(2 * (k * sr : Nat)) := by push_cast; ring
  rw [lt_nearestBin_iff hsr, Nat.add_mul, Nat.mul_assoc]
  omega

theorem nearestBin_mono (hsr : 1 ≤ sr) : Monotone (nearestBin · sr) := fun f f' h =>
  le_of_forall_lt fun k hk => by
    obtain ⟨hlast, hmid⟩ := (lt_nearestBin_iff hsr).1 hk
    exact (lt_nearestBin_iff hsr).2 ⟨hlast, by omega⟩

theorem nearestBin_eq_last (hsr : 1 ≤ sr) (h : 255 * sr < 512 * f) : nearestBin f sr = 255 :=
  (nearestBin_le f sr).antisymm ((lt_nearestBin_iff hsr).2 ⟨by decide, by omega⟩)

theorem nearestBin_eq_zero (h : 1024 * f ≤ sr) : nearestBin f sr = 0 := if_pos h

theorem band_le_band_succ {i : Nat} (hi : i < 30) : Config.band i ≤ Config.band (i + 1) := by
  decide +revert

end Sys2Proof.Machine

namespace Sys2Proof.Proofs

open Sys2Proof.Machine

/-- Settles O50: each clause from the comparison of the frequency with the midpoint of two bins. -/
theorem nearestBinMinimises : Obligations.NearestBinMinimises := fun f sr _ hsr =>
  ⟨nearestBin_le f sr, fun _ => binDistance_nearestBin_le hsr,
    fun _ _ htie => Int.not_lt.1 fun hlt => (binDistance_nearestBin_lt hsr hlt).ne htie,
    nearestBin_eq_ceil hsr, nearestBin_eq_last hsr, nearestBin_eq_zero, fun _ h => nearestBin_mono hsr h,
    fun _ hi => nearestBin_mono hsr (band_le_band_succ hi)⟩

end Sys2Proof.Proofs
end

section
/-! PROOFS, family 40_equalizer. The EQ stage: which blocks it passes on (R114, R115), which samples it reads and
replaces (R116, R118), and what its gain loop does to a bin (R117, R119, R120). -/

namespace Sys2Proof.Machine

variable {num : Config.Numerics} {xf : Bool} {x : List Fmt} {g : Vector Fmt 31} {sr : Nat}

/-! Pass-through (R114, R115). -/

theorem someGain_iff : someGain g = true ↔ ∃ b < 31, Fp.isZero (g[b]?.getD 0#32) = false := by
  rw [← Bool.not_eq_false, someGain_eq_false]
  simp only [not_forall, Bool.not_eq_true, exists_prop]

theorem eqStage_allZero (h : someGain g = false) : eqStage num xf x g sr = completed x := by
  simp [eqStage, h]

theorem eqStage_short (h : x.length < 512) : eqStage num xf x g sr = completed x := by
  simp [eqStage, h]

/-! The first 512 samples (R116, R118). -/

/-- The shaped segment is made of the first 512 samples. -/
theorem eqSegment_take : eqSegment num (x.take 512) g sr = eqSegment num x g sr := by
  simp [eqSegment, eqBins, List.take_take]

/-- On a block of 512 samples or more the EQ acts on the first 512 alone and puts the rest behind its result. -/
theorem eqStage_take_append_drop (hx : 512 ≤ x.length) : eqStage num xf x g sr =
    { eqStage num xf (x.take 512) g sr with value := (eqStage num xf (x.take 512) g sr).value ++ x.drop 512 } := by
  have hlen : ¬ x.length < 512 := Nat.not_lt.2 hx
  unfold eqStage Config.nfft
  simp only [eqSegment_take, List.take_take, List.length_take, Nat.min_self, Nat.min_eq_left hx, if_neg hlen,
    if_neg (lt_irrefl 512)]
  split_ifs <;> simp [completed, softFail]

/-- A failure and the first 512 result samples do not depend on what stands behind the first 512 samples. -/
theorem eqStage_congr_take {x' : List Fmt} (hx : 512 ≤ x.length) (hx' : 512 ≤ x'.length)
    (h : x'.take 512 = x.take 512) :
    (eqStage num xf x' g sr).failed = (eqStage num xf x g sr).failed ∧
    (eqStage num xf x' g sr).value.take 512 = (eqStage num xf x g sr).value.take 512 := by
  rw [eqStage_take_append_drop hx, eqStage_take_append_drop hx', h]
  simp [hx]

/-- The samples from 512 on are as they were. -/
theorem eqStage_drop : (eqStage num xf x g sr).value.drop 512 = x.drop 512 := by
  rcases Nat.lt_or_ge x.length 512 with hx | hx
  · rw [eqStage_short hx, completed_value]
  · rw [eqStage_take_append_drop hx]
    exact List.drop_left' (by simp [hx])

theorem eqSegment_getElem? {n : Nat} (hn : n < 512) :
    (eqSegment num x g sr)[n]? = some (tIdft num (eqBins num x g sr) n).re := by
  simp [eqSegment, hn]

/-! The gain loop (R117, R119, R120). -/

/-- Bin value `z` scaled by the linear gain of band `b`. -/
def scaleByBand (num : Config.Numerics) (g : Vector Fmt 31) (z : Cplx) (b : Nat) : Cplx :=
  Cplx.scale z (tPow10 num (Fp.div (g[b]?.getD 0#32) Fp.twenty))

/-- The gain loop over any bands scales bin `j` by those that act on it, in order. -/
theorem foldl_eqBand_getElem? (bands : List Nat) (bins : List Cplx) {j : Nat} (hj : j < 512) :
    (bands.foldl (eqBand num g sr) bins)[j]? =
      bins[j]?.map ((bands.filter (eqActs g sr j)).foldl (scaleByBand num g)) := by
  induction bands generalizing bins with
  | nil => simp
  | cons b bands ih =>
    rw [List.foldl_cons, ih, eqBand_getElem? num g sr bins b j hj, Option.map_map]
    cases hacts : eqActs g sr j b <;> simp [hacts, Function.comp_def, scaleByBand]

/-- Bin `j` after the gain loop: the transform's bin scaled by every band that acts on it. -/
theorem eqBins_getElem? {j : Nat} (hj : j < 512) : (eqBins num x g sr)[j]? =
    some (((List.range 31).filter (eqActs g sr j)).foldl (scaleByBand num g) (tDft num (x.take 512) j)) := by
  unfold eqBins
  rw [foldl_eqBand_getElem? _ _ hj]
  simp [hj]

end Sys2Proof.Machine

namespace Sys2Proof.Proofs

open Sys2Proof.Machine

/-- Settles O47: the two pass-through branches and the causes of a failure, with "some gain" said band by band. -/
theorem eqPassThroughAndFailures : Obligations.EqPassThroughAndFailures := by
  intro num xf x g sr
  refine ⟨fun hzero => ?_, fun hshort => ?_, eqStage_failed num xf x g sr, fun hgain hx => ?_⟩
  · rw [eqStage_allZero ((someGain_eq_false g).2 hzero)]; exact ⟨rfl, rfl⟩
  · rw [eqStage_short hshort]; exact ⟨rfl, rfl⟩
  · rw [eqStage_failed_iff, and_iff_right (someGain_iff.2 hgain), and_iff_right hx]

/-- Settles O48: the EQ acts on the first 512 samples alone, and its slow path puts the shaped segment there. -/
theorem eqShapesFirst512Only : Obligations.EqShapesFirst512Only := by
  intro num xf x tail g sr
  refine ⟨eqStage_length num xf x g sr, eqStage_drop, eqStage_failed num xf x g sr, fun hx => ?_,
    fun hgain hx hcompletes n hn => ?_⟩
  · exact eqStage_congr_take hx (by simp [hx]) (List.take_left' (by simp [hx]))
  · rw [eqStage_completes num (someGain_iff.2 hgain) hx hcompletes, completed_value,
      List.getElem?_append_left (by simpa using hn), eqSegment_getElem? hn]

/-- Settles O49: one bin through the gain loop, by induction on the bands. -/
theorem eqScalesBinAndCounterpart : Obligations.EqScalesBinAndCounterpart := fun _ _ _ _ _ _ hj => eqBins_getElem? hj

end Sys2Proof.Proofs
end

section
/-! PROOFS, family 41_dynamics. FMT values in order (R19): by their encodings, their signs and their units. -/

namespace Sys2Proof.Machine.Fp

variable {x y : Fmt}

/-! Magnitudes and signs. -/

theorem toNat_abs (x : Fmt) : (abs x).toNat = mag x := by
  unfold abs mag
  rw [BitVec.toNat_and, show (0x7FFFFFFF#32).toNat = 2 ^ 31 - 1 from rfl, Nat.and_two_pow_sub_one_eq_mod]

theorem sign_neg (x : Fmt) : sign (neg x) = !sign x := (BitVec.msb_xor ..).trans (Bool.xor_true _)

theorem mag_neg (x : Fmt) : mag (neg x) = mag x := by
  rw [mag, neg, BitVec.toNat_xor, Nat.xor_mod_two_pow]
  exact Nat.xor_zero _

theorem abs_neg (x : Fmt) : abs (neg x) = abs x :=
  BitVec.eq_of_toNat_eq (by rw [toNat_abs, toNat_abs, mag_neg])

theorem isNaN_abs (x : Fmt) : isNaN (abs x) = isNaN x := by simp [isNaN, mag_abs]

theorem isNaN_neg (x : Fmt) : isNaN (neg x) = isNaN x := by simp [isNaN, mag_neg]

theorem finite_neg (x : Fmt) : finite (neg x) = finite x := by rw [← finite_abs, abs_neg, finite_abs]

theorem finite_iff_not : finite x = true ↔ isNaN x = false ∧ isInf x = false := by simp [finite]

/-! The order. -/

theorem lt_iff : lt x y = true ↔ isNaN x = false ∧ isNaN y = false ∧ key x < key y := by simp [lt, and_assoc]

theorem le_iff : le x y = true ↔ isNaN x = false ∧ isNaN y = false ∧ key x ≤ key y := by simp [le, and_assoc]

/-- A value at or above zero, as every legal threshold and ceiling is: -0.0 is one, a NaN is not (R19, R27). -/
theorem zero_le_iff : le 0#32 x = true ↔ isNaN x = false ∧ 0 ≤ key x := le_iff.trans (and_iff_right rfl)

theorem natAbs_key (x : Fmt) : (key x).natAbs = mag x := by unfold key; split <;> simp

theorem key_neg (x : Fmt) : key (neg x) = -key x := by
  unfold key; rw [sign_neg, mag_neg]; cases sign x <;> simp

theorem key_abs (x : Fmt) : key (abs x) = mag x := by simp [key, sign_abs, mag_abs]

/-- A value that is no NaN and lies between `-y` and `y` is at most `y` in magnitude. -/
theorem le_abs_of_key (hx : isNaN x = false) (hy : isNaN y = false) (hlow : -key y ≤ key x) (hhigh : key x ≤ key y) :
    le (abs x) y = true := by
  have hmag := natAbs_key x
  exact le_iff.2 ⟨(isNaN_abs x).trans hx, hy, by rw [key_abs]; omega⟩

/-! Units of 2^-149. -/

theorem units_le_units_iff : units x ≤ units y ↔ mag x ≤ mag y := by
  constructor
  · intro h
    rw [← encoding_units x, ← encoding_units y]
    exact encoding_mono Nat.one_pos Nat.one_pos (Nat.mul_le_mul_right 1 h)
  · intro h
    by_contra hlt
    have hge : mag y ≤ mag x := by
      rw [← encoding_units x, ← encoding_units y]
      exact encoding_mono Nat.one_pos Nat.one_pos (by omega)
    exact hlt (by rw [units_eq, units_eq, Nat.le_antisymm h hge])

theorem units_neg (x : Fmt) : units (neg x) = units x := by rw [units_eq, units_eq, mag_neg]

theorem units_abs (x : Fmt) : units (abs x) = units x := by rw [units_eq, units_eq, mag_abs]

theorem sunits_neg (x : Fmt) : sunits (neg x) = -sunits x := by
  unfold sunits; rw [sign_neg, units_neg]; cases sign x <;> simp

/-- A value that is not below zero, -0.0 among them, is its units. -/
theorem sunits_eq_units (h : 0 ≤ key x) : sunits x = units x := by
  unfold sunits
  split
  case isTrue hs =>
    have hmag : mag x = 0 := by rw [key, if_pos hs] at h; omega
    have hzero : units x = 0 := by rw [units_eq, hmag]; rfl
    rw [hzero]; rfl
  case isFalse => rfl

end Sys2Proof.Machine.Fp
end

section
/-! PROOFS, family 41_dynamics. Class R results (R15, R16) as the compressor forms them: a sum or difference above zero
and a quotient by a ratio are each the exact value rounded once, which is not far above it. -/

namespace Sys2Proof.Machine.Fp

variable {x y r : Fmt} {n d : Nat} {b : Bool}

/-! How far above the exact value a rounded one can lie. -/

/-- An integer rounding is at most one half above the number rounded. -/
theorem two_mul_nearestEven_le (n d : Nat) : 2 * (nearestEven n d * d) ≤ 2 * n + d := by
  cases h : nearestEven n d with
  | zero => omega
  | succ m =>
    have hhalf : (2 * m + 1) * d ≤ 2 * n := Nat.le_of_not_lt fun hlt =>
      absurd (nearestEven_le_of_lt_half hlt) (by omega)
    calc 2 * ((m + 1) * d) = (2 * m + 1) * d + d := by ring
      _ ≤ 2 * n + d := Nat.add_le_add_right hhalf d

/-- The spacing at a rounded value is one unit, or at most the value divided by `2^23`. -/
theorem two_pow_spacing_le (h : finite (roundUnits b n d) = true) :
    2 ^ 23 * 2 ^ spacing n d ≤ units (roundUnits b n d) + 2 ^ 23 := by
  rw [units_roundUnits b n d h]
  rcases Nat.eq_zero_or_pos (spacing n d) with hs | hs
  · rw [hs]; omega
  · exact (Nat.mul_le_mul_right _ ((steps_bounds n d).1 hs)).trans (Nat.le_add_right ..)

/-- Relative error: a rounded value exceeds the exact one by at most `2^-24` of itself and half a unit. -/
theorem units_roundUnits_le (h : finite (roundUnits b n d) = true) :
    2 ^ 24 * (units (roundUnits b n d) * d) ≤ 2 ^ 24 * n + (units (roundUnits b n d) + 2 ^ 23) * d := by
  have hstep := Nat.mul_le_mul_right d (two_pow_spacing_le h)
  have hround := two_mul_nearestEven_le n (d * 2 ^ spacing n d)
  have hunits : units (roundUnits b n d) * d = nearestEven n (d * 2 ^ spacing n d) * (d * 2 ^ spacing n d) := by
    rw [units_roundUnits b n d h, steps]; ring
  have hpow : 2 ^ 23 * 2 ^ spacing n d * d = 2 ^ 23 * (d * 2 ^ spacing n d) := by ring
  omega

/-- A value not above a finite one rounds to a finite value not above it. -/
theorem roundUnits_le_of_le (hd : 0 < d) (hy : finite y = true) (h : n ≤ units y * d) :
    finite (roundUnits b n d) = true ∧ units (roundUnits b n d) ≤ units y := by
  have henc : encoding n d ≤ mag y := by
    rw [← encoding_units y]; exact encoding_mono hd Nat.one_pos (by omega)
  have hfin : encoding n d < 0x7F800000 := henc.trans_lt ((finite_iff y).1 hy)
  exact ⟨(finite_roundUnits b n d).2 hfin, units_le_units_iff.2 (by rw [mag_roundUnits, if_pos hfin]; exact henc)⟩

/-- A whole number of units not below a finite value rounds to a value not below it. -/
theorem mag_le_roundUnits (hx : finite x = true) (h : units x ≤ n) : mag x ≤ mag (roundUnits b n 1) := by
  have henc : mag x ≤ encoding n 1 := by
    rw [← encoding_units x]; exact encoding_mono Nat.one_pos Nat.one_pos (by omega)
  have hfin := (finite_iff x).1 hx
  rw [mag_roundUnits]; split <;> omega

/-! The three operations of R132. -/

theorem add_eq_roundUnits (hx : finite x = true) (hy : finite y = true) (h : 0 < sunits x + sunits y) :
    add x y = roundUnits false (sunits x + sunits y).natAbs 1 := by
  obtain ⟨hxn, hxi⟩ := finite_iff_not.1 hx
  obtain ⟨hyn, hyi⟩ := finite_iff_not.1 hy
  simp [add, hxn, hxi, hyn, hyi, h.ne', not_lt.2 h.le]

theorem sub_eq_roundUnits (hx : finite x = true) (hy : finite y = true) (h : sunits y < sunits x) :
    sub x y = roundUnits false (sunits x - sunits y).natAbs 1 := by
  have hxn := (finite_iff_not.1 hx).1
  have hyn := (finite_iff_not.1 hy).1
  have hadd := add_eq_roundUnits hx ((finite_neg y).trans hy) (by rw [sunits_neg]; omega)
  simpa [sub, hxn, hyn, sunits_neg, ← sub_eq_add_neg] using hadd

/-- The quotient of a finite value of sign + by a ratio that is at least 1: zero for an infinite ratio, else rounded. -/
theorem div_ratio_eq (hx : finite x = true) (hs : sign x = false) (hr : le one r = true) :
    div x r = 0#32 ∨ (div x r = roundUnits false (units x * 2 ^ 149) (units r) ∧ 2 ^ 149 ≤ units r ∧
      (lt one r = true → 2 ^ 126 * (2 ^ 23 + 1) ≤ units r)) := by
  obtain ⟨hxn, hxi⟩ := finite_iff_not.1 hx
  obtain ⟨-, hrn, hkey⟩ := le_iff.1 hr
  replace hkey : 0x3F800000 ≤ key r := hkey
  have hsign : sign r = false := Bool.eq_false_iff.2 fun hneg => by
    rw [key, if_pos hneg] at hkey
    omega
  have hmag : key r = mag r := by rw [key, hsign]; rfl
  cases hri : isInf r with
  | true => left; simp [div, hxn, hxi, hrn, hri, hs, hsign, signBit]
  | false =>
    right
    have hle : units one ≤ units r := units_le_units_iff.2 (show 0x3F800000 ≤ mag r by omega)
    have hlt (h : lt one r = true) : units 0x3F800001#32 ≤ units r := by
      have habove : 0x3F800000 < key r := (lt_iff.1 h).2.2
      exact units_le_units_iff.2 (show 0x3F800001 ≤ mag r by omega)
    have hzero : isZero r = false := decide_eq_false (by omega)
    exact ⟨by simp [div, hxn, hxi, hrn, hri, hzero, hs, hsign], hle, hlt⟩

/-! Excess, compressed excess and magnitude (R131). -/

/-- The excess of a finite sample above the threshold: finite, of sign +, and not above the sample. -/
theorem excess_bounds {t v : Fmt} (ht : finite t = true) (ht0 : 0 ≤ key t) (hv : finite v = true)
    (h : units t < units v) :
    finite (sub (abs v) t) = true ∧ sign (sub (abs v) t) = false ∧
    2 ^ 24 * units (sub (abs v) t) ≤ 2 ^ 24 * (units v - units t) + (units (sub (abs v) t) + 2 ^ 23) := by
  have hsv : sunits (abs v) = units v := by simp [sunits, sign_abs, units_abs]
  have hst := sunits_eq_units ht0
  have hsub : sub (abs v) t = roundUnits false (units v - units t) 1 := by
    rw [sub_eq_roundUnits ((finite_abs v).trans hv) ht (by omega), hsv, hst]
    congr 1; omega
  obtain ⟨hfin, -⟩ := roundUnits_le_of_le (b := false) (n := units v - units t) Nat.one_pos hv (by omega)
  rw [hsub]
  exact ⟨hfin, sign_roundUnits .., by simpa using units_roundUnits_le hfin⟩

/-- A finite excess divided by the ratio: finite, of sign +, not above the excess, and when the ratio is above 1
smaller by the factor `2^23 / (2^23 + 1)` of the least such ratio, up to the rounding. -/
theorem compressed_excess_bounds (hx : finite x = true) (hs : sign x = false) (hr : le one r = true) :
    finite (div x r) = true ∧ sign (div x r) = false ∧ units (div x r) ≤ units x ∧
    (lt one r = true →
      ((2 ^ 24 - 1) * units (div x r) - 2 ^ 23) * (2 ^ 23 + 1) ≤ 2 ^ 24 * (units x * 2 ^ 23)) := by
  rcases div_ratio_eq hx hs hr with hdiv | ⟨hdiv, hone, hmore⟩ <;> rw [hdiv]
  · exact ⟨rfl, rfl, Nat.zero_le _, fun _ => Nat.zero_le _⟩
  · obtain ⟨hfin, hle⟩ := roundUnits_le_of_le (b := false) (n := units x * 2 ^ 149) (d := units r) (by omega) hx
      (Nat.mul_le_mul_left _ hone)
    refine ⟨hfin, sign_roundUnits .., hle, fun hlt => ?_⟩
    have herr := units_roundUnits_le hfin
    generalize units (roundUnits false (units x * 2 ^ 149) (units r)) = c at herr ⊢
    have hscaled : ((2 ^ 24 - 1) * c - 2 ^ 23) * units r ≤ 2 ^ 24 * (units x * 2 ^ 149) := by
      rw [Nat.sub_mul, Nat.mul_assoc]
      rw [Nat.add_mul] at herr
      omega
    refine Nat.le_of_mul_le_mul_left ?_ (Nat.two_pow_pos 126)
    calc 2 ^ 126 * (((2 ^ 24 - 1) * c - 2 ^ 23) * (2 ^ 23 + 1))
        = ((2 ^ 24 - 1) * c - 2 ^ 23) * (2 ^ 126 * (2 ^ 23 + 1)) := by ring
      _ ≤ 2 ^ 24 * (units x * 2 ^ 149) := (Nat.mul_le_mul_left _ (hmore hlt)).trans hscaled
      _ = 2 ^ 126 * (2 ^ 24 * (units x * 2 ^ 23)) := by ring

/-- The threshold plus a finite compressed excess: no NaN, not below the threshold, and finite when the exact sum is
less than half a step above the largest finite value. -/
theorem compressed_bounds {t c : Fmt} (ht : finite t = true) (ht0 : 0 ≤ key t) (hc : finite c = true)
    (hs : sign c = false) :
    isNaN (add t c) = false ∧ mag t ≤ mag (add t c) ∧
    (units t + units c < (2 ^ 25 - 1) * 2 ^ 252 → finite (add t c) = true) := by
  have hst := sunits_eq_units ht0
  have hsc : sunits c = units c := by rw [sunits, hs]; rfl
  rcases Nat.eq_zero_or_pos (units t + units c) with hzero | hpos
  · have hmag : mag t = 0 := by rw [← encoding_units t, Nat.eq_zero_of_add_eq_zero_right hzero]; rfl
    have hadd : add t c = 0#32 := by
      obtain ⟨htn, hti⟩ := finite_iff_not.1 ht
      obtain ⟨hcn, hci⟩ := finite_iff_not.1 hc
      have hsum : sunits t + sunits c = 0 := by omega
      simp [add, htn, hti, hcn, hci, hsum, hs, signBit]
    rw [hadd, hmag]
    exact ⟨rfl, Nat.zero_le _, fun _ => rfl⟩
  · have hadd : add t c = roundUnits false (units t + units c) 1 := by
      rw [add_eq_roundUnits ht hc (by omega), hst, hsc]; rfl
    rw [hadd]
    exact ⟨isNaN_roundUnits .., mag_le_roundUnits ht (Nat.le_add_right ..), fun hlt =>
      (finite_roundUnits ..).2 (encoding_lt_of_lt_overflow (by omega))⟩

end Sys2Proof.Machine.Fp
end

section
/-! PROOFS, family 41_dynamics. The compressor (R131 to R136) and the limiter (R139 to R141), on one sample and on a
block. -/

namespace Sys2Proof.Machine

variable {xf : Bool} {x : List Fmt} {thr ratio c v : Fmt}

/-! The compressor on one sample. -/

theorem compSample_of_not_lt (h : Fp.lt thr (Fp.abs v) = false) : compSample thr ratio v = v := by
  simp [compSample, h]

theorem compSample_of_lt (h : Fp.lt thr (Fp.abs v) = true) : compSample thr ratio v =
    Fp.copysign (Fp.add thr (Fp.div (Fp.sub (Fp.abs v) thr) ratio)) v := by
  simp [compSample, h]

/-- A finite sample above a legal threshold makes the threshold finite. -/
theorem finite_threshold (hthr : legalThr thr = true) (hv : Fp.finite v = true)
    (h : Fp.lt thr (Fp.abs v) = true) : Fp.finite thr = true ∧ 0 ≤ Fp.key thr ∧ Fp.units thr < Fp.units v := by
  obtain ⟨-, -, hkey⟩ := Fp.lt_iff.1 h
  have hpos := (Fp.zero_le_iff.1 hthr).2
  have hmag : Fp.mag thr < Fp.mag v := by
    rw [Fp.key_abs] at hkey
    have := Fp.natAbs_key thr
    omega
  exact ⟨(Fp.finite_iff thr).2 (hmag.trans ((Fp.finite_iff v).1 hv)), hpos,
    Nat.lt_of_not_le fun hle => absurd (Fp.units_le_units_iff.1 hle) (by omega)⟩

/-- The units of a finite sample are at most those of the largest finite value, or of the one before it. -/
theorem units_le_of_finite (hv : Fp.finite v = true) : Fp.units v ≤ (2 ^ 24 - 1) * 2 ^ 253 ∧
    (Fp.abs v ≠ 0x7F7FFFFF#32 → Fp.units v ≤ (2 ^ 24 - 2) * 2 ^ 253) := by
  have hmag := (Fp.finite_iff v).1 hv
  have hlargest : Fp.units 0x7F7FFFFF#32 = (2 ^ 24 - 1) * 2 ^ 253 := rfl
  have hnext : Fp.units 0x7F7FFFFE#32 = (2 ^ 24 - 2) * 2 ^ 253 := rfl
  rw [← hlargest, ← hnext]
  refine ⟨Fp.units_le_units_iff.2 (Nat.le_of_lt_succ hmag), fun hne => Fp.units_le_units_iff.2 ?_⟩
  have hne' : Fp.mag v ≠ 0x7F7FFFFF := fun heq => hne (BitVec.eq_of_toNat_eq ((Fp.toNat_abs v).trans heq))
  exact Nat.le_of_lt_succ (Nat.lt_of_le_of_ne (Nat.le_of_lt_succ hmag) hne')

/-- R133 (b), R135: the magnitude of R132 is no NaN, not below the threshold, and finite outside the corner of log 22:
a ratio above 1 takes more off the excess than the roundings add, and a sample below the largest has room for them. -/
theorem compressed_sample_bounds (hthr : legalThr thr = true) (hratio : legalRatio ratio = true)
    (hv : Fp.finite v = true) (h : Fp.lt thr (Fp.abs v) = true) :
    let m := Fp.add thr (Fp.div (Fp.sub (Fp.abs v) thr) ratio)
    Fp.isNaN m = false ∧ Fp.mag thr ≤ Fp.mag m ∧
    (Fp.lt Fp.one ratio = true ∨ Fp.abs v ≠ 0x7F7FFFFF#32 → Fp.finite m = true) := by
  obtain ⟨ht, ht0, hlt⟩ := finite_threshold hthr hv h
  obtain ⟨hex, hexs, hexerr⟩ := Fp.excess_bounds ht ht0 hv hlt
  obtain ⟨hce, hces, hcele, hceerr⟩ := Fp.compressed_excess_bounds hex hexs hratio
  obtain ⟨hnan, hmag, hfin⟩ := Fp.compressed_bounds ht ht0 hce hces
  obtain ⟨hlargest, hnext⟩ := units_le_of_finite hv
  refine ⟨hnan, hmag, fun hcase => hfin ?_⟩
  rcases hcase with hr | hne
  · have := hceerr hr
    omega
  · have := hnext hne
    omega

theorem le_abs_compSample (hthr : legalThr thr = true) (hratio : legalRatio ratio = true)
    (hv : Fp.finite v = true) (h : Fp.lt thr (Fp.abs v) = true) :
    Fp.le thr (Fp.abs (compSample thr ratio v)) = true := by
  obtain ⟨hnan, hmag, -⟩ := compressed_sample_bounds hthr hratio hv h
  have hkey := Fp.natAbs_key thr
  rw [compSample_of_lt h, abs_copysign]
  exact Fp.le_iff.2 ⟨(Fp.lt_iff.1 h).1, (Fp.isNaN_abs _).trans hnan, by rw [Fp.key_abs]; omega⟩

theorem finite_compSample_of_legal (hthr : legalThr thr = true) (hratio : legalRatio ratio = true)
    (hv : Fp.finite v = true) (hcase : Fp.lt Fp.one ratio = true ∨ Fp.abs v ≠ 0x7F7FFFFF#32) :
    Fp.finite (compSample thr ratio v) = true := by
  rw [finite_compSample]
  split
  case isTrue h =>
    obtain ⟨-, -, hfin⟩ := compressed_sample_bounds hthr hratio hv h
    exact hfin hcase
  case isFalse => exact hv

/-! The compressor on a block. -/

theorem compStage_completes (h : (compStage xf x thr ratio).failed = false) :
    compStage xf x thr ratio = completed (x.map (compSample thr ratio)) := by
  rcases compStage_cases xf x thr ratio with hfail | ⟨hdone, -⟩
  · simp [hfail] at h
  · exact hdone

/-- R135: with a ratio above 1 and no drawn fault the stage does not fail on a finite block. -/
theorem compStage_not_failed (hthr : legalThr thr = true) (hratio : legalRatio ratio = true)
    (hr : Fp.lt Fp.one ratio = true) (hx : x.all Fp.finite = true) : (compStage false x thr ratio).failed = false := by
  rw [← Bool.not_eq_true, compStage_failed_iff]
  rw [List.all_eq_true] at hx
  rintro (hxf | ⟨v, hv, hfin⟩ | ⟨v, hv, hfin⟩)
  · exact absurd hxf Bool.false_ne_true
  · simp [hx v hv] at hfin
  · simp [finite_compSample_of_legal hthr hratio (hx v hv) (.inl hr)] at hfin

theorem compStage_failed_value (h : (compStage xf x thr ratio).failed = true) :
    (compStage xf x thr ratio).value = x := by
  rcases compStage_cases xf x thr ratio with hfail | ⟨hdone, -⟩
  · rw [hfail, softFail_value]
  · simp [hdone] at h

/-! The limiter. -/

theorem limStage_failed_iff : (limStage xf x c).failed = true ↔ xf = true ∨ x.any Fp.isNaN = true := by
  rcases limStage_cases xf x c with ⟨hfail, hcause⟩ | ⟨hdone, hxf, hnan⟩
  · rw [hfail, softFail_failed]; exact iff_of_true rfl hcause
  · rw [hdone, completed_failed, hxf, hnan]; simp

theorem limStage_failed_value (h : (limStage xf x c).failed = true) : (limStage xf x c).value = x := by
  rcases limStage_cases xf x c with ⟨hfail, -⟩ | ⟨hdone, -⟩
  · rw [hfail, softFail_value]
  · simp [hdone] at h

theorem limStage_completes (h : (limStage xf x c).failed = false) :
    limStage xf x c = completed (x.map (limSample c)) ∧ ∀ v ∈ x, Fp.isNaN v = false := by
  rcases limStage_cases xf x c with ⟨hfail, -⟩ | ⟨hdone, -, hnan⟩
  · simp [hfail] at h
  · exact ⟨hdone, by simpa using hnan⟩

/-- R141: a sample that is no NaN is limited to at most the ceiling in magnitude. -/
theorem limSample_le (hc : legalCeil c = true) (hv : Fp.isNaN v = false) :
    Fp.le (Fp.abs (limSample c v)) c = true := by
  obtain ⟨hzero, -⟩ : Fp.le 0#32 c = true ∧ Fp.le c Config.ceilMax = true := by simpa [legalCeil] using hc
  obtain ⟨hcn, hpos⟩ := Fp.zero_le_iff.1 hzero
  unfold limSample
  split
  case isTrue => exact Fp.le_abs_of_key hcn hcn (by omega) le_rfl
  case isFalse habove =>
    split
    case isTrue =>
      rw [Fp.abs_neg]
      exact Fp.le_abs_of_key hcn hcn (by omega) le_rfl
    case isFalse hbelow =>
      have hhigh := (Fp.le_iff.1 (le_of_not_lt hcn hv (Bool.eq_false_iff.2 habove))).2.2
      have hlow := (Fp.le_iff.1 (le_of_not_lt hv ((Fp.isNaN_neg c).trans hcn) (Bool.eq_false_iff.2 hbelow))).2.2
      rw [Fp.key_neg] at hlow
      exact Fp.le_abs_of_key hv hcn hlow hhigh

end Sys2Proof.Machine

namespace Sys2Proof.Proofs

open Sys2Proof.Machine

/-- Settles O52: a sample at or below the threshold is its own result, so it is no cause of a failure of its own. -/
theorem compressorResult : Obligations.CompressorResult := by
  intro xf x thr ratio
  refine ⟨?_, compStage_failed_value, fun hdone => ⟨compStage_length xf x thr ratio, fun n v hv =>
    ⟨compSample thr ratio v, by simp [compStage_completes hdone, hv], compSample_of_not_lt, fun hlt => ?_⟩⟩⟩
  · rw [compStage_failed_iff]
    refine or_congr_right ⟨?_, ?_⟩
    · rintro (hx | ⟨v, hv, hfin⟩)
      · exact .inl hx
      · rw [finite_compSample] at hfin
        split at hfin
        case isTrue hlt => exact .inr ⟨v, hv, hlt, hfin⟩
        case isFalse => exact .inl ⟨v, hv, hfin⟩
    · exact Or.imp_right fun ⟨v, hv, hlt, hfin⟩ => ⟨v, hv, by rw [finite_compSample, if_pos hlt, hfin]⟩
  · rw [compSample_of_lt hlt]
    exact ⟨sign_copysign .., abs_copysign ..⟩

/-- Settles O53: the magnitude of R132 is bounded by its three roundings. -/
theorem compressorStaysAboveThreshold : Obligations.CompressorStaysAboveThreshold := fun _ _ hthr hratio =>
  ⟨fun _ hv hlt => ⟨le_abs_compSample hthr hratio hv hlt, finite_compSample_of_legal hthr hratio hv⟩,
    fun hr _ hx => compStage_not_failed hthr hratio hr hx⟩

/-- Settles O54: the stage answers its input or the samples limited one by one. -/
theorem limiterBounded : Obligations.LimiterBounded := by
  intro xf x c hc
  refine ⟨limStage_failed_iff, limStage_failed_value, fun hdone => ⟨limStage_length xf x c, ?_⟩⟩
  obtain ⟨hblock, hnan⟩ := limStage_completes hdone
  rw [hblock, completed_value]
  constructor
  · intro w hw
    obtain ⟨v, hv, rfl⟩ := List.mem_map.1 hw
    exact limSample_le hc (hnan v hv)
  · intro n v hv
    rw [List.getElem?_map, hv]
    rfl

end Sys2Proof.Proofs
end

section
/-! PROOFS, family 42_bass_enhancer. The bass enhancer (R146 to R149): its block when disabled and when failed, and its
factor for an infinite gain. -/

namespace Sys2Proof.Machine

variable {num : Config.Numerics} {xf : Bool} {x : List Fmt} {g : Fmt}

/-- An infinity above zero is the one of sign + (R15, R19). -/
theorem Fp.eq_posInf_of_isInf (hinf : Fp.isInf g = true) (hpos : Fp.le g 0#32 = false) : g = Fp.posInf := by
  have hmag : Fp.mag g = 0x7F800000 := of_decide_eq_true hinf
  have hsign : Fp.sign g = false := by
    refine Bool.eq_false_iff.2 fun hneg => Bool.eq_false_iff.1 hpos (Fp.le_iff.2 ⟨?_, rfl, ?_⟩)
    · simp [Fp.isNaN, hmag]
    · rw [Fp.key, if_pos hneg, hmag]; decide
  have hlt : g.toNat < 2 ^ 31 := by simpa [Fp.sign_eq] using hsign
  exact BitVec.eq_of_toNat_eq ((Nat.mod_eq_of_lt hlt).symm.trans hmag)

/-- R149 (b): the factor of the infinite gain overflows, as `pow10` does from exponent 39.0 on (log 4). -/
theorem bassFactor_posInf : bassFactor num Fp.posInf = Fp.posInf := by
  have hpow : tPow10 num (Fp.div Fp.posInf Fp.twenty) = Fp.posInf := if_pos (by decide)
  rw [bassFactor, hpow]
  decide

/-- R146: for a gain at or below 0 the draw is not consulted. -/
theorem bassStage_of_le_zero (hg : Fp.le g 0#32 = true) : bassStage num xf x g = completed x := if_pos hg

theorem bassStage_failed_value (h : (bassStage num xf x g).failed = true) : (bassStage num xf x g).value = x := by
  rcases bassStage_cases num xf x g with hsame | ⟨hdone, -⟩
  · exact hsame
  · simp [hdone] at h

end Sys2Proof.Machine

namespace Sys2Proof.Proofs

open Sys2Proof.Machine

/-- Settles O55: the disabled stage, the causes of a failure, the factor of the infinite gain, and the scaled block. -/
theorem bassResult : Obligations.BassResult := by
  intro num xf x g _
  refine ⟨fun hle => ?_, fun hg => ?_, fun hg hinf => ?_, bassStage_failed_value, fun hg hdone => ?_⟩
  · rw [bassStage_of_le_zero hle]; exact ⟨rfl, rfl⟩
  · exact (bassStage_failed_iff num xf x g).trans (and_iff_right hg)
  · rw [Fp.eq_posInf_of_isInf hinf hg]
    exact congrArg Fp.finite bassFactor_posInf
  · exact congrArg StageOut.value (bassStage_completes num hg hdone)

end Sys2Proof.Proofs
end

section
/-! PROOFS, family 43_spectral_analyzer. The analyzer: which samples it reads (R155, R156), the level of a band with a
non-empty bin range (R160 to R162) and the bands it keeps (R161, R164), its failures (R165), and a silent segment
(R163, R167, R168). -/

namespace Sys2Proof.Machine

variable {num : Config.Numerics} {xf : Bool} {x v : List Fmt} {sr i k : Nat} {old : Snapshot}

/-! The first 512 samples (R154 to R156). -/

theorem anaStage_short (h : x.length < 512) : anaStage num xf x sr old = completed old := if_pos h

/-- The windowed segment is made of the first 512 samples. -/
theorem windowed_take : windowed num (x.take 512) = windowed num x := by
  refine List.map_congr_left fun n hn => ?_
  have hn : n < 512 := List.mem_range.1 hn
  simp [hn]

/-- On a block of 512 samples or more the analyzer reads the first 512 alone. -/
theorem anaStage_take (hx : 512 ≤ x.length) : anaStage num xf (x.take 512) sr old = anaStage num xf x sr old := by
  unfold anaStage Config.nfft
  simp only [windowed_take, List.take_take, List.length_take, Nat.min_self, Nat.min_eq_left hx,
    if_neg (Nat.not_lt.2 hx), if_neg (lt_irrefl 512)]

/-! Magnitudes and band levels (R158 to R164). -/

theorem getElem?_magnitudes (hk : k < 256) : (magnitudes num v)[k]? = some (tCabs num (tDft num v k)) := by
  simp [magnitudes, hk]

/-- The spectrum is finite unless the magnitude of one of its bins is not. -/
theorem magnitudes_not_finite_iff :
    (magnitudes num v).all Fp.finite = false ↔ ∃ k < 256, Fp.finite (tCabs num (tDft num v k)) = false := by
  simp [magnitudes]

/-- The magnitudes of the bins from `s` up to `e`, which is excluded (R160, R162). -/
theorem take_drop_magnitudes {s e : Nat} (he : e ≤ 256) : ((magnitudes num v).drop s).take (e - s) =
    (List.range (e - s)).map fun j => tCabs num (tDft num v (s + j)) := by
  refine List.ext_getElem ?_ fun j _ _ => ?_
  · simp [magnitudes_length]; omega
  · simp [magnitudes]

/-- The level of band `i` computed from the windowed segment `v`: that of the mean magnitude over its bins (R162). -/
def computedLevel (num : Config.Numerics) (v : List Fmt) (sr i : Nat) : Fmt :=
  bandLevel num (tMean num ((List.range ((bandBins sr i).2 - (bandBins sr i).1)).map fun j =>
    tCabs num (tDft num v ((bandBins sr i).1 + j))))

/-- A band below 30 with a non-empty bin range has its computed level, every other its old one. -/
theorem newLevel_magnitudes (levels : Vector Fmt 31) : newLevel num sr (magnitudes num v) levels i =
    if i < 30 ∧ (bandBins sr i).1 < (bandBins sr i).2 then computedLevel num v sr i else levels[i]?.getD 0#32 := by
  have hend : (bandBins sr i).2 ≤ 256 := (nearestBin_le ..).trans (by decide)
  rw [computedLevel, ← take_drop_magnitudes hend]
  rfl

/-- When every old level is finite, a level that is not finite is a computed one (log 17). -/
theorem newLevels_not_finite_iff {levels : Vector Fmt 31} (hold : levels.toList.all Fp.finite = true) :
    ((List.range 31).map (newLevel num sr (magnitudes num v) levels)).all Fp.finite = false ↔
      ∃ i < 30, (bandBins sr i).1 < (bandBins sr i).2 ∧ Fp.finite (computedLevel num v sr i) = false := by
  have hkept (i : Nat) : Fp.finite (levels[i]?.getD 0#32) = true := by
    cases hi : levels[i]? with
    | none => decide
    | some l => exact List.all_eq_true.1 hold l (Vector.mem_toList_iff.2 (Vector.mem_of_getElem? hi))
  simp only [List.all_map, List.all_eq_false, List.mem_range, Function.comp_apply, newLevel_magnitudes,
    Bool.not_eq_true]
  constructor
  · rintro ⟨i, -, hi⟩
    split at hi
    case isTrue hcomp => exact ⟨i, hcomp.1, hcomp.2, hi⟩
    case isFalse => rw [hkept] at hi; contradiction
  · rintro ⟨i, hi, hbins, hfin⟩
    exact ⟨i, by omega, by rwa [if_pos ⟨hi, hbins⟩]⟩

/-! The snapshot the analyzer answers. -/

theorem newSnapshot_spec (hk : k < 256) :
    (newSnapshot num x sr old).spec[k]? = some (tCabs num (tDft num (windowed num x) k)) := by
  rw [newSnapshot, getElem?_vecOf, if_pos hk, List.getD_eq_getElem?_getD, getElem?_magnitudes hk, Option.getD_some]

theorem newSnapshot_blev (hi : i < 31) : (newSnapshot num x sr old).blev[i]? =
    if i < 30 ∧ (bandBins sr i).1 < (bandBins sr i).2 then some (computedLevel num (windowed num x) sr i)
    else old.blev[i]? := by
  simp only [newSnapshot, getElem?_vecOf, if_pos hi]
  rw [List.getD_eq_getElem?_getD, List.getElem?_map, List.getElem?_range hi, Option.map_some, Option.getD_some,
    newLevel_magnitudes]
  split <;> simp [hi]

/-- R161, R164: the analyzer keeps the level of band 30 and of every band with an empty bin range. -/
theorem anaStage_blev_kept (hi : i < 31) (hkept : ¬ (i < 30 ∧ (bandBins sr i).1 < (bandBins sr i).2)) :
    (anaStage num xf x sr old).value.blev[i]? = old.blev[i]? := by
  rcases anaStage_cases num xf x sr old with hsame | ⟨hnew, -⟩
  · rw [hsame]
  · rw [hnew, completed_value, newSnapshot_blev hi, if_neg hkept]

/-- R165: when the analyzer fails on a block of 512 samples or more, with finite old levels (log 17). -/
theorem anaStage_failed_iff_computed (hx : 512 ≤ x.length) (hold : old.blev.toList.all Fp.finite = true) :
    (anaStage num xf x sr old).failed = true ↔ sr = 0 ∨ xf = true ∨ (∃ u ∈ x.take 512, Fp.finite u = false) ∨
      (∃ k < 256, Fp.finite (tCabs num (tDft num (windowed num x) k)) = false) ∨
      ∃ i < 30, (bandBins sr i).1 < (bandBins sr i).2 ∧
        Fp.finite (computedLevel num (windowed num x) sr i) = false := by
  rw [anaStage_failed_iff num xf x sr old hx, magnitudes_not_finite_iff, newLevels_not_finite_iff hold]
  simp only [List.all_eq_false, Bool.not_eq_true]

/-! A silent segment (R163, R167, R168). -/

/-- A coefficient of the unit interval is finite: it is 1.0, or below it in magnitude (P9). -/
theorem finite_unitInterval (h : Fmt) : Fp.finite (unitInterval h) = true := by
  unfold unitInterval
  split
  case isTrue hbelow =>
    have hkey : Fp.key (Fp.abs h) < 0x3F800000 := (Fp.lt_iff.1 hbelow).2.2
    rw [Fp.key_abs] at hkey
    rw [Fp.finite_iff, mag_abs]
    omega
  case isFalse => decide

theorem finite_tHann (n : Nat) : Fp.finite (tHann num n) = true := by
  unfold tHann
  split
  · decide
  · exact finite_unitInterval _

theorem Fp.finite_of_isZero {a : Fmt} (ha : Fp.isZero a = true) : Fp.finite a = true := by
  rw [Fp.finite_iff, of_decide_eq_true ha]; decide

theorem Fp.encoding_zero (d : Nat) : Fp.encoding 0 d = 0 := by
  simp [Fp.encoding, Fp.spacing, Fp.steps, Fp.nearestEven]

/-- A zero of either sign times a finite value is a zero (R15). -/
theorem Fp.isZero_mul {a b : Fmt} (ha : Fp.isZero a = true) (hb : Fp.finite b = true) :
    Fp.isZero (Fp.mul a b) = true := by
  have hunits : Fp.units a = 0 := by rw [Fp.units_eq, of_decide_eq_true ha]; rfl
  obtain ⟨hanan, hainf⟩ := Fp.finite_iff_not.1 (Fp.finite_of_isZero ha)
  obtain ⟨hbnan, hbinf⟩ := Fp.finite_iff_not.1 hb
  have hmul : Fp.mul a b = Fp.roundUnits (Fp.sign a != Fp.sign b) 0 (2 ^ 149) := by
    simp [Fp.mul, hunits, hanan, hainf, hbnan, hbinf]
  rw [hmul, Fp.isZero, Fp.mag_roundUnits, Fp.encoding_zero]
  rfl

/-- The windowed segment of 512 zeros of either sign is zeros, since every coefficient is finite. -/
theorem windowed_silent (hx : (x.take 512).all Fp.isZero = true) : (windowed num x).all Fp.isZero = true := by
  refine List.all_eq_true.2 fun u hu => ?_
  obtain ⟨n, hn, rfl⟩ := List.mem_map.1 hu
  refine Fp.isZero_mul ?_ (finite_tHann n)
  rw [List.getD_eq_getElem?_getD, ← List.getElem?_take_of_lt (List.mem_range.1 hn)]
  cases hs : (x.take 512)[n]? with
  | none => rfl
  | some a => exact List.all_eq_true.1 hx a (List.mem_of_getElem? hs)

/-- R168: every bin of a silent segment has magnitude zero. -/
theorem tCabs_tDft_silent (hv : v.all Fp.isZero = true) (k : Nat) : tCabs num (tDft num v k) = 0#32 := by
  rw [tDft, if_pos hv]; rfl

/-- R163: the mean magnitude of a silent segment is zero, so its level is the floor. -/
theorem computedLevel_silent (hv : v.all Fp.isZero = true) (sr i : Nat) :
    computedLevel num v sr i = 0xC2700000#32 := by
  simp only [computedLevel, tCabs_tDft_silent hv]
  rw [tMean, if_pos (by simp [show Fp.isZero 0#32 = true from rfl])]
  rfl

/-- R165: a positive rate, no drawn fault and finite old levels leave a silent segment no cause of a failure. -/
theorem anaStage_silent_not_failed (hx : 512 ≤ x.length) (hsr : 1 ≤ sr) (hzero : (x.take 512).all Fp.isZero = true)
    (hold : old.blev.toList.all Fp.finite = true) : (anaStage num false x sr old).failed = false := by
  have hsilent := windowed_silent (num := num) hzero
  rw [← Bool.not_eq_true, anaStage_failed_iff_computed hx hold]
  rintro (hrate | hdrawn | ⟨u, hu, hfin⟩ | ⟨k, -, hfin⟩ | ⟨i, -, -, hfin⟩)
  · omega
  · exact Bool.false_ne_true hdrawn
  · simp [Fp.finite_of_isZero (List.all_eq_true.1 hzero u hu)] at hfin
  · rw [tCabs_tDft_silent hsilent] at hfin; exact absurd hfin (by decide)
  · rw [computedLevel_silent hsilent] at hfin; exact absurd hfin (by decide)

/-! Band 30 over every command word (R164). -/

/-- A PROCESS that runs keeps band 30, and no other effect writes a level. -/
theorem Effect.lastBand {s t : State} {r : Except DecodeError Instr} (h : Effect s r t) :
    t.blev[30]? = s.blev[30]? := by
  cases h with
  | quiet _ _ hsame => rw [hsame.blev]
  | committed _ _ ht =>
    rw [ht.blev]
    exact (anaStage_blev_kept (by decide) (by simp)).trans (congrArg (·[30]?) (dinDrop_blev ..))
  | _ => simp

end Sys2Proof.Machine

namespace Sys2Proof.Proofs

open Sys2Proof.Machine

/-- Settles O24: of the effects only the commit of a PROCESS writes levels, and the analyzer keeps band 30. -/
theorem lastBandNeverWritten : Obligations.LastBandNeverWritten := fun w s =>
  have ⟨t, ht, he⟩ := execWord_effect w s
  ⟨t, ht, he.lastBand⟩

/-- Settles O56: the causes of a failure with the levels said band by band, the entries of the new snapshot, and the
segment of the first 512 samples. -/
theorem analyzerKeepsOrReplacesWhole : Obligations.AnalyzerKeepsOrReplacesWhole := by
  intro num xf x tail sr old
  refine ⟨fun hshort => ?_, anaStage_failed_iff_computed, anaStage_failed num xf x sr old, fun hx hdone => ?_,
    fun hx hcause => ?_, fun hx => ?_, anaStage_blev_kept (by decide) (by simp), fun i hi hempty => ?_⟩
  · rw [anaStage_short hshort]; exact ⟨rfl, rfl⟩
  · rw [anaStage_completes num hx hdone]
    exact ⟨fun _ => newSnapshot_spec, fun _ => newSnapshot_blev⟩
  · exact (anaStage_failed_iff num xf x sr old hx).2 (hcause.imp_right (Or.imp_right .inl))
  · rw [← anaStage_take hx, ← anaStage_take (by simp [hx]), List.take_left' (by simp [hx])]
  · exact anaStage_blev_kept (by omega) fun hcomputed => Nat.not_lt.2 hempty hcomputed.2

/-- Settles O57: the windowed segment is zeros, so its magnitudes are zero and its computed levels the floor, and no
cause of a failure is left. -/
theorem analyzerSilentBlock : Obligations.AnalyzerSilentBlock := by
  intro num x sr old hx hsr hzero hold
  have hdone := anaStage_silent_not_failed (num := num) hx hsr hzero hold
  have hsilent := windowed_silent (num := num) hzero
  rw [anaStage_completes num hx hdone]
  refine ⟨rfl, fun k hk => ?_, fun i hi => ?_⟩
  · rw [completed_value, newSnapshot_spec hk, tCabs_tDft_silent hsilent]
  · rw [completed_value, newSnapshot_blev hi, computedLevel_silent hsilent]
    rfl

end Sys2Proof.Proofs
end

section
/-! PROOFS, family 44_level_meter. The level meter: the order of magnitudes, the peak (R172), the entries of the two
histories (R171, R173), its failures (R174), and a silent block. -/

namespace Sys2Proof.Machine.Fp

variable {x y z v : Fmt}

theorem le_of_lt (h : lt x y = true) : le x y = true :=
  have ⟨hx, hy, hkey⟩ := lt_iff.1 h
  le_iff.2 ⟨hx, hy, Int.le_of_lt hkey⟩

theorem le_trans (hxy : le x y = true) (hyz : le y z = true) : le x z = true :=
  have ⟨hx, _, hkey⟩ := le_iff.1 hxy
  have ⟨_, hz, hkey'⟩ := le_iff.1 hyz
  le_iff.2 ⟨hx, hz, Int.le_trans hkey hkey'⟩

theorem le_refl (h : isNaN x = false) : le x x = true := le_iff.2 ⟨h, h, Int.le_refl _⟩

/-- The magnitude of a zero of either sign is the zero of sign + (R15, R19). -/
theorem abs_eq_zero (h : isZero v = true) : abs v = 0#32 :=
  BitVec.eq_of_toNat_eq ((toNat_abs v).trans (of_decide_eq_true h))

theorem isZero_of_abs_le_zero (h : le (abs v) 0#32 = true) : isZero v = true := by
  have hkey := (le_iff.1 h).2.2
  rw [key_abs, show key 0#32 = 0 by decide] at hkey
  exact decide_eq_true (by omega)

end Sys2Proof.Machine.Fp

namespace Sys2Proof.Machine

variable {num : Config.Numerics} {xf : Bool} {x : List Fmt} {old : Levels}

/-! The peak (R172). -/

/-- The fold of the peak, begun at the magnitude of `u`, ends at the largest of the magnitudes of `u` and the samples:
each sample either takes the place of `u` or is not above it. -/
theorem foldl_peak_greatest (u : Fmt) (hnan : ∀ v ∈ u :: x, Fp.isNaN v = false) :
    ∃ w ∈ u :: x, x.foldl (fun p v => Fp.max p (Fp.abs v)) (Fp.abs u) = Fp.abs w ∧
      ∀ v ∈ u :: x, Fp.le (Fp.abs v) (Fp.abs w) = true := by
  induction x generalizing u with
  | nil =>
    refine ⟨u, List.mem_singleton_self u, rfl, fun v hv => ?_⟩
    rw [List.mem_singleton.1 hv]
    exact Fp.le_refl ((Fp.isNaN_abs u).trans (hnan u (List.mem_singleton_self u)))
  | cons a x ih =>
    obtain ⟨hu, ha, hx⟩ : Fp.isNaN u = false ∧ Fp.isNaN a = false ∧ ∀ v ∈ x, Fp.isNaN v = false := by
      simpa using hnan
    rw [List.foldl_cons]
    by_cases habove : Fp.lt (Fp.abs u) (Fp.abs a) = true
    · obtain ⟨w, hw, hfold, hmax⟩ := ih a (List.forall_mem_cons.2 ⟨ha, hx⟩)
      have hua := Fp.le_trans (Fp.le_of_lt habove) (hmax a List.mem_cons_self)
      exact ⟨w, List.mem_cons_of_mem u hw, by rw [Fp.max, if_pos habove, hfold],
        List.forall_mem_cons.2 ⟨hua, hmax⟩⟩
    · obtain ⟨w, hw, hfold, hmax⟩ := ih u (List.forall_mem_cons.2 ⟨hu, hx⟩)
      obtain ⟨huw, hxw⟩ := List.forall_mem_cons.1 hmax
      have hau := le_of_not_lt ((Fp.isNaN_abs u).trans hu) ((Fp.isNaN_abs a).trans ha) (Bool.eq_false_iff.2 habove)
      exact ⟨w, List.cons_subset_cons u (List.subset_cons_self a x) hw, by rw [Fp.max, if_neg habove, hfold],
        List.forall_mem_cons.2 ⟨huw, List.forall_mem_cons.2 ⟨Fp.le_trans hau huw, hxw⟩⟩⟩

/-- R172: the peak is the magnitude of a sample, and no sample has a larger one. Where it is the 0 the fold begins
with, every sample is a zero, and the first one is such a sample. -/
theorem peakOf_greatest (hne : x ≠ []) (hnan : ∀ v ∈ x, Fp.isNaN v = false) :
    (∃ v ∈ x, peakOf x = Fp.abs v) ∧ ∀ v ∈ x, Fp.le (Fp.abs v) (peakOf x) = true := by
  obtain ⟨w, hw, hpeak, hmax⟩ := foldl_peak_greatest 0#32 (List.forall_mem_cons.2 ⟨rfl, hnan⟩)
  replace hpeak : peakOf x = Fp.abs w := hpeak
  obtain ⟨-, hxw⟩ := List.forall_mem_cons.1 hmax
  rw [hpeak]
  refine ⟨?_, hxw⟩
  obtain rfl | hsample := List.mem_cons.1 hw
  · obtain ⟨v, hv⟩ := List.exists_mem_of_ne_nil x hne
    exact ⟨v, hv, (Fp.abs_eq_zero (Fp.isZero_of_abs_le_zero (hxw v hv))).symm⟩
  · exact ⟨w, hsample, rfl⟩

/-! The histories (R40, R173). -/

theorem histAppend_eq_tail {h : List Fmt} (v : Fmt) (hl : h.length ≤ 100) :
    histAppend h v = (if h.length < 100 then h else h.tail) ++ [v] := by
  unfold histAppend Config.histcap
  split
  · rfl
  · rw [List.drop_one, List.take_of_length_le (by rw [List.length_tail]; omega)]

/-! A silent block (R171), and the two answers of the stage (R173, R174). -/

theorem tRms_silent (hzero : x.all Fp.isZero = true) : tRms num x = 0#32 := if_pos hzero

theorem metStage_failed_value (h : (metStage num xf x old).failed = true) : (metStage num xf x old).value = old := by
  rcases metStage_cases num xf x old with hfail | ⟨hdone, -⟩
  · rw [hfail, softFail_value]
  · simp [hdone] at h

theorem metStage_completes (h : (metStage num xf x old).failed = false) :
    (metStage num xf x old).value = ⟨histAppend old.hrms (tRms num x), histAppend old.hpeak (peakOf x)⟩ ∧
      x ≠ [] ∧ ∀ v ∈ x, Fp.isNaN v = false := by
  rcases metStage_cases num xf x old with hfail | ⟨hdone, hne, -, hfin, -⟩
  · simp [hfail] at h
  · rw [hdone]
    exact ⟨rfl, hne, fun v hv => (Fp.finite_iff_not.1 (List.all_eq_true.1 hfin v hv)).1⟩

theorem metStage_silent_not_failed (hne : x ≠ []) (hzero : x.all Fp.isZero = true) :
    (metStage num false x old).failed = false := by
  rw [← Bool.not_eq_true, metStage_failed_iff]
  rintro (hempty | hdrawn | ⟨v, hv, hfin⟩ | hfin)
  · exact hne hempty
  · exact Bool.false_ne_true hdrawn
  · simp [Fp.finite_of_isZero (List.all_eq_true.1 hzero v hv)] at hfin
  · rw [tRms_silent hzero] at hfin; exact absurd hfin (by decide)

end Sys2Proof.Machine

namespace Sys2Proof.Proofs

open Sys2Proof.Machine

/-- Settles O58: the causes of a failure, and a stage that completes appends the RMS to one history and the greatest
magnitude to the other. -/
theorem meterAppendsOneEach : Obligations.MeterAppendsOneEach := by
  intro num xf x old hcap hlen
  refine ⟨metStage_failed_iff num xf x old, metStage_failed_value, fun hdone => ?_, ?_⟩
  · obtain ⟨hvalue, hne, hnan⟩ := metStage_completes hdone
    obtain ⟨⟨v, hv, hpeak⟩, hmax⟩ := peakOf_greatest hne hnan
    have hpeaks := histAppend_eq_tail (peakOf x) (hlen.trans_le hcap)
    rw [hlen] at hpeaks
    rw [hvalue]
    exact ⟨peakOf x, histAppend_eq_tail _ hcap, hpeaks, ⟨v, hv, hpeak⟩, hmax, sign_tRms num x, fun hzero =>
      ⟨tRms_silent hzero, hpeak.trans (Fp.abs_eq_zero (List.all_eq_true.1 hzero v hv))⟩⟩
  · rintro hne hzero rfl
    exact metStage_silent_not_failed hne hzero

end Sys2Proof.Proofs
end

section
/-! PROOFS, family 45_engine_process. PROCESS as a command: ignored in Idle (R184), and in Active the chain, the
telemetry on the block as received and one commit with the response (R185 to R190). -/

namespace Sys2Proof.Machine

variable {s t u : State} {n sr : Nat}

/-! The bits of the status byte (R85, R189). -/

theorem getLsbD_failBits (f0 f1 f2 f3 f4 f5 : Bool) (k : Nat) : (failBits f0 f1 f2 f3 f4 f5).getLsbD k =
    match k with
    | 0 => f0 | 1 => f1 | 2 => f2 | 3 => f3 | 4 => f4 | 5 => f5
    | _ => false := by
  match k with
  | 0 | 1 | 2 | 3 | 4 | 5 => revert f0 f1 f2 f3 f4 f5; decide
  | k + 6 => exact BitVec.getLsbD_of_ge _ _ (Nat.le_add_left 6 k)

theorem getLsbD_ranStatus (f : BitVec 6) (k : Nat) : (ranStatus f).getLsbD k = f.getLsbD k := by
  rw [ranStatus, BitVec.getLsbD_append]
  split
  · rfl
  · rw [BitVec.getLsbD_zero, BitVec.getLsbD_of_ge f k (by omega)]

/-! States that share registers, or the inputs. -/

/-- A command leaves RST, the turn count and the arbiter's pending choices alone. -/
theorem exec_sameArbiter {i : Instr} (h : exec i s = .next t) : SameArbiter s t := by
  rcases exec_streams i s with hwait | ⟨t', _, _, hnext, -, harbiter⟩
  · cases hwait.symm.trans h
    exact ⟨rfl, rfl, fun _ => rfl⟩
  · cases hnext.symm.trans h
    exact harbiter

theorem SameTelemetry.symm (h : SameTelemetry s t) : SameTelemetry t s :=
  ⟨h.spec.symm, h.blev.symm, h.hrms.symm, h.hpeak.symm, h.sr.symm⟩

theorem SameTelemetry.trans (h : SameTelemetry s t) (h' : SameTelemetry t u) : SameTelemetry s u :=
  ⟨h'.spec.trans h.spec, h'.blev.trans h.blev, h'.hrms.trans h.hrms, h'.hpeak.trans h.hpeak, h'.sr.trans h.sr⟩

/-! PROCESS in Idle (R184). -/

/-- In Idle a PROCESS takes its words, answers the header alone, and keeps registers, draw and arbiter. -/
theorem exec_process_idle (he : s.eng = .idle) (hdata : n ≤ s.here.din.length) :
    ∃ t, exec (.process n sr) s = .next t ∧ Streamed s t n [header 0x03#8 ignStatus 0] ∧ SameRegisters s t ∧
      SameInputs s t := by
  have hexec : exec (.process n sr) s = .next (processIdle (s.dinDrop n)) :=
    execProcess_idle (decide_eq_true hdata) he
  have harbiter := exec_sameArbiter hexec
  exact ⟨_, hexec, streamed_respond _ _ n [] (by simp) fun _ => rfl,
    (sameRegisters_dinDrop s n).trans (sameRegisters_respond ..),
    { harbiter with xf := by simp [processIdle], draws := by simp [processIdle] }⟩

/-! PROCESS in Active (R185 to R190). -/

section
variable {num : Config.Numerics} {xf : BitVec 6} {x : List Fmt}

/-- The telemetry a block commits depends on the telemetry before it, and on no parameter (R187, R188). -/
theorem SameTelemetry.commitBlock (h : SameTelemetry s u) :
    SameTelemetry (commitBlock num xf x sr s) (commitBlock num xf x sr u) := by
  obtain ⟨hspec, hblev, hhrms, hhpeak, -⟩ := h
  constructor <;> simp [Machine.commitBlock, analyzed, metered, hspec, hblev, hhrms, hhpeak]

/-- With all gains zero, both dynamics stages off and no bass boost the chain hands the block on (R192). -/
theorem audioChain_default (hgain : someGain s.eqg = false) (hcomp : s.compEn = false) (hlim : s.limEn = false)
    (hbass : Fp.lt 0#32 s.bass = false) :
    audioChain num xf s x sr = { block := x, f0 := false, f1 := false, f2 := false, f3 := false } := by
  simp [audioChain, eqStage_allZero hgain, hcomp, hlim, hbass]

end

/-- In Active a PROCESS takes its words, answers the chain's block under the failures of the stages, and has the
registers of the commit; the stages read the registers from before the words were taken. -/
theorem exec_process_active (he : s.eng = .active) (hdata : n ≤ s.here.din.length) :
    ∃ t, exec (.process n sr) s = .next t ∧
      Streamed s t n
        (header 0x03#8 (ranStatus (stageFailures Config.numerics s.xf (s.dinWords n) sr s)) n ::
          (audioChain Config.numerics s.xf s (s.dinWords n) sr).block) ∧
      (audioChain Config.numerics s.xf s (s.dinWords n) sr).block.length = n ∧
      SameRegisters (commitBlock Config.numerics s.xf (s.dinWords n) sr s) t := by
  have hdrop := sameRegisters_dinDrop s n
  have hchain := hdrop.read (fun a => audioChain Config.numerics s.xf a (s.dinWords n) sr) fun _ _ => rfl
  have hfail := hdrop.read (stageFailures Config.numerics s.xf (s.dinWords n) sr) fun _ _ => rfl
  have hcommit := (commitBlock_keepsInputs Config.numerics s.xf (s.dinWords n) sr).sameRegisters hdrop
  have hlen : (audioChain Config.numerics s.xf s (s.dinWords n) sr).block.length = n := by
    rw [audioChain_length]; exact List.length_take_of_le hdata
  have hstreams := streamed_process Config.numerics s.xf (s.dinWords n) sr n s
  rw [hchain, hfail, hlen] at hstreams
  exact ⟨_, execProcess_active (decide_eq_true hdata) he, hstreams, hlen,
    (hcommit.trans (sameRegisters_respond ..)).trans (sameRegisters_redraw _)⟩

end Sys2Proof.Machine

namespace Sys2Proof.Proofs

open Sys2Proof.Machine

/-- Settles O41: the state answered has the registers of the commit, whose stages are those of the statement. -/
theorem processRunsAndCommits : Obligations.ProcessRunsAndCommits := by
  intro s n sr he hdata _ hsr x b1 b2 b3 b4 a m
  obtain ⟨t, hexec, hstreams, hlen, hregs⟩ := exec_process_active (sr := sr) he hdata
  have harbiter := exec_sameArbiter hexec
  refine ⟨t, ranStatus (stageFailures Config.numerics s.xf x sr s), hexec, hstreams, hlen, fun k => ?_, fun k => ?_,
    hregs.spec, hregs.blev, hregs.hrms, hregs.hpeak, ?_, hregs.eng.trans he, { hregs with }, harbiter.rst,
    harbiter.turn, harbiter.due⟩
  · rw [getLsbD_ranStatus]
    exact getLsbD_failBits b1.failed b2.failed b3.failed b4.failed a.failed m.failed k
  · rw [hregs.flt, getLsbD_ranStatus]
    exact getLsbD_logFailures ..
  · rw [hregs.sr]
    exact Nat.mod_eq_of_lt hsr

/-- Settles O40: the engine answers the header with IGN and no payload. -/
theorem processIgnoredInIdle : Obligations.ProcessIgnoredInIdle := by
  intro s n sr he hdata
  obtain ⟨t, hexec, hstreams, hregs, hinputs⟩ := exec_process_idle (sr := sr) he hdata
  exact ⟨t, hexec, hstreams, hregs.toSameParams, hregs.toSameTelemetry, hregs.toSameControl, hinputs⟩

/-- Settles O42: each stage of the chain hands its block on without a failure. -/
theorem defaultParametersPassThrough : Obligations.DefaultParametersPassThrough := by
  intro s n sr he hdata hgains hcomp hlim hbass
  obtain ⟨t, hexec, hstreams, -, -⟩ := exec_process_active (sr := sr) he hdata
  have hchain : audioChain Config.numerics s.xf s (s.dinWords n) sr = ⟨s.dinWords n, false, false, false, false⟩ :=
    audioChain_default ((someGain_eq_false s.eqg).2 hgains) hcomp hlim hbass
  rw [hchain] at hstreams
  refine ⟨t, _, hexec, hstreams, fun k hk => ?_⟩
  rw [getLsbD_ranStatus, stageFailures, hchain, getLsbD_failBits]
  match k, hk with
  | 0, _ | 1, _ | 2, _ | 3, _ => rfl

/-- Settles O43: the telemetry answered is that of the commit, which depends on the block, the draw and the telemetry
before it. -/
theorem telemetryIgnoresParameters : Obligations.TelemetryIgnoresParameters := by
  intro s u n sr hs hu hns hnu hx htel hxf
  obtain ⟨t, hexec, -, -, hregs⟩ := exec_process_active (sr := sr) hs hns
  obtain ⟨v, hexec', -, -, hregs'⟩ := exec_process_active (sr := sr) hu hnu
  have hwords : u.dinWords n = s.dinWords n := hx.symm
  rw [hxf, hwords] at hregs'
  exact ⟨t, v, hexec, hexec', hregs.toSameTelemetry.symm.trans (htel.commitBlock.trans hregs'.toSameTelemetry)⟩

/-- Settles O32: the three meanings write ENG or nothing. -/
theorem nopStartStop : Obligations.NopStartStop := fun _ => ⟨rfl, rfl, rfl⟩

end Sys2Proof.Proofs
end

section
/-! PROOFS, family 46_parameter_commands. The parameter commands, one equation per case: what is ignored, what is
stored, and a CFGLOAD as the SETEQ or SETCH of each present field (R201 to R207). -/

namespace Sys2Proof.Machine

variable {s t : State} {i c p j : Nat} {g v x : Word} {m r rest : List Word}

/-! SETEQ and SETCH (R201 to R203). -/

theorem applyEqGain_ignored (h : 30 < i ∨ Fp.isNaN g = true) : s.applyEqGain i g = s := if_pos h

theorem applyChannel_unknown (h : 5 < c ∨ 7 < p) : s.applyChannel c p v = s := if_pos h

/-- Parameters 0 to 5 take the word as given. -/
theorem channelValue_fmt (hp : p ≤ 5) (hv : Fp.isNaN v = false) : channelValue p v = some v := by
  have hfmt : isBooleanParam p = false := decide_eq_false (by omega)
  simp [channelValue, hfmt, hv]

/-- Parameters 0 to 5 take no NaN. -/
theorem channelValue_nan (hp : p ≤ 5) (hv : Fp.isNaN v = true) : channelValue p v = none := by
  have hfmt : isBooleanParam p = false := decide_eq_false (by omega)
  simp [channelValue, hfmt, hv]

theorem booleanWord_eq (v : Word) : booleanWord v = if v.getLsbD 0 then 1#32 else 0#32 := by
  rw [booleanWord, BitVec.and_one_eq_setWidth_ofBool_getLsbD]
  cases v.getLsbD 0 <;> rfl

/-- Mute and bypass take bit 0 of any word. -/
theorem channelValue_flag (hp : 6 ≤ p) : channelValue p v = some (if v.getLsbD 0 then 1#32 else 0#32) := by
  have hflag : isBooleanParam p = true := decide_eq_true hp
  rw [channelValue, if_pos hflag, booleanWord_eq]

theorem applyChannel_nan (hp : p ≤ 5) (hv : Fp.isNaN v = true) : s.applyChannel c p v = s := by
  simp [State.applyChannel, channelValue_nan hp hv]

/-- A named channel word holds the value the command stores, if it stores one. -/
theorem applyChannel_stored {w : Word} (hc : c ≤ 5) (hp : p ≤ 7) (hv : channelValue p v = some w) :
    (s.applyChannel c p v).chWord c p = w := by
  rw [chWord_applyChannel, if_pos ⟨rfl, rfl, hc, hp⟩, hv, Option.getD_some]

/-! SETBASS and SETDYNP (R205, R206). -/

theorem exec_setbass_nan (h : Fp.isNaN g = true) : exec (.setbass g) s = .next s := by
  simp [exec, execSetbass, h]

theorem exec_setbass_stored (h : Fp.isNaN g = false) : exec (.setbass g) s = .next { s with bass := g } := by
  simp [exec, execSetbass, h]

theorem exec_setdynp_nan {sel : Nat} (h : Fp.isNaN x = true) : exec (.setdynp sel x) s = .next s := by
  simp [exec, execSetdynp, h]

theorem exec_setdynp_thr (h : Fp.isNaN x = false) : exec (.setdynp 0 x) s = .next { s with thr := clampThr x } := by
  simp [exec, execSetdynp, h]

theorem exec_setdynp_ratio (h : Fp.isNaN x = false) :
    exec (.setdynp 1 x) s = .next { s with ratio := clampRatio x } := by
  simp [exec, execSetdynp, h]

theorem exec_setdynp_ceil (h : Fp.isNaN x = false) : exec (.setdynp 2 x) s = .next { s with ceil := clampCeil x } := by
  simp [exec, execSetdynp, h]

theorem exec_setdynp_unknown (sel : Nat) : exec (.setdynp (sel + 3) x) s = .next s := by
  simp [exec, execSetdynp]

/-! CFGLOAD (R207). -/

@[simp] theorem dinDrop_eqGain (n i : Nat) : (s.dinDrop n).eqGain i = s.eqGain i := by simp [State.eqGain]

@[simp] theorem dinDrop_chWord (n c p : Nat) : (s.dinDrop n).chWord c p = s.chWord c p := by simp [State.chWord]

/-- With the masks and the record at the head of DIN a CFGLOAD takes them and loads the fields in order. -/
theorem exec_cfgload_of_din (hm : m.length = 3) (hr : r.length = 79) (hdin : s.here.din = m ++ r ++ rest) :
    exec .cfgload s = .next ((List.range Config.nrecord).foldl (State.loadField m r) (s.dinDrop 82)) := by
  have hholds : s.dinHolds 82 = true := decide_eq_true (by simp only [hdin, List.length_append, hm, hr]; omega)
  have hwords : s.dinWords 82 = m ++ r := by rw [State.dinWords, hdin, List.take_left' (by simp [hm, hr])]
  simp only [exec, execCfgload, hholds, if_true, hwords, List.take_left' hm, List.drop_left' hm]

/-- A gain after a CFGLOAD is that of the field's SETEQ if the field is present. -/
theorem loadFields_eqGain_eq_applyEqGain (hj : j ≤ 30) (n : Nat) :
    ((List.range Config.nrecord).foldl (State.loadField m r) (s.dinDrop n)).eqGain j =
      if fieldPresent m j then (s.applyEqGain j (r.getD j 0#32)).eqGain j else s.eqGain j := by
  have hlt : j < 79 := by omega
  rw [loadFields_eqGain, eqGain_applyEqGain]
  cases fieldPresent m j <;> simp [hlt]

/-- A channel word after a CFGLOAD is that of the field's SETCH if the field is present. -/
theorem loadFields_chWord_eq_applyChannel (hc : c ≤ 5) (hp : p ≤ 7) (n : Nat) :
    ((List.range Config.nrecord).foldl (State.loadField m r) (s.dinDrop n)).chWord c p =
      if fieldPresent m (31 + 8 * c + p) then
        (s.applyChannel c p (r.getD (31 + 8 * c + p) 0#32)).chWord c p
      else s.chWord c p := by
  have hlt : 31 + 8 * c + p < 79 := by omega
  rw [loadFields_chWord _ _ _ _ _ _ hc hp, chWord_applyChannel]
  simp [hlt, hc, hp]

@[simp] theorem loadFields_xf (js : List Nat) : (js.foldl (State.loadField m r) s).xf = s.xf :=
  loadFields_other s State.xf (fun _ _ _ => rfl) ..

@[simp] theorem loadFields_draws (js : List Nat) : (js.foldl (State.loadField m r) s).draws = s.draws :=
  loadFields_other s State.draws (fun _ _ _ => rfl) ..

/-- A CFGLOAD keeps the telemetry. -/
theorem loadFields_sameTelemetry (js : List Nat) (n : Nat) :
    SameTelemetry s (js.foldl (State.loadField m r) (s.dinDrop n)) := by
  constructor <;> simp

/-- A CFGLOAD keeps the engine state and the failure log. -/
theorem loadFields_sameControl (js : List Nat) (n : Nat) :
    SameControl s (js.foldl (State.loadField m r) (s.dinDrop n)) := by
  constructor <;> simp

end Sys2Proof.Machine

namespace Sys2Proof.Proofs

open Sys2Proof.Machine

/-- Settles O33: the state answered is that of `applyEqGain`, which ignores the operand or stores the clamped gain. -/
theorem seteqResult : Obligations.SeteqResult := by
  intro s i g
  have hstored (hi : i ≤ 30) (hg : Fp.isNaN g = false) : (s.applyEqGain i g).eqGain i = clampGain g := by
    rw [eqGain_applyEqGain, if_pos ⟨rfl, hi, hg⟩]
  refine ⟨s.applyEqGain i g, rfl, applyEqGain_ignored, hstored, fun hi hg => ?_, fun j hj => ?_,
    applyEqGain_restore s i g⟩
  · rw [hstored hi hg]
    exact clampGain_legal g hg
  · rw [eqGain_applyEqGain, if_neg fun h => hj h.1]

/-- Settles O34: the state answered is that of `applyChannel`, which ignores the operands or stores the value
`channelValue` gives. -/
theorem setchResult : Obligations.SetchResult := by
  intro s c p v
  refine ⟨s.applyChannel c p v, rfl, applyChannel_unknown, fun _ => applyChannel_nan, ?_, ?_, ?_,
    applyChannel_restore s c p v⟩
  · intro hc hp hv
    exact applyChannel_stored hc (by omega) (channelValue_fmt hp hv)
  · intro hc hp
    exact applyChannel_stored hc (by omega) (channelValue_flag (by omega))
  · intro c' p' hother
    rw [chWord_applyChannel, if_neg fun h => hother ⟨h.1, h.2.1⟩]

/-- Settles O36: a NaN, then selector by selector, each clamp answering a legal value. -/
theorem setdynpResult : Obligations.SetdynpResult := by
  intro s sel x
  cases hx : Fp.isNaN x with
  | true => exact ⟨s, exec_setdynp_nan hx, fun _ => rfl, nofun, nofun, nofun⟩
  | false =>
    match sel with
    | 0 => exact ⟨_, exec_setdynp_thr hx, by simp, fun _ _ => ⟨rfl, clampThr_legal x hx, rfl⟩, nofun, nofun⟩
    | 1 => exact ⟨_, exec_setdynp_ratio hx, by simp, nofun, fun _ _ => ⟨rfl, clampRatio_legal x hx, rfl⟩, nofun⟩
    | 2 => exact ⟨_, exec_setdynp_ceil hx, by simp, nofun, nofun, fun _ _ => ⟨rfl, clampCeil_legal x hx, rfl⟩⟩
    | sel + 3 => exact ⟨s, exec_setdynp_unknown sel, fun _ => rfl, nofun, nofun, nofun⟩

/-- Settles O37: the state answered has each field loaded by its SETEQ or SETCH, and `loadFields` writes nothing but
the gains and the channel words. -/
theorem cfgloadResult : Obligations.CfgloadResult := by
  intro s m r rest hm hr hdin
  have hexec := exec_cfgload_of_din hm hr hdin
  refine ⟨_, hexec, loadFields_streamed .., fun j hj => ?_, fun c hc q hq => ?_, by simp, by simp, by simp, by simp,
    by simp, by simp, by simp, by simp, loadFields_sameTelemetry .., loadFields_sameControl ..,
    { exec_sameArbiter hexec with xf := by simp, draws := by simp }⟩
  · exact ⟨_, rfl, loadFields_eqGain_eq_applyEqGain (by omega) 82⟩
  · exact ⟨_, rfl, loadFields_chWord_eq_applyChannel (by omega) (by omega) 82⟩

/-- Settles O35: SETDYN writes both flags; SETBASS ignores a NaN and stores any other value. -/
theorem setdynSetbassResult : Obligations.SetdynSetbassResult := by
  refine ⟨fun _ _ _ => rfl, fun s g => ?_⟩
  cases hg : Fp.isNaN g with
  | true => exact ⟨s, exec_setbass_nan hg, fun _ => rfl, nofun, rfl⟩
  | false => exact ⟨_, exec_setbass_stored hg, nofun, fun _ => rfl, rfl⟩

end Sys2Proof.Proofs
end

section
/-! PROOFS, family 47_telemetry_commands. What each accessor answers (R221 to R227), and a saved record loaded again
(R225). -/

namespace Sys2Proof.Machine

variable {s : State}

/-! Responses (R84). -/

/-- A header is its opcode and status above the length, which adds to them without a carry. -/
theorem header_eq_add (op st : BitVec 8) (len : Nat) :
    header op st len = op ++ st ++ 0#16 + BitVec.ofNat 32 (len % 2 ^ 16) := by
  have hlen : BitVec.ofNat 32 (len % 2 ^ 16) = 0#16 ++ BitVec.ofNat 16 len := by
    rw [← BitVec.toNat_ofNat, BitVec.ofNat_toNat]
    exact BitVec.setWidth_eq_append (by decide)
  rw [hlen, BitVec.append_zero_add_zero_append, header]

/-- The words a response appends, its header written out. -/
theorem streamed_respond_of_header {op st : BitVec 8} {ws : List Word} {len : Nat} {hd : Word}
    (hlen : ws.length = len) (hhd : header op st len = hd) : Streamed s (s.respond op st ws) 0 (hd :: ws) :=
  hhd ▸ hlen ▸ streamed_respond_self ..

/-! GETSNAP (R221). -/

/-- The snapshot words: the spectrum, then the band levels. -/
def State.snapshotWords (s : State) : List Word := s.spec.toList ++ s.blev.toList

theorem State.snapshotWords_length (s : State) : s.snapshotWords.length = 287 := by
  simp [State.snapshotWords]

theorem State.snapshotWords_spec (s : State) {k : Nat} (hk : k < 256) : s.snapshotWords[k]? = s.spec[k]? := by
  rw [State.snapshotWords, List.getElem?_append_left (by simpa using hk), Vector.getElem?_toList]

theorem State.snapshotWords_blev (s : State) (i : Nat) : s.snapshotWords[256 + i]? = s.blev[i]? := by
  simp [State.snapshotWords, List.getElem?_append_right]

/-- GETSNAP answers the snapshot words. -/
theorem exec_getsnap (s : State) :
    ∃ t, exec .getsnap s = .next t ∧ Streamed s t 0 (0x2000011F#32 :: s.snapshotWords) :=
  ⟨_, rfl, streamed_respond_of_header s.snapshotWords_length (by decide)⟩

/-- R39, R164: band 30 has level +0.0 in every state that meets the invariant. -/
theorem State.Inv.blev_last (h : s.Inv) : s.blev[30]? = some 0#32 := by
  simpa using h.lastBand

/-! GETLEVELS (R222). -/

/-- GETLEVELS with empty histories answers zeros. -/
theorem exec_getlevels_empty (h : s.hrms = []) :
    ∃ t, exec .getlevels s = .next t ∧ Streamed s t 0 [0x21000002#32, 0#32, 0#32] := by
  refine ⟨_, rfl, ?_⟩
  rw [if_pos (by simp [h])]
  exact streamed_respond_of_header rfl (by decide)

/-- GETLEVELS with an entry in HRMS answers the newest entry of each history. -/
theorem exec_getlevels_newest (h : s.hrms ≠ []) : ∃ t, exec .getlevels s = .next t ∧
    Streamed s t 0 [0x21000002#32, s.hrms.getLastD 0#32, s.hpeak.getLastD 0#32] := by
  refine ⟨_, rfl, ?_⟩
  rw [if_neg (by simp [h])]
  exact streamed_respond_of_header (len := 2) rfl (by decide)

/-! GETHIST (R223). -/

/-- GETHIST answers the selected history, when the header can count its entries. -/
theorem exec_gethist (sel : Nat) (h : (s.history sel).length < 2 ^ 16) : ∃ t, exec (.gethist sel) s = .next t ∧
    Streamed s t 0 ((0x22000000#32 + BitVec.ofNat 32 (s.history sel).length) :: s.history sel) :=
  ⟨_, rfl, streamed_respond_of_header rfl ((header_eq_add ..).trans (by rw [Nat.mod_eq_of_lt h]; rfl))⟩

theorem State.history_unknown {sel : Nat} (h : 1 < sel) : s.history sel = [] := by
  match sel, h with
  | _ + 2, _ => rfl

/-! GETSTAT (R224). -/

/-- The status word bit by bit. -/
theorem getLsbD_statusWord (eng : Eng) (compEn limEn : Bool) (flt : BitVec 7) (k : Nat) :
    (statusWord eng compEn limEn flt).getLsbD k =
      match k with
      | 0 => decide (eng = .active) | 1 => compEn | 2 => limEn | 3 | 4 | 5 | 6 | 7 => false
      | k + 8 => flt.getLsbD k := by
  rw [statusWord, BitVec.getLsbD_append, BitVec.getLsbD_append, BitVec.getLsbD_append, BitVec.getLsbD_append,
    BitVec.getLsbD_append]
  match k with
  | 0 => cases eng <;> rfl
  | 1 => cases compEn <;> rfl
  | 2 => cases limEn <;> rfl
  | 3 | 4 | 5 | 6 | 7 => rfl
  | k + 8 => simpa using BitVec.lt_of_getLsbD

/-! A saved record loaded again (R225). -/

/-- Of two values in order the upper one is not below the lower one (R19). -/
theorem Fp.not_lt_of_le {x y : Fmt} (h : Fp.le x y = true) : ¬ Fp.lt y x = true := by
  rw [Fp.lt_iff]
  rintro ⟨-, -, hlt⟩
  obtain ⟨-, -, hle⟩ := Fp.le_iff.1 h
  exact Int.not_lt.2 hle hlt

/-- A legal gain is no NaN, and is stored as it is. -/
theorem clampGain_of_legal {g : Fmt} (h : legalGain g = true) : Fp.isNaN g = false ∧ clampGain g = g := by
  obtain ⟨hmin, hmax⟩ : Fp.le Config.gainMin g = true ∧ Fp.le g Config.gainMax = true := by
    simpa [legalGain] using h
  obtain ⟨-, hnan, -⟩ := Fp.le_iff.1 hmin
  exact ⟨hnan, by rw [clampGain, if_neg (Fp.not_lt_of_le hmax), if_neg (Fp.not_lt_of_le hmin)]⟩

/-- A legal boolean word is stored as it is. -/
theorem channelValue_of_legal {p : Nat} {v : Word} (hp : 6 ≤ p) (hv : legalBoolean v = true) :
    channelValue p v = some v := by
  rw [channelValue_flag hp]
  rcases of_decide_eq_true hv with rfl | rfl <;> rfl

/-- Mute and bypass are legal booleans in every state that meets the invariant. -/
theorem State.Inv.legal_flag (h : s.Inv) {c q : Nat} (hc : c < 6) (hq : 6 ≤ q) (hq' : q < 8) :
    legalBoolean (s.chWord c q) = true := by
  obtain ⟨hmute, hbypass⟩ := h.booleans c hc
  obtain rfl | rfl : q = 6 ∨ q = 7 := by omega
  · exact hmute
  · exact hbypass

/-- The value that loading a saved channel word stores: the word, but nothing for a NaN of a FMT parameter. -/
theorem State.Inv.channelValue_saved (h : s.Inv) {c q : Nat} (hc : c < 6) (hq : q < 8) :
    channelValue q (s.chWord c q) =
      if q ≤ 5 ∧ Fp.isNaN (s.chWord c q) = true then none else some (s.chWord c q) := by
  by_cases hfmt : q ≤ 5
  · cases hnan : Fp.isNaN (s.chWord c q) with
    | true => rw [channelValue_nan hfmt hnan, if_pos ⟨hfmt, rfl⟩]
    | false => rw [channelValue_fmt hfmt hnan, if_neg (by simp)]
  · rw [channelValue_of_legal (by omega) (h.legal_flag hc (by omega) hq), if_neg fun hcond => hfmt hcond.1]

end Sys2Proof.Machine

namespace Sys2Proof.Proofs

open Sys2Proof.Machine

/-- Settles O27: the snapshot words by index; the last one is band 30, which the invariant keeps at zero. -/
theorem getsnapResponse : Obligations.GetsnapResponse := by
  intro s
  obtain ⟨t, hexec, hstreams⟩ := exec_getsnap s
  exact ⟨t, s.snapshotWords, hexec, hstreams, s.snapshotWords_length, fun _ => s.snapshotWords_spec,
    fun i _ => s.snapshotWords_blev i, fun hinv => (s.snapshotWords_blev 30).trans hinv.blev_last⟩

/-- Settles O28: by whether HRMS is empty; an entry at the end of a history is its newest one. -/
theorem getlevelsResponse : Obligations.GetlevelsResponse := by
  intro s
  by_cases hempty : s.hrms = []
  · obtain ⟨t, hexec, hstreams⟩ := exec_getlevels_empty hempty
    exact ⟨t, 0#32, 0#32, hexec, hstreams, fun _ => ⟨rfl, rfl⟩, fun _ _ _ _ hrms _ => by simp [hempty] at hrms⟩
  · obtain ⟨t, hexec, hstreams⟩ := exec_getlevels_newest hempty
    exact ⟨t, _, _, hexec, hstreams, fun h => absurd h hempty,
      fun _ _ _ _ hrms hpeak => by simp [hrms, hpeak]⟩

/-- Settles O29: the invariant bounds the selected history, so the header counts its entries. -/
theorem gethistResponse : Obligations.GethistResponse := by
  intro s sel hinv
  have hlen := hinv.history_length_le sel
  obtain ⟨t, hexec, hstreams⟩ := exec_gethist (s := s) sel (by omega)
  exact ⟨t, s.history sel, hexec, hstreams, fun h => by rw [h]; rfl, fun h => by rw [h]; rfl,
    State.history_unknown, hlen⟩

/-- Settles O30: the status word bit by bit; FLT has no bit from 7 on. -/
theorem getstatResponse : Obligations.GetstatResponse := by
  intro s
  refine ⟨_, statusWord s.eng s.compEn s.limEn s.flt, rfl, streamed_respond_of_header (len := 7) rfl (by decide), ?_,
    getLsbD_statusWord .., getLsbD_statusWord .., fun k hk hk' => ?_, fun k _ => ?_, fun k hk => ?_⟩
  · rw [getLsbD_statusWord, decide_eq_true_iff]
  · rw [getLsbD_statusWord]
    match k with
    | 3 | 4 | 5 | 6 | 7 => rfl
  · rw [Nat.add_comm, getLsbD_statusWord]
  · obtain ⟨j, rfl⟩ := Nat.exists_eq_add_of_le' (show 8 ≤ k by omega)
    rw [getLsbD_statusWord]
    exact BitVec.getLsbD_of_ge _ _ (by omega)

/-- Settles O31: the record by index. -/
theorem cfgsaveResponse : Obligations.CfgsaveResponse := fun s =>
  ⟨_, s.record, rfl, streamed_respond_of_header (record_length s) (by decide), record_length s,
    record_eqGain s, fun c hc q hq => record_chWord s c q hc hq⟩

/-- Settles O38: every field is present, a legal gain or boolean is stored as it is, and so is any other channel word
but a NaN. -/
theorem saveLoadRestores : Obligations.SaveLoadRestores := by
  intro a s m rest hinv hm hmask hdin
  refine ⟨_, exec_cfgload_of_din hm (record_length a) hdin, fun i hi => ?_, fun c hc q hq => ?_⟩
  · obtain ⟨hnan, hclamp⟩ := clampGain_of_legal ((forall_mem_eqg a _).1 hinv.gains i hi)
    have hpresent : fieldPresent m i = true := hmask i (by omega)
    have hword : a.record.getD i 0#32 = a.eqGain i := by simp [List.getD_eq_getElem?_getD, record_eqGain a i hi]
    rw [loadFields_eqGain, hword, if_pos ⟨show _ < 79 by omega, hpresent, by omega, hnan⟩, hclamp]
  · have hpresent : fieldPresent m (31 + 8 * c + q) = true := hmask _ (by omega)
    have hword : a.record.getD (31 + 8 * c + q) 0#32 = a.chWord c q := by
      simp [List.getD_eq_getElem?_getD, record_chWord a c q hc hq]
    rw [loadFields_chWord _ _ _ _ _ _ (by omega) (by omega), hword, if_pos ⟨show _ < 79 by omega, hpresent⟩,
      hinv.channelValue_saved hc hq, dinDrop_chWord]
    split <;> rfl

end Sys2Proof.Proofs
end

section
/-! PROOFS, family 60_exceptions. All six stages failing in one command (R248, R251): a failed stage hands on its
input, so one NaN in the block reaches every stage of the chain and the two stages of the telemetry. -/

namespace Sys2Proof.Machine

variable {num : Config.Numerics} {xf : BitVec 6} {s : State} {x : List Fmt} {sr : Nat}

/-! A block with a NaN in its first 512 samples. -/

theorem Fp.finite_of_isNaN {v : Fmt} (h : Fp.isNaN v = true) : Fp.finite v = false := by simp [Fp.finite, h]

/-- A block that holds a NaN is not finite. -/
theorem exists_not_finite_of_any_isNaN (h : x.any Fp.isNaN = true) : ∃ v ∈ x, Fp.finite v = false := by
  obtain ⟨v, hv, hnan⟩ := List.any_eq_true.1 h
  exact ⟨v, hv, Fp.finite_of_isNaN hnan⟩

theorem all_finite_of_any_isNaN (h : x.any Fp.isNaN = true) : x.all Fp.finite = false := by
  simpa using exists_not_finite_of_any_isNaN h

theorem any_isNaN_of_take {n : Nat} (h : (x.take n).any Fp.isNaN = true) : x.any Fp.isNaN = true := by
  obtain ⟨v, hv, hnan⟩ := List.any_eq_true.1 h
  exact List.any_eq_true.2 ⟨v, List.mem_of_mem_take hv, hnan⟩

/-! The stages. -/

/-- A NaN in the block makes the meter fail. -/
theorem metered_nan (hnan : (x.take 512).any Fp.isNaN = true) : (metered num xf x s).failed = true :=
  (metStage_failed_iff ..).2 (.inr (.inr (.inl (exists_not_finite_of_any_isNaN (any_isNaN_of_take hnan)))))

section
variable (hx : 512 ≤ x.length) (hnan : (x.take 512).any Fp.isNaN = true)
include hx hnan

/-- A NaN in the block makes the analyzer fail. -/
theorem analyzed_nan : (analyzed num xf x sr s).failed = true :=
  (anaStage_failed_iff num _ _ _ _ hx).2 (.inr (.inr (.inl (all_finite_of_any_isNaN hnan))))

variable (hgain : someGain s.eqg = true) (hcomp : s.compEn = true) (hlim : s.limEn = true)
  (hbass : Fp.lt 0#32 s.bass = true)
include hgain hcomp hlim hbass

/-- A NaN in the block makes all four stages of the chain fail, and the block comes out as it went in. -/
theorem audioChain_nan :
    audioChain num xf s x sr = { block := x, f0 := true, f1 := true, f2 := true, f3 := true } := by
  have hany := any_isNaN_of_take hnan
  have hfinite := exists_not_finite_of_any_isNaN hany
  have heqFail : (eqStage num (injected xf 0) x s.eqg sr).failed = true :=
    (eqStage_failed_iff ..).2 ⟨hgain, hx, .inr (.inr (.inl (all_finite_of_any_isNaN hnan)))⟩
  have hcompFail : (compStage (injected xf 1) x s.thr s.ratio).failed = true :=
    (compStage_failed_iff ..).2 (.inr (.inl hfinite))
  have hlimFail : (limStage (injected xf 2) x s.ceil).failed = true := limStage_failed_iff.2 (.inr hany)
  have hbassFail : (bassStage num (injected xf 3) x s.bass).failed = true :=
    (bassStage_failed_iff ..).2 ⟨Bool.eq_false_iff.2 fun hle => Fp.not_lt_of_le hle hbass, .inr (.inl hfinite)⟩
  simp only [audioChain, hcomp, hlim, hbass, if_true, eqStage_failed num _ _ _ _ heqFail,
    compStage_failed_value hcompFail, limStage_failed_value hlimFail, bassStage_failed_value hbassFail, heqFail,
    hcompFail, hlimFail, hbassFail]

/-- A NaN in the block makes all six stages fail. -/
theorem stageFailures_nan : stageFailures num xf x sr s = 0x3F#6 := by
  simp only [stageFailures, audioChain_nan hx hnan hgain hcomp hlim hbass, analyzed_nan hx hnan, metered_nan hnan]
  decide

end

end Sys2Proof.Machine

namespace Sys2Proof.Proofs

open Sys2Proof.Machine

/-- Settles O45: each stage of the chain fails and hands the block on, and the telemetry stages fail and keep what
they had. -/
theorem allSixStagesCanFail : Obligations.AllSixStagesCanFail := by
  intro s n sr he hdata hn hnan hgain hcomp hlim hbass
  obtain ⟨t, hexec, hstreams, -, hregs⟩ := exec_process_active (sr := sr) he hdata
  have hlen : 512 ≤ (s.dinWords n).length := hn.trans_eq (List.length_take_of_le hdata).symm
  have hblock : ((s.dinWords n).take 512).any Fp.isNaN = true := by
    rwa [State.dinWords, List.take_take, Nat.min_eq_left hn]
  have hchain : audioChain Config.numerics s.xf s (s.dinWords n) sr = ⟨s.dinWords n, true, true, true, true⟩ :=
    audioChain_nan hlen hblock (someGain_iff.2 hgain) hcomp hlim hbass
  have hfail : stageFailures Config.numerics s.xf (s.dinWords n) sr s = 0x3F#6 :=
    stageFailures_nan hlen hblock (someGain_iff.2 hgain) hcomp hlim hbass
  have hsnapshot : (analyzed Config.numerics s.xf (s.dinWords n) sr s).value = ⟨s.spec, s.blev⟩ :=
    anaStage_failed _ _ _ _ _ (analyzed_nan hlen hblock)
  have hlevels : (metered Config.numerics s.xf (s.dinWords n) s).value = ⟨s.hrms, s.hpeak⟩ :=
    metStage_failed_value (metered_nan hblock)
  rw [hchain, hfail, header_eq_add] at hstreams
  refine ⟨t, hexec, hstreams, fun k hk => ?_, ?_, ?_, ?_, ?_⟩
  · have hbit : ∀ k < 6, (0x3F#6).getLsbD k = true := by decide
    rw [hregs.flt]
    exact (getLsbD_logFailures ..).trans (by rw [hfail, hbit k hk, Bool.or_true])
  · exact hregs.spec.trans (congrArg Snapshot.spec hsnapshot)
  · exact hregs.blev.trans (congrArg Snapshot.blev hsnapshot)
  · exact hregs.hrms.trans (congrArg Levels.hrms hlevels)
  · exact hregs.hpeak.trans (congrArg Levels.hpeak hlevels)

end Sys2Proof.Proofs
end

section
/-! PROOFS, family 70_reset_and_hazards. Reset (R270, R272), and the telemetry while no block is processed (R274). -/

namespace Sys2Proof.Machine

variable {s t : State}

/-! No block processed (R274). -/

theorem reset_noBlock : State.reset.NoBlock where
  spec := rfl
  blev := rfl
  hrms := rfl
  hpeak := rfl
  sr := rfl
  flt _ _ := BitVec.getLsbD_zero

/-- Only a PROCESS that runs sets a stage failure. -/
theorem Effect.stageFailures_kept {r : Except DecodeError Instr} (h : Effect s r t)
    (hruns : ¬ ((∃ n sr, r = .ok (.process n sr)) ∧ s.eng = .active)) {k : Nat} (hk : k < 6) :
    t.flt.getLsbD k = s.flt.getLsbD k := by
  rcases h.flt_cases with ⟨-, hflt⟩ | ⟨hprocess, -⟩ | ⟨-, hflt⟩
  · rw [hflt]
  · exact absurd hprocess hruns
  · simp [hflt, hk.ne]

/-- With the telemetry kept and no stage failure set, still no block is processed. -/
theorem State.NoBlock.of_sameTelemetry (h : s.NoBlock) (hst : SameTelemetry s t)
    (hflt : ∀ k < 6, t.flt.getLsbD k = s.flt.getLsbD k) : t.NoBlock where
  spec := hst.spec.trans h.spec
  blev := hst.blev.trans h.blev
  hrms := hst.hrms.trans h.hrms
  hpeak := hst.hpeak.trans h.hpeak
  sr := hst.sr.trans h.sr
  flt k hk := (hflt k hk).trans (h.flt k hk)

theorem State.NoBlock.snapshotWords (h : s.NoBlock) : s.snapshotWords = List.replicate 287 0#32 := by
  rw [State.snapshotWords, h.spec, h.blev, Vector.toList_replicate, Vector.toList_replicate,
    List.replicate_append_replicate]

theorem State.NoBlock.history (h : s.NoBlock) (sel : Nat) : s.history sel = [] :=
  match sel with
  | 0 => h.hrms
  | 1 => h.hpeak
  | _ + 2 => rfl

end Sys2Proof.Machine

namespace Sys2Proof.Proofs

open Sys2Proof.Machine

/-- Settles O8: the state under RST is that of reset but for RST itself, whatever the state before. -/
theorem resetDiscardsEverything : Obligations.ResetDiscardsEverything :=
  fun _ _ _ _ => ⟨fun q => by cases q <;> exact ⟨rfl, rfl, rfl⟩, rfl, rfl, rfl, rfl⟩

/-- Settles O46: every effect but the commit of a PROCESS that runs keeps telemetry and stage failures, and the
accessors answer the zeros of such a state. -/
theorem noBlockZeroTelemetry : Obligations.NoBlockZeroTelemetry := by
  refine ⟨reset_noBlock, fun w s h hruns => ?_, fun s h => ⟨?_, exec_getlevels_empty h.hrms, fun sel => ?_⟩⟩
  · obtain ⟨t, ht, he⟩ := execWord_effect w s
    exact ⟨t, ht, h.of_sameTelemetry (he.sameTelemetry hruns) fun _ => he.stageFailures_kept hruns⟩
  · rw [← h.snapshotWords]
    exact exec_getsnap s
  · have hnone := h.history sel
    obtain ⟨t, hexec, hstreams⟩ := exec_gethist (s := s) sel (by simp [hnone])
    rw [hnone] at hstreams
    exact ⟨t, hexec, hstreams⟩

end Sys2Proof.Proofs
end
